-- ==== Sys2Proof/Word.lean ====
section
/-! DEFINITION. The word types of the Solinas64 core (spec/00_scope.md R9, spec/10_state.md R22,
spec/30_encoding.md R70, R71). -/

namespace Sys2Proof

/-- One byte of memory (R32). -/
abbrev Byte := BitVec 8

/-- A general register, an operand or a field word: the set U64 of R9 (R22). -/
abbrev Word := BitVec 64

/-- One 32-bit command word (R70). -/
abbrev CommandWord := BitVec 32

/-- The index of a general register: a 4-bit register field; every value is a register (R22, R71). -/
abbrev Reg := Fin 16

end Sys2Proof
end

