-- ==== Sys2Proof/Config.lean ====
section
/-! DEFINITION. What is fixed for the machine: the constants of spec/00_scope.md R7 and R8, and the shape of the
one open parameter, MEMMAP (spec/20_memory.md R56, R57). -/

namespace Sys2Proof

/-- The modulus p = 2^64 − 2^32 + 1 (R7). -/
abbrev Config.p : Nat := 0xFFFFFFFF00000001

/-- The modulus as a word (R7). -/
abbrev Config.pWord : Word := 0xFFFFFFFF00000001#64

/-- c = 2^32 − 1, so that p + c = 2^64 (R7). -/
abbrev Config.c : Word := 0x00000000FFFFFFFF#64

/-- AMB63: the ambiguity mask of the 64-bit-with-overflow codec, bits 32..62 (R7). -/
abbrev Config.amb63 : Word := 0x7FFFFFFF00000000#64

/-- Overflow bits per auxiliary word (R7). -/
abbrev Config.overflowBits : Nat := 63

/-- Width of a word of the 61-bit codecs (R7). -/
abbrev Config.wordWidth : Nat := 61

/-- Width of an escaped word of the byte codec (R7). -/
abbrev Config.escapeWidth : Nat := 60

/-- M60, the escape code of the byte codec (R8, spec/44_codec61_byte.md R191). -/
abbrev Config.m60 : Word := 0x0FFFFFFFFFFFFFFF#64

/-- Number of byte addresses: addresses are 64 bits wide (R8, spec/10_state.md R32). -/
abbrev Config.addressSpace : Nat := 0x10000000000000000

/-- Number of bit positions that a 67-bit POS tells apart (R29, R31). -/
abbrev Config.streamPositions : Nat := 0x80000000000000000

/-- What a byte that nothing has written reads as. DESIGN CHOICE (log entry 4), unsafe: memory is the host's and the
spec gives its bytes no value. -/
abbrev Config.unlistedByte : Byte := 0#8

/-- An interval of byte addresses, [base, base + size). -/
structure Span where
  base : Nat
  size : Nat
deriving DecidableEq, Repr

/-- A set of byte addresses as a list of spans: the form MEMMAP takes (R56). Every set of 64-bit addresses is such a
list. -/
abbrev MemMap := List Span

/-- MEMMAP in `State.reset`: every 64-bit address is backed. DESIGN CHOICE (log entry 3), unsafe: the spec leaves the
map to the platform. Statements range over every map. -/
abbrev Config.resetMap : MemMap := [Span.mk 0 Config.addressSpace]

/-- What WWFLUSH and BWFLUSH deliver for a stream of 2^64 bytes, a length that no register holds: a free value, one for
each command index. DESIGN CHOICE (log entry 8): R174 and R195 state no result there. -/
opaque Config.fullStreamTotal : Nat → Word

end Sys2Proof
end

