-- ==== Sys2Proof/Machine/State.lean ====
section
/-! DEFINITION. The state of the core (spec/10_state.md R22 to R33), the ways a step can stop
(spec/60_exceptions.md R238), and the state after reset (R33, spec/70_reset_and_hazards.md R250). -/

namespace Sys2Proof.Machine

/-- The status register ST (R26). Bits 3:2 and 63:7 are hard-wired zero, so only the fields are stored;
`Status.word` is the 64-bit register. -/
structure Status where
  /-- Bit 0: the last BRREAD found no data left. -/
  empty : Bool
  /-- Bit 1: the core has faulted and executes nothing. -/
  halt : Bool
  /-- Bits 6:4: the fault code of R231; 0 while HALT = 0. -/
  fcause : BitVec 3
deriving DecidableEq, Repr

/-- The context ADR (R27), and the private packer of the region commands (R211). -/
structure AdrContext where
  /-- 1 between ADSETUP and ADFLUSH. -/
  active : Bool
  /-- Byte address of the auxiliary region. -/
  auxBase : Word
  /-- Number of 64-bit words already flushed to the auxiliary region. -/
  auxWords : Word
  /-- The overflow bits accumulated and not yet flushed. -/
  acc : Word
  /-- Number of valid bits in ACC. -/
  cnt : BitVec 6
deriving DecidableEq, Repr

/-- The contexts WW (R28) and BW (R30). -/
structure WriterContext where
  /-- 1 between begin and flush. -/
  active : Bool
  /-- Byte address given to the begin command. -/
  base : Word
  /-- Byte address of the next 64-bit word to write; 0 after a word that ends at 2^64. -/
  ptr : Word
  /-- The buffered bits not yet written. -/
  acc : Word
  /-- Number of buffered bits. -/
  cnt : BitVec 6
  /-- The model's own bit: the stream has reached 2^64, so that PTR has come round to 0 and the next address is 2^64,
  which R58 refuses. DEDUCED (R58, log entry 8), safe. -/
  past : Bool
deriving DecidableEq, Repr

/-- The contexts WR (R29) and BR (R31). -/
structure ReaderContext where
  /-- 1 after the begin command. -/
  active : Bool
  /-- Byte address of the buffer. -/
  base : Word
  /-- Length of the buffer in bytes. -/
  len : Word
  /-- Bit position of the next word; with `past` set, 2^67 less than it. -/
  pos : BitVec 67
  /-- The model's own bit: the position has reached 2^67, so that POS has come round and no data bit is left (R198). Only
  BR reaches it, with LEN within 8 of 2^64. DEDUCED (R31, R198, log entry 9), safe. -/
  past : Bool
deriving DecidableEq, Repr

/-- The data memory (R32) with the set of addresses the platform backs (MEMMAP, R56). `cells` lists bytes by strictly
rising address, none equal to what an unlisted address reads as. -/
structure Memory where
  cells : List Host.Cell
  map : MemMap
deriving DecidableEq, Repr

/-- The response of a command (R21). -/
structure Response where
  /-- 0 for a completed command, else a code of R231. -/
  fault : BitVec 3
  /-- ST.EMPTY after the command. -/
  empty : Bool
  /-- The value written to x[rd], else 0. -/
  result : Word
deriving DecidableEq, Repr

/-- What the host does, as input to the core (R21), oldest first in `State.input`. -/
inductive HostInput where
  /-- One 32-bit word of a command (R21, R70). -/
  | word (w : CommandWord)
  /-- The reset (R21, R33, R250). -/
  | reset
  /-- The host stores one byte in its memory while no command uses it (R20, R32, R251, R256): between two commands, or
  between the words of a SETI. -/
  | hostStore (addr : Nat) (b : Byte)
deriving DecidableEq, Repr

/-- The machine. -/
structure State where
  /-- r0 to r15 (R22). -/
  regs : Vector Word 16
  /-- Which registers a command has written since reset (R23, R33; log entry 1). -/
  written : Vector Bool 16
  /-- ST (R26). -/
  st : Status
  /-- ADR (R27). -/
  adr : AdrContext
  /-- WW (R28). -/
  ww : WriterContext
  /-- WR (R29). -/
  wr : ReaderContext
  /-- BW (R30). -/
  bw : WriterContext
  /-- BR (R31). -/
  br : ReaderContext
  /-- The memory (R32). -/
  mem : Memory
  /-- The host's transactions the core has not taken yet, oldest first (R21, R24; log entry 5). -/
  input : List HostInput
  /-- The last response returned (R21; log entry 7); none before the first after reset. -/
  response : Option Response
  /-- The command index of R24, bookkeeping that no command can read (log entry 14). -/
  index : Nat
deriving DecidableEq, Repr

/-- Stops at an address that does not exist. In the spec's words these are refusals (R238), not faults of the core:
the core's one fault, IllegalCommand, is a next state. Log entry 10. -/
inductive Fault where
  /-- A byte address a command would use is 2^64 or more (R58). Raised by every command that accesses memory and by a
  host store. Safe: the spec gives the use no meaning. -/
  | addressWrap
  /-- A byte a command would read or write is outside MEMMAP (R56). Raised as `addressWrap` is. Safe, likewise. -/
  | unbackedAccess
deriving DecidableEq, Repr

/-- Uses the spec refuses (R238): it gives them no meaning, so the model has no step for them. -/
inductive Refusal where
  /-- An instruction whose arm of `exec` has no meaning. No arm raises it. Safe. -/
  | notModelled (mnemonic : String)
  /-- ADRD8, ADRDF, ADFLUSH, WWWRITE, WWFLUSH, WRREAD, BWWRITE, BWFLUSH, BRREAD on an idle context (R238). Safe. -/
  | contextIdle
  /-- ADRDF with a count above 7 (R157). Safe. -/
  | tailTooLong
  /-- ADMOB, WWNEED, BWMAX, MULRGN, MADRGN when a size reaches 2^64 (R154, R171, R192, R212). Safe. -/
  | sizeOverflow
  /-- WWWRITE, BWWRITE with a value at or above 2^61 (R173, R194). Safe. -/
  | wordTooWide
  /-- WRREAD beyond WordCount(LEN) words (R177). Safe. -/
  | readPastEnd
  /-- MULRGN, MADRGN with a coefficient at or above p (R212). Safe. -/
  | coeffOutOfRange
  /-- MULRGN, MADRGN with overlapping footprints (R213). Safe. -/
  | regionOverlap
  /-- The host put a reset between the words of one command. Raised by `step`. Safe: a reset during a command is
  outside the spec (R250, log entry 6). -/
  | brokenCommand
deriving DecidableEq, Repr

/-- What a shared operation answers: a value, or the reason the step stops. -/
abbrev Result (α : Type) := Host.Outcome α Fault Refusal

/-- ST after reset (R26, R33). -/
abbrev Status.reset : Status := { empty := false, halt := false, fcause := 0 }

/-- ADR after reset: idle (R33); its other fields DESIGN CHOICE 0 (log entry 2), unsafe. -/
abbrev AdrContext.reset : AdrContext := { active := false, auxBase := 0, auxWords := 0, acc := 0, cnt := 0 }

/-- WW and BW after reset: idle (R33); the other fields DESIGN CHOICE 0 (log entry 2), unsafe. -/
abbrev WriterContext.reset : WriterContext := { active := false, base := 0, ptr := 0, acc := 0, cnt := 0, past := false }

/-- WR and BR after reset: idle (R33); the other fields DESIGN CHOICE 0 (log entry 2), unsafe. -/
abbrev ReaderContext.reset : ReaderContext := { active := false, base := 0, len := 0, pos := 0, past := false }

/-- The machine right after reset (R33, R250): ST = 0, all contexts idle, no register written, index 0. The registers
hold 0: DESIGN CHOICE (log entry 1), unsafe, the spec gives them no value. Nothing is listed in memory (log entry 4),
and the host has issued nothing. -/
def State.reset : State :=
  { regs := Vector.replicate 16 0
    written := Vector.replicate 16 false
    st := Status.reset
    adr := AdrContext.reset
    ww := WriterContext.reset
    wr := ReaderContext.reset
    bw := WriterContext.reset
    br := ReaderContext.reset
    mem := { cells := [], map := Config.resetMap }
    input := []
    response := none
    index := 0 }

end Sys2Proof.Machine
end

