-- ==== Sys2Proof/Machine/Ops.lean ====
section
/-! DEFINITION. The shared operations: sequencing, memory (spec/20_memory.md R50 to R58), the fault entry and the
halted answer (spec/60_exceptions.md R231 to R235), the reset (spec/10_state.md R33), the completion of a command (R21). -/

namespace Sys2Proof.Machine

/-! ### Sequencing -/

/-- Go on with the value of `r`, or stop as `r` stops. -/
def andThen {α β : Type} (r : Result α) (f : α → Result β) : Result β :=
  match r with
  | .next a => f a
  | .fault e => .fault e
  | .refused e => .refused e

/-- Refuse with `e` when the condition holds (`refuse(...)` of spec/00_scope.md R11). -/
def refuseIf (cond : Bool) (e : Refusal) : Result Unit :=
  if cond then .refused e else .next ()

/-- `ceil(a / b)` (R9). -/
def ceilDiv (a b : Nat) : Nat := (a + (b - 1)) / b

/-! ### Bytes of memory -/

/-- The byte listed at address `a`, or what an unlisted address reads as. -/
def lookupCell (a : Nat) : List Host.Cell → Byte
  | [] => Config.unlistedByte
  | (k, v) :: rest => if a = k then v else lookupCell a rest

/-- List byte `b` at address `a`, in the canonical form: rising addresses, no entry with the unlisted value. -/
def insertCell (a : Nat) (b : Byte) : List Host.Cell → List Host.Cell
  | [] => if b = Config.unlistedByte then [] else [(a, b)]
  | (k, v) :: rest =>
    if a < k then (if b = Config.unlistedByte then (k, v) :: rest else (a, b) :: (k, v) :: rest)
    else if a = k then (if b = Config.unlistedByte then rest else (a, b) :: rest)
    else (k, v) :: insertCell a b rest

/-- mem[a] (R51). -/
def Memory.byte (m : Memory) (a : Nat) : Byte := lookupCell a m.cells

/-- mem[a] <- b (R51). -/
def Memory.setByte (m : Memory) (a : Nat) (b : Byte) : Memory := { m with cells := insertCell a b m.cells }

/-- Every address listed after a cell at `low` is above it, and no listed byte is the unlisted value. -/
def cellsAbove (low : Nat) : List Host.Cell → Bool
  | [] => true
  | (k, v) :: rest => decide (low ≤ k) && decide (v ≠ Config.unlistedByte) && cellsAbove (k + 1) rest

/-- The canonical form, inside the address space: equal memories are equal data. -/
def Memory.wf (m : Memory) : Bool :=
  cellsAbove 0 m.cells && m.cells.all fun c => decide (c.1 < Config.addressSpace)

/-- Whether the span holds address `a`. -/
def holdsAddress (sp : Span) (a : Nat) : Bool := decide (sp.base ≤ a) && decide (a < sp.base + sp.size)

/-- Whether byte address `a` is in MEMMAP (R56). -/
def Memory.backed (m : Memory) (a : Nat) : Bool := m.map.any fun sp => holdsAddress sp a

/-- Whether the `n` bytes from `a` on are all in MEMMAP. -/
def Memory.backedRange (m : Memory) (a : Nat) : Nat → Bool
  | 0 => true
  | n + 1 => m.backed a && m.backedRange (a + 1) n

/-- MemRead(a, n) (R51): Σ mem[a + i]·2^(8i), little-endian (R50). -/
def Memory.readBytes (m : Memory) (a : Nat) : Nat → Nat
  | 0 => 0
  | n + 1 => (m.byte a).toNat + 2 ^ 8 * m.readBytes (a + 1) n

/-- MemWrite(a, n, v) (R51): byte i of v to address a + i; bits of v at and above 8n are ignored. -/
def Memory.writeBytes (m : Memory) (a : Nat) : Nat → Nat → Memory
  | 0, _ => m
  | n + 1, v => (m.setByte a (BitVec.ofNat 8 v)).writeBytes (a + 1) n (v / 2 ^ 8)

/-- Whether a command may use the `n` bytes from `a` on: below 2^64 (R58) and backed (R56). -/
def Memory.accessible (m : Memory) (a n : Nat) : Bool :=
  decide (a + n ≤ Config.addressSpace) && m.backedRange a n

/-- Stop as R58 and R56 say unless the `n` bytes from `a` on may be used. -/
def Memory.checkAccess (m : Memory) (a n : Nat) : Result Unit :=
  if Config.addressSpace < a + n then .fault .addressWrap
  else if m.backedRange a n then .next ()
  else .fault .unbackedAccess

/-- A read of `n` bytes by a command. No alignment (R53); each byte is an access (R55). -/
def Memory.load (m : Memory) (a n : Nat) : Result Nat :=
  andThen (m.checkAccess a n) fun _ => .next (m.readBytes a n)

/-- A write of `n` bytes by a command. -/
def Memory.store (m : Memory) (a n v : Nat) : Result Memory :=
  andThen (m.checkAccess a n) fun _ => .next (m.writeBytes a n v)

/-! ### Completing a command, the fault, the halted answer, the reset -/

/-- Return the response of a completed command with result `v` and advance the command index (R21, R24, R233 step 5). -/
def State.respond (s : State) (v : Word) : State :=
  { s with response := some { fault := 0, empty := s.st.empty, result := v }, index := s.index + 1 }

/-- Fault entry for a word that is no command (R234): HALT and FCAUSE are set, the response carries code 1, nothing
else changes and the index does not advance. There is no return from it but the reset (R235). -/
def State.illegalCommand (s : State) : State :=
  { s with
    st := { s.st with halt := true, fcause := 1 }
    response := some { fault := 1, empty := s.st.empty, result := 0 } }

/-- The answer of a halted core to any command (R233 step 1, R234): code 2, no state changes. -/
def State.answerHalted (s : State) : State :=
  { s with response := some { fault := 2, empty := s.st.empty, result := 0 } }

/-- The host's reset (R33, R250): the core is as after reset; memory, MEMMAP and what the host issues next are the
host's and stay. -/
def State.hostReset (s : State) : State :=
  { State.reset with mem := s.mem, input := s.input }

end Sys2Proof.Machine
end

