-- ==== Sys2Proof/Machine/Flags.lean ====
section
/-! DEFINITION. The status register (spec/10_state.md R25, R26) and the one flag. No arithmetic command has a flag. -/

namespace Sys2Proof.Machine

/-- ST as RDST reads it (R26, R132): bit 0 EMPTY, bit 1 HALT, bits 6:4 FCAUSE, all other bits 0. -/
def Status.word (st : Status) : Word :=
  BitVec.ofNat 64 (st.empty.toNat + 2 * st.halt.toNat + 2 ^ 4 * st.fcause.toNat)

/-- ST.EMPTY <- b (R25): by BRREAD and BRBEGIN only. -/
def State.setEmpty (s : State) (b : Bool) : State := { s with st := { s.st with empty := b } }

end Sys2Proof.Machine
end

