-- ==== Sys2Proof/Machine/Operands.lean ====
section
/-! DEFINITION. The operand forms (spec/30_encoding.md R71, R72, spec/41_register_and_byte_io.md R130): a register as
source, as destination, as byte address, as byte count. The immediate of SETI is an operand of the instruction itself. -/

namespace Sys2Proof.Machine

/-- x[i] as a source (R11, R22). A register that nothing has written since reset gives its reset value where R23
refuses the read: DESIGN CHOICE (log entry 1), unsafe; `Safety` says which reads R23 gives a meaning. -/
def State.reg (s : State) (r : Reg) : Word := s.regs[r]

/-- x[i] <- v (R11, R22): no register is hard-wired. The register holds a value from now on (R23). -/
def State.setReg (s : State) (r : Reg) (v : Word) : State :=
  { s with regs := s.regs.set r v, written := s.written.set r true }

/-- Whether a command has written x[i] since reset (R23). -/
def State.holdsValue (s : State) (r : Reg) : Bool := s.written[r]

/-- The effective address of an operand: the register's value, with no offset (R130), as an integer (R58). -/
def State.address (s : State) (r : Reg) : Nat := (s.reg r).toNat

/-- A byte or word count, a length or a coefficient: the register's value as an integer (R9). -/
def State.count (s : State) (r : Reg) : Nat := (s.reg r).toNat

/-- An integer below 2^64 as a register value, zero-extended (R9). -/
def toWord (n : Nat) : Word := BitVec.ofNat 64 n

/-- Complete a command whose destination is rd: x[rd] <- v, and the response carries v (R21). -/
def State.deliver (s : State) (rd : Reg) (v : Word) : State := (s.setReg rd v).respond v

/-- Complete a command without a destination: the response carries 0 (R21). -/
def State.complete (s : State) : State := s.respond 0

end Sys2Proof.Machine
end

