-- ==== Sys2Proof/Machine/Streams.lean ====
section
/-! DEFINITION. The 61-bit streams (spec/20_memory.md R52, spec/43_codec61_word.md R170, spec/44_codec61_byte.md R191):
writing and reading, shared by the word codec and the byte codec. -/

namespace Sys2Proof.Machine

/-- Bytes of k words of 61 bits, ceil(61·k/8), as an integer (R171, R192). -/
def streamBytes (k : Nat) : Nat := ceilDiv (Config.wordWidth * k) 8

/-- Deliver an integer size, refused when it does not fit 64 bits (R154, R171, R192). -/
def deliverSize (rd : Reg) (v : Nat) (s : State) : Result State :=
  andThen (refuseIf (Config.addressSpace ≤ v) .sizeOverflow) fun _ => .next (s.deliver rd (toWord v))

/-- A writer set up on the buffer at `base` (R172, R193). -/
def writerBegin (base : Word) : WriterContext :=
  { active := true, base := base, ptr := base, acc := 0, cnt := 0, past := false }

/-- The accumulator with v put above the CNT buffered bits: the 125-bit temporary A of R173 and R194. -/
def WriterContext.accWith (c : WriterContext) (v : Word) : BitVec 125 :=
  c.acc.setWidth 125 ||| (v.setWidth 125 <<< c.cnt.toNat)

/-- The byte address at which a writer writes next, over the integers (R58): PTR, or 2^64 once the stream has reached
it (log entry 8). -/
def WriterContext.address (c : WriterContext) : Nat := c.ptr.toNat + if c.past then Config.addressSpace else 0

/-- Append v with the given width (60 or 61); 64 or more buffered bits write a word (R173, R194). -/
def writerAppend (m : Memory) (c : WriterContext) (v : Word) (width : Nat) : Result (Memory × WriterContext) :=
  if 64 ≤ c.cnt.toNat + width then
    andThen (m.store c.address 8 ((c.accWith v).setWidth 64).toNat) fun m' =>
      .next (m', { c with
        ptr := c.ptr + 8
        past := decide (Config.addressSpace ≤ c.address + 8)
        acc := (c.accWith v >>> 64).setWidth 64
        cnt := BitVec.ofNat 6 (c.cnt.toNat + width - 64) })
  else
    .next (m, { c with acc := (c.accWith v).setWidth 64, cnt := BitVec.ofNat 6 (c.cnt.toNat + width) })

/-- The checks of R173 and R194: the context is active, the value fits 61 bits. -/
def writerCheck (c : WriterContext) (v : Word) : Result Unit :=
  andThen (refuseIf (!c.active) .contextIdle) fun _ => refuseIf (2 ^ Config.wordWidth ≤ v.toNat) .wordTooWide

/-- Bytes the flush writes: ceil(CNT/8), 0 to 8 (R174, R195). -/
def WriterContext.trailing (c : WriterContext) : Nat := ceilDiv c.cnt.toNat 8

/-- What the flush delivers as the `index`-th command: the length of the stream, (PTR − BASE) + the trailing bytes (R174,
R195). A stream that fills the address space has 2^64 bytes, for which no result is stated: a free value (log entry 8). -/
def WriterContext.total (c : WriterContext) (index : Nat) : Word :=
  if c.base = 0 ∧ c.address + c.trailing = Config.addressSpace then Config.fullStreamTotal index
  else c.ptr - c.base + toWord c.trailing

/-- Write the trailing bytes (R174, R195); nothing when no bit is buffered. -/
def writerFlush (m : Memory) (c : WriterContext) : Result Memory :=
  if c.trailing = 0 then .next m else m.store c.address c.trailing c.acc.toNat

/-- A reader set up on a buffer (R176, R197). -/
def readerBegin (base len : Word) : ReaderContext :=
  { active := true, base := base, len := len, pos := 0, past := false }

/-- The bit position of a reader as an integer: POS, or 2^67 above it once the position has reached 2^67 (log entry 9). -/
def ReaderContext.position (c : ReaderContext) : Nat := c.pos.toNat + if c.past then Config.streamPositions else 0

/-- A reader moved on by `width` bits (R177, R198). -/
def ReaderContext.advance (c : ReaderContext) (width : Nat) : ReaderContext :=
  { c with
    pos := c.pos + BitVec.ofNat 67 width
    past := decide (Config.streamPositions ≤ c.position + width) }

/-- StreamBits(B, L, pos, n) (R52) as the bits of the window of bytes that holds them: the bytes at offsets
floor(pos/8) up to, not including, min(L, ceil((pos + n)/8)) (R177, R198), none outside the buffer; bits past the end
of the buffer are 0. -/
def streamBits (m : Memory) (b l pos n : Nat) : Result Nat :=
  let first := pos / 8
  let stop := min l (ceilDiv (pos + n) 8)
  andThen (m.load (b + first) (stop - first)) fun v => .next (v / 2 ^ (pos % 8) % 2 ^ n)

/-- The next 61-bit chunk of a reader (R177, R198). -/
def readerChunk (m : Memory) (c : ReaderContext) : Result Nat :=
  streamBits m c.base.toNat c.len.toNat c.position Config.wordWidth

end Sys2Proof.Machine
end

