-- ==== Sys2Proof/Machine/ByteCodec.lean ====
section
/-! DEFINITION. The ByteWriter and ByteReader commands (spec/44_codec61_byte.md R191 to R198). -/

namespace Sys2Proof.Machine

/-- The width with which BWWRITE appends v (R191, R194): 60 for the escape code, else 61. -/
def escapedWidth (v : Word) : Nat := if v = Config.m60 then Config.escapeWidth else Config.wordWidth

/-- Whether a 61-bit chunk is an escape (R191): its low 60 bits are all ones. -/
def chunkEscaped (c : Nat) : Bool := c % 2 ^ Config.escapeWidth == Config.m60.toNat

/-- The word delivered for a chunk (R198). -/
def chunkWord (c : Nat) : Word := if chunkEscaped c then Config.m60 else toWord c

/-- The bits consumed for a chunk (R198). -/
def chunkWidth (c : Nat) : Nat := if chunkEscaped c then Config.escapeWidth else Config.wordWidth

/-- Whether a reader has no data bit left (R198). -/
def ReaderContext.exhausted (c : ReaderContext) : Bool := decide (8 * c.len.toNat ≤ c.position)

/-- BWMAX rd, ra (R192). -/
def execBwmax (rd ra : Reg) (s : State) : Result State := deliverSize rd (streamBytes (s.count ra)) s

/-- BWBEGIN ra (R193). -/
def execBwbegin (ra : Reg) (s : State) : Result State :=
  .next { s with bw := writerBegin (s.reg ra) }.complete

/-- BWWRITE ra (R194). -/
def execBwwrite (ra : Reg) (s : State) : Result State :=
  andThen (writerCheck s.bw (s.reg ra)) fun _ =>
    andThen (writerAppend s.mem s.bw (s.reg ra) (escapedWidth (s.reg ra))) fun r =>
      .next { s with mem := r.1, bw := r.2 }.complete

/-- BWFLUSH rd (R195): the context becomes idle. -/
def execBwflush (rd : Reg) (s : State) : Result State :=
  andThen (refuseIf (!s.bw.active) .contextIdle) fun _ =>
    andThen (writerFlush s.mem s.bw) fun m =>
      .next ({ s with mem := m, bw := { s.bw with active := false } }.deliver rd (s.bw.total s.index))

/-- BRMAX rd, ra (R196): ceil(8·L/60). -/
def execBrmax (rd ra : Reg) (s : State) : Result State :=
  .next (s.deliver rd (toWord (ceilDiv (8 * s.count ra) Config.escapeWidth)))

/-- BRBEGIN ra, rb (R197): clears ST.EMPTY. -/
def execBrbegin (ra rb : Reg) (s : State) : Result State :=
  .next ({ s with br := readerBegin (s.reg ra) (s.reg rb) }.setEmpty false).complete

/-- BRREAD rd (R198): Empty delivers 0 and sets ST.EMPTY; Success clears it. -/
def execBrread (rd : Reg) (s : State) : Result State :=
  andThen (refuseIf (!s.br.active) .contextIdle) fun _ =>
    if s.br.exhausted then .next ((s.setEmpty true).deliver rd 0)
    else
      andThen (readerChunk s.mem s.br) fun c =>
        .next (({ s with br := s.br.advance (chunkWidth c) }.setEmpty false).deliver rd (chunkWord c))

end Sys2Proof.Machine
end

