-- ==== Sys2Proof/Machine/Packer.lean ====
section
/-! DEFINITION. The packer of the 64-bit-with-overflow scheme (spec/42_codec64_appdatareader.md R150 to R160): shared by
the ADR commands and by the region engine's private instance (spec/45_region_engine.md R211). -/

namespace Sys2Proof.Machine

/-- The ambiguity predicate (R152): bits 32..62 are all ones. -/
def ambiguous (w : Word) : Bool := w &&& Config.amb63 == Config.amb63

/-- The word the packer emits for w (R156): bit 63 is cleared in an ambiguous word. -/
def packedWord (w : Word) : Word := if ambiguous w then w &&& 0x7FFFFFFFFFFFFFFF#64 else w

/-- Bytes of the auxiliary region for n input bytes (R153): 8·ceil(floor(n/8)/63). -/
def workspaceBytes (n : Nat) : Nat := 8 * ceilDiv (n / 8) Config.overflowBits

/-- The rounded length 8·ceil(n/8) (R214). -/
def roundedLength (n : Nat) : Nat := 8 * ceilDiv n 8

/-- Largest packed output for n input bytes (R154), as an integer. -/
def maxOutputBytes (n : Nat) : Nat := roundedLength n + workspaceBytes n

/-- A packer set up on the auxiliary region at `base` (R155). -/
def packerSetup (base : Word) : AdrContext :=
  { active := true, auxBase := base, auxWords := 0, acc := 0, cnt := 0 }

/-- Byte address of the next auxiliary word (R159): AUXBASE + 8·AUXWORDS, over the integers (R58). -/
def AdrContext.auxAddress (c : AdrContext) : Nat := c.auxBase.toNat + 8 * c.auxWords.toNat

/-- Write ACC as the next auxiliary word and start an empty one (R158, R159). -/
def packerFlushWord (m : Memory) (c : AdrContext) : Result (Memory × AdrContext) :=
  andThen (m.store c.auxAddress 8 c.acc.toNat) fun m' =>
    .next (m', { c with auxWords := c.auxWords + 1, acc := 0, cnt := 0 })

/-- ACC with `bit` at bit CNT (R159). -/
def AdrContext.accWith (c : AdrContext) (bit : Bool) : Word :=
  c.acc ||| (BitVec.setWidth 64 (BitVec.ofBool bit) <<< c.cnt.toNat)

/-- AdrAppend(ctx, bit) (R159): the 63rd bit writes an auxiliary word. -/
def packerAppend (m : Memory) (c : AdrContext) (bit : Bool) : Result (Memory × AdrContext) :=
  if Config.overflowBits ≤ c.cnt.toNat + 1 then
    packerFlushWord m { c with acc := c.accWith bit }
  else
    .next (m, { c with acc := c.accWith bit, cnt := BitVec.ofNat 6 (c.cnt.toNat + 1) })

/-- Read the 8 bytes at `a`, append the overflow bit of an ambiguous word, and emit the packed word (R156). -/
def packerRead (m : Memory) (c : AdrContext) (a : Nat) : Result (Memory × AdrContext × Word) :=
  andThen (m.load a 8) fun v =>
    let w : Word := BitVec.ofNat 64 v
    if ambiguous w then
      andThen (packerAppend m c w.msb) fun r => .next (r.1, r.2, packedWord w)
    else .next (m, c, w)

/-- Write the residual overflow bits, if there are any (R158). -/
def packerFlush (m : Memory) (c : AdrContext) : Result (Memory × AdrContext) :=
  if c.cnt = 0 then .next (m, c) else packerFlushWord m c

/-- The tail of 0 to 7 bytes, zero-padded (R157); nothing is read when n = 0. -/
def packerTail (m : Memory) (a n : Nat) : Result Word :=
  if n = 0 then .next 0 else andThen (m.load a n) fun v => .next (BitVec.ofNat 64 v)

end Sys2Proof.Machine
end

