-- ==== Sys2Proof/Machine/Codec64.lean ====
section
/-! DEFINITION. The AppDataReader commands (spec/42_codec64_appdatareader.md R153 to R158). -/

namespace Sys2Proof.Machine

/-- ADWSB rd, ra (R153). -/
def execAdwsb (rd ra : Reg) (s : State) : Result State :=
  .next (s.deliver rd (toWord (workspaceBytes (s.count ra))))

/-- ADMOB rd, ra (R154). -/
def execAdmob (rd ra : Reg) (s : State) : Result State :=
  andThen (refuseIf (Config.addressSpace ≤ maxOutputBytes (s.count ra)) .sizeOverflow) fun _ =>
    .next (s.deliver rd (toWord (maxOutputBytes (s.count ra))))

/-- ADSETUP ra (R155), from any state of the context. -/
def execAdsetup (ra : Reg) (s : State) : Result State :=
  .next { s with adr := packerSetup (s.reg ra) }.complete

/-- ADRD8 rd, ra (R156). -/
def execAdrd8 (rd ra : Reg) (s : State) : Result State :=
  andThen (refuseIf (!s.adr.active) .contextIdle) fun _ =>
    andThen (packerRead s.mem s.adr (s.address ra)) fun r =>
      .next ({ s with mem := r.1, adr := r.2.1 }.deliver rd r.2.2)

/-- ADRDF rd, ra, rb (R157). -/
def execAdrdf (rd ra rb : Reg) (s : State) : Result State :=
  andThen (refuseIf (!s.adr.active) .contextIdle) fun _ =>
    andThen (refuseIf (7 < s.count rb) .tailTooLong) fun _ =>
      andThen (packerTail s.mem (s.address ra) (s.count rb)) fun w => .next (s.deliver rd w)

/-- ADFLUSH rd (R158): the context becomes idle. -/
def execAdflush (rd : Reg) (s : State) : Result State :=
  andThen (refuseIf (!s.adr.active) .contextIdle) fun _ =>
    andThen (packerFlush s.mem s.adr) fun r =>
      .next ({ s with mem := r.1, adr := { r.2 with active := false } }.deliver rd r.2.auxWords)

end Sys2Proof.Machine
end

