-- ==== Sys2Proof/Machine/Arithmetic.lean ====
section
/-! DEFINITION. The pure functions of the field commands on U64 (spec/40_field_arithmetic.md R102 to R108), over the
carry and borrow primitives of spec/00_scope.md R10. -/

namespace Sys2Proof.Machine

/-- addc64 (R10): the sum modulo 2^64 and the carry. -/
def addc64 (a b : Word) : Word × Bool := (a + b, decide (2 ^ 64 ≤ a.toNat + b.toNat))

/-- subb64 (R10): the difference modulo 2^64 and the borrow. -/
def subb64 (a b : Word) : Word × Bool := (a - b, decide (a.toNat < b.toNat))

/-- mul128 (R10, R113): the exact product as two 64-bit halves (hi, lo). -/
def mul128 (a b : Word) : Word × Word :=
  (BitVec.ofNat 64 (a.toNat * b.toNat / 2 ^ 64), BitVec.ofNat 64 (a.toNat * b.toNat))

/-- canon(v) = v mod p: one conditional correction (spec/00_scope.md R12, R101 d). -/
def canon (v : Word) : Word := if v.toNat < Config.p then v else v - Config.pWord

/-- FADD (R102): add, and fold each carry back as + c. -/
def fieldAdd (x y : Word) : Word :=
  let s := addc64 x y
  if s.2 then
    let s' := addc64 s.1 Config.c
    if s'.2 then s'.1 + Config.c else s'.1
  else s.1

/-- FSUB (R103): subtract, and fold each borrow back as − c. -/
def fieldSub (x y : Word) : Word :=
  let d := subb64 x y
  if d.2 then
    let d' := subb64 d.1 Config.c
    if d'.2 then d'.1 - Config.c else d'.1
  else d.1

/-- FNEG (R104): 0 if x ≡ 0, else p − canon(x). -/
def fieldNeg (x : Word) : Word := if canon x = 0 then 0 else Config.pWord - canon x

/-- FMUL (R105): the 128-bit product, reduced by 2^64 ≡ 2^32 − 1 and 2^96 ≡ −1. -/
def fieldMul (x y : Word) : Word :=
  let hi := (mul128 x y).1
  let lo := (mul128 x y).2
  let a2 : Word := (hi.setWidth 32).setWidth 64
  let a3 : Word := hi >>> 32
  let t := a2 * Config.c
  let s := addc64 lo t
  let s1 := if s.2 then s.1 + Config.c else s.1
  let d := subb64 s1 a3
  if d.2 then d.1 - Config.c else d.1

/-- b^e mod m by square-and-multiply, `bits` bits of e (R112 b). -/
def powMod (m : Nat) : Nat → Nat → Nat → Nat
  | 0, _, _ => 1 % m
  | bits + 1, b, e =>
    let rest := powMod m bits (b * b % m) (e / 2)
    if e % 2 = 1 then b * rest % m else rest

/-- FINV (R108): 0 if x ≡ 0, else the inverse of canon(x), found as r^(p − 2) mod p (R112 b). R108 fixes the value
whatever procedure finds it (log entry 12). -/
def fieldInv (x : Word) : Word :=
  if canon x = 0 then 0 else BitVec.ofNat 64 (powMod Config.p 64 (canon x).toNat (Config.p - 2))

end Sys2Proof.Machine
end

