-- ==== Sys2Proof/Machine/Field.lean ====
section
/-! DEFINITION. The field arithmetic commands (spec/40_field_arithmetic.md R100 to R108): pure functions of registers.
None touches memory, a context or ST; none can stop (R100). -/

namespace Sys2Proof.Machine

/-- FADD rd, ra, rb (R102). -/
def execFadd (rd ra rb : Reg) (s : State) : Result State :=
  .next (s.deliver rd (fieldAdd (s.reg ra) (s.reg rb)))

/-- FSUB rd, ra, rb (R103): x[ra] − x[rb]. -/
def execFsub (rd ra rb : Reg) (s : State) : Result State :=
  .next (s.deliver rd (fieldSub (s.reg ra) (s.reg rb)))

/-- FNEG rd, ra (R104). -/
def execFneg (rd ra : Reg) (s : State) : Result State :=
  .next (s.deliver rd (fieldNeg (s.reg ra)))

/-- FMUL rd, ra, rb (R105). -/
def execFmul (rd ra rb : Reg) (s : State) : Result State :=
  .next (s.deliver rd (fieldMul (s.reg ra) (s.reg rb)))

/-- FPRED rd, ra (R106): the canonical representative, as the spec decides (D20, log entry 13). -/
def execFpred (rd ra : Reg) (s : State) : Result State :=
  .next (s.deliver rd (canon (s.reg ra)))

/-- FFIN rd, ra (R107). -/
def execFfin (rd ra : Reg) (s : State) : Result State :=
  .next (s.deliver rd (canon (s.reg ra)))

/-- FINV rd, ra (R108). -/
def execFinv (rd ra : Reg) (s : State) : Result State :=
  .next (s.deliver rd (fieldInv (s.reg ra)))

end Sys2Proof.Machine
end

