-- ==== Sys2Proof/Machine/RegIO.lean ====
section
/-! DEFINITION. The register and byte I/O commands (spec/41_register_and_byte_io.md R130 to R138). -/

namespace Sys2Proof.Machine

/-- SETI rd, imm64 (R131). -/
def execSeti (rd : Reg) (imm : Word) (s : State) : Result State := .next (s.deliver rd imm)

/-- RDST rd (R132). -/
def execRdst (rd : Reg) (s : State) : Result State := .next (s.deliver rd s.st.word)

/-- A load of n bytes into rd, zero-extended (R130). -/
def loadInto (rd : Reg) (a n : Nat) (s : State) : Result State :=
  andThen (s.mem.load a n) fun v => .next (s.deliver rd (toWord v))

/-- A store of n bytes (R130). -/
def storeFrom (a n : Nat) (v : Word) (s : State) : Result State :=
  andThen (s.mem.store a n v.toNat) fun m => .next { s with mem := m }.complete

/-- LDU32 rd, ra (R133). -/
def execLdu32 (rd ra : Reg) (s : State) : Result State := loadInto rd (s.address ra) 4 s

/-- LDU64 rd, ra (R134). -/
def execLdu64 (rd ra : Reg) (s : State) : Result State := loadInto rd (s.address ra) 8 s

/-- Whether LDB and STB access memory for this count: 1 ≤ n ≤ 8 (R135, R138). -/
def countSupported (n : Nat) : Bool := decide (1 ≤ n) && decide (n ≤ 8)

/-- LDB rd, ra, rb (R135): 0 with no access when the count is 0 or above 8. -/
def execLdb (rd ra rb : Reg) (s : State) : Result State :=
  if countSupported (s.count rb) then loadInto rd (s.address ra) (s.count rb) s
  else .next (s.deliver rd 0)

/-- STU32 ra, rb (R136). -/
def execStu32 (ra rb : Reg) (s : State) : Result State := storeFrom (s.address ra) 4 (s.reg rb) s

/-- STU64 ra, rb (R137). -/
def execStu64 (ra rb : Reg) (s : State) : Result State := storeFrom (s.address ra) 8 (s.reg rb) s

/-- STB ra, rb, rc (R138): no operation when the count is 0 or above 8. -/
def execStb (ra rb rc : Reg) (s : State) : Result State :=
  if countSupported (s.count rb) then storeFrom (s.address ra) (s.count rb) (s.reg rc) s
  else .next s.complete

end Sys2Proof.Machine
end

