-- ==== Sys2Proof/Machine/Region.lean ====
section
/-! DEFINITION. The region engine (spec/45_region_engine.md R210 to R217). -/

namespace Sys2Proof.Machine

/-- The operands of a region command (R210): D, n, k, W, O. -/
structure RegionOperands where
  /-- Byte address of the data. -/
  data : Nat
  /-- Length of the data in bytes. -/
  size : Nat
  /-- The coefficient. -/
  coeff : Word
  /-- Byte address of the workspace. -/
  work : Word
  /-- Byte address of the output. -/
  out : Nat
deriving DecidableEq, Repr

/-- The operands read from the registers (R210). -/
def regionOperands (s : State) (ra rb rc re rf : Reg) : RegionOperands :=
  { data := s.address ra, size := s.count rb, coeff := s.reg rc, work := s.reg re, out := s.address rf }

/-- Two footprints [a, a + m) and [b, b + n) share no address (R212); an empty one overlaps nothing. -/
def disjointFootprints (a m b n : Nat) : Bool :=
  m == 0 || n == 0 || decide (a + m ≤ b) || decide (b + n ≤ a)

/-- FD, FW and FO are pairwise disjoint (R212, R213). -/
def RegionOperands.disjoint (o : RegionOperands) : Bool :=
  disjointFootprints o.data o.size o.work.toNat (workspaceBytes o.size)
    && disjointFootprints o.data o.size o.out (maxOutputBytes o.size)
    && disjointFootprints o.work.toNat (workspaceBytes o.size) o.out (maxOutputBytes o.size)

/-- The preconditions, made first on every path (R212). -/
def regionCheck (o : RegionOperands) : Result Unit :=
  andThen (refuseIf (Config.p ≤ o.coeff.toNat) .coeffOutOfRange) fun _ =>
    andThen (refuseIf (Config.addressSpace ≤ maxOutputBytes o.size) .sizeOverflow) fun _ =>
      refuseIf (!o.disjoint) .regionOverlap

/-- Store `count` zero bytes from `a` on, one at a time (R214). -/
def zeroBytes (m : Memory) (a : Nat) : Nat → Result Memory
  | 0 => .next m
  | count + 1 => andThen (m.store a 1 0) fun m' => zeroBytes m' (a + 1) count

/-- Copy `count` bytes from `src` to `dst`, one at a time (R214). -/
def copyBytes (m : Memory) (src dst : Nat) : Nat → Result Memory
  | 0 => .next m
  | count + 1 =>
    andThen (m.load src 1) fun v =>
      andThen (m.store dst 1 v) fun m' => copyBytes m' (src + 1) (dst + 1) count

/-- put(i, w) (R216): store, or accumulate, the product of the coefficient and w as output word i. -/
def putProduct (accumulate : Bool) (k : Word) (out : Nat) (m : Memory) (i : Nat) (w : Word) : Result Memory :=
  if accumulate then
    andThen (m.load (out + 8 * i) 8) fun old =>
      m.store (out + 8 * i) 8 (fieldAdd (fieldMul k w) (BitVec.ofNat 64 old)).toNat
  else m.store (out + 8 * i) 8 (fieldMul k w).toNat

/-- The full 8-byte words i, i + 1, … in ascending order (R216). -/
def regionWords (accumulate : Bool) (o : RegionOperands) :
    Nat → Nat → Memory → AdrContext → Result (Memory × AdrContext)
  | 0, _, m, t => .next (m, t)
  | count + 1, i, m, t =>
    andThen (packerRead m t (o.data + 8 * i)) fun r =>
      andThen (putProduct accumulate o.coeff o.out r.1 i r.2.2) fun m' =>
        regionWords accumulate o count (i + 1) m' r.2.1

/-- The tail of n mod 8 bytes as output word floor(n/8), when there is one (R216). -/
def regionTail (accumulate : Bool) (o : RegionOperands) (m : Memory) : Result Memory :=
  if o.size % 8 = 0 then .next m
  else
    andThen (packerTail m (o.data + 8 * (o.size / 8)) (o.size % 8)) fun w =>
      putProduct accumulate o.coeff o.out m (o.size / 8) w

/-- The auxiliary words j, j + 1, … multiplied and appended after the primary words (R216). -/
def regionAux (accumulate : Bool) (o : RegionOperands) : Nat → Nat → Memory → Result Memory
  | 0, _, m => .next m
  | count + 1, j, m =>
    andThen (m.load (o.work.toNat + 8 * j) 8) fun v =>
      andThen (putProduct accumulate o.coeff o.out m (ceilDiv o.size 8 + j) (BitVec.ofNat 64 v)) fun m' =>
        regionAux accumulate o count (j + 1) m'

/-- RegionGeneral(mode) (R216): the memory after it and the number of output bytes (R217). The packer is the private
instance of R211. -/
def regionGeneral (accumulate : Bool) (o : RegionOperands) (m : Memory) : Result (Memory × Nat) :=
  andThen (regionWords accumulate o (o.size / 8) 0 m (packerSetup o.work)) fun r =>
    andThen (regionTail accumulate o r.1) fun m1 =>
      andThen (packerFlush m1 r.2) fun f =>
        andThen (regionAux accumulate o f.2.auxWords.toNat 0 f.1) fun m2 =>
          .next (m2, roundedLength o.size + 8 * f.2.auxWords.toNat)

/-- The memory and the return value of MULRGN (R214). -/
def multiplyRegion (o : RegionOperands) (m : Memory) : Result (Memory × Nat) :=
  andThen (regionCheck o) fun _ =>
    if o.coeff = 0 then
      andThen (zeroBytes m o.out (roundedLength o.size)) fun m' => .next (m', roundedLength o.size)
    else if o.coeff = 1 then
      andThen (copyBytes m o.data o.out o.size) fun m1 =>
        andThen (zeroBytes m1 (o.out + o.size) (roundedLength o.size - o.size)) fun m2 =>
          .next (m2, roundedLength o.size)
    else regionGeneral false o m

/-- The memory and the return value of MADRGN (R215): no shortcut for a coefficient of 1. -/
def multiplyAddRegion (o : RegionOperands) (m : Memory) : Result (Memory × Nat) :=
  andThen (regionCheck o) fun _ =>
    if o.coeff = 0 then .next (m, roundedLength o.size) else regionGeneral true o m

/-- MULRGN rd, ra, rb, rc, re, rf (R214). -/
def execMulrgn (rd ra rb rc re rf : Reg) (s : State) : Result State :=
  andThen (multiplyRegion (regionOperands s ra rb rc re rf) s.mem) fun r =>
    .next ({ s with mem := r.1 }.deliver rd (toWord r.2))

/-- MADRGN rd, ra, rb, rc, re, rf (R215). -/
def execMadrgn (rd ra rb rc re rf : Reg) (s : State) : Result State :=
  andThen (multiplyAddRegion (regionOperands s ra rb rc re rf) s.mem) fun r =>
    .next ({ s with mem := r.1 }.deliver rd (toWord r.2))

end Sys2Proof.Machine
end

