-- ==== Sys2Proof/Machine/WordCodec.lean ====
section
/-! DEFINITION. The WordWriter and WordReader commands (spec/43_codec61_word.md R171 to R177). -/

namespace Sys2Proof.Machine

/-- WWNEED rd, ra (R171). -/
def execWwneed (rd ra : Reg) (s : State) : Result State := deliverSize rd (streamBytes (s.count ra)) s

/-- WWBEGIN ra (R172). -/
def execWwbegin (ra : Reg) (s : State) : Result State :=
  .next { s with ww := writerBegin (s.reg ra) }.complete

/-- WWWRITE ra (R173). -/
def execWwwrite (ra : Reg) (s : State) : Result State :=
  andThen (writerCheck s.ww (s.reg ra)) fun _ =>
    andThen (writerAppend s.mem s.ww (s.reg ra) Config.wordWidth) fun r =>
      .next { s with mem := r.1, ww := r.2 }.complete

/-- WWFLUSH rd (R174): the context becomes idle. -/
def execWwflush (rd : Reg) (s : State) : Result State :=
  andThen (refuseIf (!s.ww.active) .contextIdle) fun _ =>
    andThen (writerFlush s.mem s.ww) fun m =>
      .next ({ s with mem := m, ww := { s.ww with active := false } }.deliver rd (s.ww.total s.index))

/-- WRCOUNT rd, ra (R175): floor(8·L/61). -/
def execWrcount (rd ra : Reg) (s : State) : Result State :=
  .next (s.deliver rd (toWord (8 * s.count ra / Config.wordWidth)))

/-- WRBEGIN ra, rb (R176). -/
def execWrbegin (ra rb : Reg) (s : State) : Result State :=
  .next { s with wr := readerBegin (s.reg ra) (s.reg rb) }.complete

/-- WRREAD rd (R177). -/
def execWrread (rd : Reg) (s : State) : Result State :=
  andThen (refuseIf (!s.wr.active) .contextIdle) fun _ =>
    andThen (refuseIf (8 * s.wr.len.toNat < s.wr.position + Config.wordWidth) .readPastEnd) fun _ =>
      andThen (readerChunk s.mem s.wr) fun v =>
        .next ({ s with wr := s.wr.advance Config.wordWidth }.deliver rd (toWord v))

end Sys2Proof.Machine
end

