-- ==== Sys2Proof/Syntax.lean ====
section
/-! DEFINITION. The S64 command set, version 1: one constructor for each row of spec/opcode_table.json
(spec/30_encoding.md R73), operands in the order of the row's "operands" column. -/

namespace Sys2Proof

/-- The 37 commands. A register operand is the 4-bit field of that name (R71). -/
inductive Instr where
  /-- FADD: modular add (R102). -/
  | fadd (rd ra rb : Reg)
  /-- FSUB: modular subtract (R103). -/
  | fsub (rd ra rb : Reg)
  /-- FNEG: modular negate (R104). -/
  | fneg (rd ra : Reg)
  /-- FMUL: modular multiply (R105). -/
  | fmul (rd ra rb : Reg)
  /-- FPRED: partial reduce (R106). -/
  | fpred (rd ra : Reg)
  /-- FFIN: finalize (R107). -/
  | ffin (rd ra : Reg)
  /-- FINV: modular inverse (R108). -/
  | finv (rd ra : Reg)
  /-- SETI: set a register to a constant (R131); the one format I command. -/
  | seti (rd : Reg) (imm : Word)
  /-- RDST: read the status register (R132). -/
  | rdst (rd : Reg)
  /-- LDU32: load 32 bits (R133). -/
  | ldu32 (rd ra : Reg)
  /-- LDU64: load 64 bits (R134). -/
  | ldu64 (rd ra : Reg)
  /-- LDB: load 0 to 8 bytes (R135). -/
  | ldb (rd ra rb : Reg)
  /-- STU32: store 32 bits (R136). -/
  | stu32 (ra rb : Reg)
  /-- STU64: store 64 bits (R137). -/
  | stu64 (ra rb : Reg)
  /-- STB: store 0 to 8 bytes (R138). -/
  | stb (ra rb rc : Reg)
  /-- ADWSB: bytes needed for the auxiliary region (R153). -/
  | adwsb (rd ra : Reg)
  /-- ADMOB: largest possible packed output (R154). -/
  | admob (rd ra : Reg)
  /-- ADSETUP: start packing (R155). -/
  | adsetup (ra : Reg)
  /-- ADRD8: pack one 8-byte word (R156). -/
  | adrd8 (rd ra : Reg)
  /-- ADRDF: read the final 0 to 7 bytes (R157). -/
  | adrdf (rd ra rb : Reg)
  /-- ADFLUSH: finish packing (R158). -/
  | adflush (rd : Reg)
  /-- WWNEED: bytes needed for a number of words (R171). -/
  | wwneed (rd ra : Reg)
  /-- WWBEGIN: start writing a stream (R172). -/
  | wwbegin (ra : Reg)
  /-- WWWRITE: append one 61-bit word (R173). -/
  | wwwrite (ra : Reg)
  /-- WWFLUSH: finish the stream (R174). -/
  | wwflush (rd : Reg)
  /-- WRCOUNT: number of words in a byte count (R175). -/
  | wrcount (rd ra : Reg)
  /-- WRBEGIN: start reading a stream (R176). -/
  | wrbegin (ra rb : Reg)
  /-- WRREAD: read the next 61-bit word (R177). -/
  | wrread (rd : Reg)
  /-- BWMAX: upper bound of the bytes a number of words can need (R192). -/
  | bwmax (rd ra : Reg)
  /-- BWBEGIN: start writing (R193). -/
  | bwbegin (ra : Reg)
  /-- BWWRITE: append one word (R194). -/
  | bwwrite (ra : Reg)
  /-- BWFLUSH: finish the stream (R195). -/
  | bwflush (rd : Reg)
  /-- BRMAX: upper bound of the words a number of bytes can yield (R196). -/
  | brmax (rd ra : Reg)
  /-- BRBEGIN: start reading (R197). -/
  | brbegin (ra rb : Reg)
  /-- BRREAD: read the next word (R198). -/
  | brread (rd : Reg)
  /-- MULRGN: output = coeff × data (R214). -/
  | mulrgn (rd ra rb rc re rf : Reg)
  /-- MADRGN: output = output + coeff × data (R215). -/
  | madrgn (rd ra rb rc re rf : Reg)
deriving DecidableEq, Repr

end Sys2Proof
end

