-- ==== Sys2Proof/Machine/Dispatch.lean ====
section
/-! DEFINITION. The meaning of every command: one arm per constructor of `Instr`. -/

namespace Sys2Proof.Machine

/-- What a decoded command does in a core that is not halted (spec/60_exceptions.md R233 steps 3 to 5). -/
def exec (i : Instr) (s : State) : Host.Outcome State Fault Refusal :=
  match i with
  | .fadd rd ra rb => Sys2Proof.Machine.execFadd rd ra rb s
  | .fsub rd ra rb => Sys2Proof.Machine.execFsub rd ra rb s
  | .fneg rd ra => Sys2Proof.Machine.execFneg rd ra s
  | .fmul rd ra rb => Sys2Proof.Machine.execFmul rd ra rb s
  | .fpred rd ra => Sys2Proof.Machine.execFpred rd ra s
  | .ffin rd ra => Sys2Proof.Machine.execFfin rd ra s
  | .finv rd ra => Sys2Proof.Machine.execFinv rd ra s
  | .seti rd imm => Sys2Proof.Machine.execSeti rd imm s
  | .rdst rd => Sys2Proof.Machine.execRdst rd s
  | .ldu32 rd ra => Sys2Proof.Machine.execLdu32 rd ra s
  | .ldu64 rd ra => Sys2Proof.Machine.execLdu64 rd ra s
  | .ldb rd ra rb => Sys2Proof.Machine.execLdb rd ra rb s
  | .stu32 ra rb => Sys2Proof.Machine.execStu32 ra rb s
  | .stu64 ra rb => Sys2Proof.Machine.execStu64 ra rb s
  | .stb ra rb rc => Sys2Proof.Machine.execStb ra rb rc s
  | .adwsb rd ra => Sys2Proof.Machine.execAdwsb rd ra s
  | .admob rd ra => Sys2Proof.Machine.execAdmob rd ra s
  | .adsetup ra => Sys2Proof.Machine.execAdsetup ra s
  | .adrd8 rd ra => Sys2Proof.Machine.execAdrd8 rd ra s
  | .adrdf rd ra rb => Sys2Proof.Machine.execAdrdf rd ra rb s
  | .adflush rd => Sys2Proof.Machine.execAdflush rd s
  | .wwneed rd ra => Sys2Proof.Machine.execWwneed rd ra s
  | .wwbegin ra => Sys2Proof.Machine.execWwbegin ra s
  | .wwwrite ra => Sys2Proof.Machine.execWwwrite ra s
  | .wwflush rd => Sys2Proof.Machine.execWwflush rd s
  | .wrcount rd ra => Sys2Proof.Machine.execWrcount rd ra s
  | .wrbegin ra rb => Sys2Proof.Machine.execWrbegin ra rb s
  | .wrread rd => Sys2Proof.Machine.execWrread rd s
  | .bwmax rd ra => Sys2Proof.Machine.execBwmax rd ra s
  | .bwbegin ra => Sys2Proof.Machine.execBwbegin ra s
  | .bwwrite ra => Sys2Proof.Machine.execBwwrite ra s
  | .bwflush rd => Sys2Proof.Machine.execBwflush rd s
  | .brmax rd ra => Sys2Proof.Machine.execBrmax rd ra s
  | .brbegin ra rb => Sys2Proof.Machine.execBrbegin ra rb s
  | .brread rd => Sys2Proof.Machine.execBrread rd s
  | .mulrgn rd ra rb rc re rf => Sys2Proof.Machine.execMulrgn rd ra rb rc re rf s
  | .madrgn rd ra rb rc re rf => Sys2Proof.Machine.execMadrgn rd ra rb rc re rf s

end Sys2Proof.Machine
end

