-- ==== Sys2Proof/WellFormed.lean ====
section
/-! DEFINITION. When the words a host presents as one command are well formed: the opcode map of spec/30_encoding.md
R73 as data, with the checks of R70 (length) and R74 (assigned opcode, unused register fields 0). An `Instr` holds
operands of exactly the widths of R71 and R72, so every `Instr` is well formed by its type; what can be ill formed
is a sequence of command words. -/

namespace Sys2Proof

/-- One row of the opcode map (R73): a first word w selects the row iff (w AND mask) = pattern. -/
structure Row where
  mnemonic : String
  pattern : CommandWord
  mask : CommandWord
  /-- Command words of the format: 1 for format R, 3 for format I (R70). -/
  words : Nat
deriving DecidableEq, Repr

/-- Field arithmetic (R102 to R108). -/
def fieldRows : List Row :=
  [⟨"FADD", 0x00000001#32, 0xFFF000FF#32, 1⟩,
   ⟨"FSUB", 0x00000002#32, 0xFFF000FF#32, 1⟩,
   ⟨"FNEG", 0x00000003#32, 0xFFFF00FF#32, 1⟩,
   ⟨"FMUL", 0x00000004#32, 0xFFF000FF#32, 1⟩,
   ⟨"FPRED", 0x00000005#32, 0xFFFF00FF#32, 1⟩,
   ⟨"FFIN", 0x00000006#32, 0xFFFF00FF#32, 1⟩,
   ⟨"FINV", 0x00000007#32, 0xFFFF00FF#32, 1⟩]

/-- Register and byte I/O (R131 to R138). -/
def ioRows : List Row :=
  [⟨"SETI", 0x00000010#32, 0xFFFFF0FF#32, 3⟩,
   ⟨"RDST", 0x00000011#32, 0xFFFFF0FF#32, 1⟩,
   ⟨"LDU32", 0x00000012#32, 0xFFFF00FF#32, 1⟩,
   ⟨"LDU64", 0x00000013#32, 0xFFFF00FF#32, 1⟩,
   ⟨"LDB", 0x00000014#32, 0xFFF000FF#32, 1⟩,
   ⟨"STU32", 0x00000015#32, 0xFFF00FFF#32, 1⟩,
   ⟨"STU64", 0x00000016#32, 0xFFF00FFF#32, 1⟩,
   ⟨"STB", 0x00000017#32, 0xFF000FFF#32, 1⟩]

/-- The 64-bit-word-with-overflow codec (R153 to R158). -/
def codec64Rows : List Row :=
  [⟨"ADWSB", 0x00000020#32, 0xFFFF00FF#32, 1⟩,
   ⟨"ADMOB", 0x00000021#32, 0xFFFF00FF#32, 1⟩,
   ⟨"ADSETUP", 0x00000022#32, 0xFFFF0FFF#32, 1⟩,
   ⟨"ADRD8", 0x00000023#32, 0xFFFF00FF#32, 1⟩,
   ⟨"ADRDF", 0x00000024#32, 0xFFF000FF#32, 1⟩,
   ⟨"ADFLUSH", 0x00000025#32, 0xFFFFF0FF#32, 1⟩]

/-- The 61-bit codecs (R171 to R177, R192 to R198). -/
def codec61Rows : List Row :=
  [⟨"WWNEED", 0x00000030#32, 0xFFFF00FF#32, 1⟩,
   ⟨"WWBEGIN", 0x00000031#32, 0xFFFF0FFF#32, 1⟩,
   ⟨"WWWRITE", 0x00000032#32, 0xFFFF0FFF#32, 1⟩,
   ⟨"WWFLUSH", 0x00000033#32, 0xFFFFF0FF#32, 1⟩,
   ⟨"WRCOUNT", 0x00000034#32, 0xFFFF00FF#32, 1⟩,
   ⟨"WRBEGIN", 0x00000035#32, 0xFFF00FFF#32, 1⟩,
   ⟨"WRREAD", 0x00000036#32, 0xFFFFF0FF#32, 1⟩,
   ⟨"BWMAX", 0x00000038#32, 0xFFFF00FF#32, 1⟩,
   ⟨"BWBEGIN", 0x00000039#32, 0xFFFF0FFF#32, 1⟩,
   ⟨"BWWRITE", 0x0000003A#32, 0xFFFF0FFF#32, 1⟩,
   ⟨"BWFLUSH", 0x0000003B#32, 0xFFFFF0FF#32, 1⟩,
   ⟨"BRMAX", 0x0000003C#32, 0xFFFF00FF#32, 1⟩,
   ⟨"BRBEGIN", 0x0000003D#32, 0xFFF00FFF#32, 1⟩,
   ⟨"BRREAD", 0x0000003E#32, 0xFFFFF0FF#32, 1⟩]

/-- The region engine (R214, R215). -/
def regionRows : List Row :=
  [⟨"MULRGN", 0x00000040#32, 0x000000FF#32, 1⟩,
   ⟨"MADRGN", 0x00000041#32, 0x000000FF#32, 1⟩]

/-- The complete opcode map (R73). -/
def opcodeMap : List Row := fieldRows ++ ioRows ++ codec64Rows ++ codec61Rows ++ regionRows

/-- The test of R73 and R75: (w AND mask) = pattern. -/
def Row.selects (r : Row) (w : CommandWord) : Bool := w &&& r.mask == r.pattern

/-- Check 1: the first word's opcode is assigned (R74). -/
def WellFormed.opcodeAssigned (w : CommandWord) : Bool :=
  opcodeMap.any fun r => w &&& 0xFF#32 == r.pattern

/-- Check 2: the first word matches its row, so every register field the command does not use is 0 (R71, R74). -/
def WellFormed.unusedFieldsZero (w : CommandWord) : Bool := opcodeMap.any fun r => r.selects w

/-- Check 3: as many words as the format of the selected row has (R70). -/
def WellFormed.lengthRight (ws : List CommandWord) : Bool :=
  match ws with
  | [] => false
  | w :: _ => opcodeMap.all fun r => !r.selects w || ws.length == r.words

/-- The words are one well-formed command: exactly what R70 and R73 admit. -/
def WellFormed (ws : List CommandWord) : Bool :=
  match ws with
  | [] => false
  | w :: _ => WellFormed.opcodeAssigned w && WellFormed.unusedFieldsZero w && WellFormed.lengthRight ws

end Sys2Proof
end

