-- ==== Sys2Proof/Decode.lean ====
section
/-! DEFINITION. The decoder and the encoder of spec/30_encoding.md: command words (R70 to R75), their bytes (R78) and
assembler lines (R76). -/

namespace Sys2Proof

/-- Why a sequence of words is no command. The decoder rejects by one of these names. -/
inductive Reject where
  /-- No word at all. -/
  | noWord
  /-- The opcode of the first word is in no row of R73 (R74). -/
  | unassignedOpcode
  /-- A register field the command does not use is not 0 (R71, R74). -/
  | unusedFieldNotZero
  /-- Not as many words as the opcode's format has (R70). -/
  | wrongWordCount
deriving DecidableEq, Repr

/-! ### Fields -/

/-- Bits 7:0 of the first word (R71), as the bit slice of R9. -/
def opcodeOf (w : CommandWord) : Nat := w.toNat % 2 ^ 8

/-- The 4-bit register field whose lowest bit is `lo` (R9, R71). -/
def regField (w : CommandWord) (lo : Nat) : Reg := Fin.ofNat 16 (w.toNat / 2 ^ lo)

/-- Field rd, bits 11:8 (R71). -/
def fieldRd (w : CommandWord) : Reg := regField w 8
/-- Field ra, bits 15:12 (R71). -/
def fieldRa (w : CommandWord) : Reg := regField w 12
/-- Field rb, bits 19:16 (R71). -/
def fieldRb (w : CommandWord) : Reg := regField w 16
/-- Field rc, bits 23:20 (R71). -/
def fieldRc (w : CommandWord) : Reg := regField w 20
/-- Field re, bits 27:24 (R71). -/
def fieldRe (w : CommandWord) : Reg := regField w 24
/-- Field rf, bits 31:28 (R71). -/
def fieldRf (w : CommandWord) : Reg := regField w 28

/-- The number of words of a command, decided by the opcode of its first word alone, whether or not that word is a
command (R70). -/
def commandLength (w : CommandWord) : Nat := if opcodeOf w = 0x10 then 3 else 1

/-- imm64 = word2 || word1 (R72): `lo` is the second command word, `hi` the third. -/
def immediate (lo hi : CommandWord) : Word := BitVec.ofNat 64 (hi.toNat * 2 ^ 32 + lo.toNat)

/-! ### Operand shapes: which register fields a row uses. The others must be 0 (R74). -/

/-- Reject by name unless the unused fields are 0. -/
def shape (unusedZero : Bool) (i : Instr) : Except Reject Instr :=
  if unusedZero then .ok i else .error .unusedFieldNotZero

/-- rd, ra, rb used; bits 31:20 must be 0. -/
def shapeDAB (w : CommandWord) (k : Reg → Reg → Reg → Instr) : Except Reject Instr :=
  shape (w.toNat / 2 ^ 20 == 0) (k (fieldRd w) (fieldRa w) (fieldRb w))

/-- rd, ra used; bits 31:16 must be 0. -/
def shapeDA (w : CommandWord) (k : Reg → Reg → Instr) : Except Reject Instr :=
  shape (w.toNat / 2 ^ 16 == 0) (k (fieldRd w) (fieldRa w))

/-- rd used; bits 31:12 must be 0. -/
def shapeD (w : CommandWord) (k : Reg → Instr) : Except Reject Instr :=
  shape (w.toNat / 2 ^ 12 == 0) (k (fieldRd w))

/-- ra used; rd and bits 31:16 must be 0. -/
def shapeA (w : CommandWord) (k : Reg → Instr) : Except Reject Instr :=
  shape (fieldRd w == 0 && w.toNat / 2 ^ 16 == 0) (k (fieldRa w))

/-- ra, rb used; rd and bits 31:20 must be 0. -/
def shapeAB (w : CommandWord) (k : Reg → Reg → Instr) : Except Reject Instr :=
  shape (fieldRd w == 0 && w.toNat / 2 ^ 20 == 0) (k (fieldRa w) (fieldRb w))

/-- ra, rb, rc used; rd and bits 31:24 must be 0. -/
def shapeABC (w : CommandWord) (k : Reg → Reg → Reg → Instr) : Except Reject Instr :=
  shape (fieldRd w == 0 && w.toNat / 2 ^ 24 == 0) (k (fieldRa w) (fieldRb w) (fieldRc w))

/-- All six fields used. -/
def shapeAll (w : CommandWord) (k : Reg → Reg → Reg → Reg → Reg → Reg → Instr) : Except Reject Instr :=
  shape true (k (fieldRd w) (fieldRa w) (fieldRb w) (fieldRc w) (fieldRe w) (fieldRf w))

/-! ### The decoder -/

/-- A format R command: every opcode of R73 but SETI's. -/
def decodeFormatR (w : CommandWord) : Except Reject Instr :=
  match opcodeOf w with
  | 0x01 => shapeDAB w .fadd
  | 0x02 => shapeDAB w .fsub
  | 0x03 => shapeDA w .fneg
  | 0x04 => shapeDAB w .fmul
  | 0x05 => shapeDA w .fpred
  | 0x06 => shapeDA w .ffin
  | 0x07 => shapeDA w .finv
  | 0x11 => shapeD w .rdst
  | 0x12 => shapeDA w .ldu32
  | 0x13 => shapeDA w .ldu64
  | 0x14 => shapeDAB w .ldb
  | 0x15 => shapeAB w .stu32
  | 0x16 => shapeAB w .stu64
  | 0x17 => shapeABC w .stb
  | 0x20 => shapeDA w .adwsb
  | 0x21 => shapeDA w .admob
  | 0x22 => shapeA w .adsetup
  | 0x23 => shapeDA w .adrd8
  | 0x24 => shapeDAB w .adrdf
  | 0x25 => shapeD w .adflush
  | 0x30 => shapeDA w .wwneed
  | 0x31 => shapeA w .wwbegin
  | 0x32 => shapeA w .wwwrite
  | 0x33 => shapeD w .wwflush
  | 0x34 => shapeDA w .wrcount
  | 0x35 => shapeAB w .wrbegin
  | 0x36 => shapeD w .wrread
  | 0x38 => shapeDA w .bwmax
  | 0x39 => shapeA w .bwbegin
  | 0x3A => shapeA w .bwwrite
  | 0x3B => shapeD w .bwflush
  | 0x3C => shapeDA w .brmax
  | 0x3D => shapeAB w .brbegin
  | 0x3E => shapeD w .brread
  | 0x40 => shapeAll w .mulrgn
  | 0x41 => shapeAll w .madrgn
  | _ => .error .unassignedOpcode

/-- A format I command: SETI, whose first word is checked like any other (R70, R74). -/
def decodeFormatI (w lo hi : CommandWord) : Except Reject Instr :=
  shapeD w fun rd => .seti rd (immediate lo hi)

/-- The instruction that a command's words stand for; total, rejecting by name (R74, R75). -/
def decode (ws : List CommandWord) : Except Reject Instr :=
  match ws with
  | [] => .error .noWord
  | [w] => if opcodeOf w = 0x10 then .error .wrongWordCount else decodeFormatR w
  | [w, lo, hi] => if opcodeOf w = 0x10 then decodeFormatI w lo hi else .error .wrongWordCount
  | _ => .error .wrongWordCount

/-! ### The encoder -/

/-- A first word from its fields, by the picture of R71. -/
def firstWord (op : Nat) (rd ra rb rc re rf : Reg) : CommandWord :=
  BitVec.ofNat 32 (op + rd.val * 2 ^ 8 + ra.val * 2 ^ 12 + rb.val * 2 ^ 16 + rc.val * 2 ^ 20
    + re.val * 2 ^ 24 + rf.val * 2 ^ 28)

/-- A format R command that uses rd, ra, rb. -/
def wordDAB (op : Nat) (rd ra rb : Reg) : List CommandWord := [firstWord op rd ra rb 0 0 0]
/-- A format R command that uses rd, ra. -/
def wordDA (op : Nat) (rd ra : Reg) : List CommandWord := [firstWord op rd ra 0 0 0 0]
/-- A format R command that uses rd. -/
def wordD (op : Nat) (rd : Reg) : List CommandWord := [firstWord op rd 0 0 0 0 0]
/-- A format R command that uses ra. -/
def wordA (op : Nat) (ra : Reg) : List CommandWord := [firstWord op 0 ra 0 0 0 0]
/-- A format R command that uses ra, rb. -/
def wordAB (op : Nat) (ra rb : Reg) : List CommandWord := [firstWord op 0 ra rb 0 0 0]

/-- The words of an instruction (R70 to R73). -/
def encode : Instr → List CommandWord
  | .fadd rd ra rb => wordDAB 0x01 rd ra rb
  | .fsub rd ra rb => wordDAB 0x02 rd ra rb
  | .fneg rd ra => wordDA 0x03 rd ra
  | .fmul rd ra rb => wordDAB 0x04 rd ra rb
  | .fpred rd ra => wordDA 0x05 rd ra
  | .ffin rd ra => wordDA 0x06 rd ra
  | .finv rd ra => wordDA 0x07 rd ra
  | .seti rd imm => [firstWord 0x10 rd 0 0 0 0 0, imm.setWidth 32, (imm >>> 32).setWidth 32]
  | .rdst rd => wordD 0x11 rd
  | .ldu32 rd ra => wordDA 0x12 rd ra
  | .ldu64 rd ra => wordDA 0x13 rd ra
  | .ldb rd ra rb => wordDAB 0x14 rd ra rb
  | .stu32 ra rb => wordAB 0x15 ra rb
  | .stu64 ra rb => wordAB 0x16 ra rb
  | .stb ra rb rc => [firstWord 0x17 0 ra rb rc 0 0]
  | .adwsb rd ra => wordDA 0x20 rd ra
  | .admob rd ra => wordDA 0x21 rd ra
  | .adsetup ra => wordA 0x22 ra
  | .adrd8 rd ra => wordDA 0x23 rd ra
  | .adrdf rd ra rb => wordDAB 0x24 rd ra rb
  | .adflush rd => wordD 0x25 rd
  | .wwneed rd ra => wordDA 0x30 rd ra
  | .wwbegin ra => wordA 0x31 ra
  | .wwwrite ra => wordA 0x32 ra
  | .wwflush rd => wordD 0x33 rd
  | .wrcount rd ra => wordDA 0x34 rd ra
  | .wrbegin ra rb => wordAB 0x35 ra rb
  | .wrread rd => wordD 0x36 rd
  | .bwmax rd ra => wordDA 0x38 rd ra
  | .bwbegin ra => wordA 0x39 ra
  | .bwwrite ra => wordA 0x3A ra
  | .bwflush rd => wordD 0x3B rd
  | .brmax rd ra => wordDA 0x3C rd ra
  | .brbegin ra rb => wordAB 0x3D ra rb
  | .brread rd => wordD 0x3E rd
  | .mulrgn rd ra rb rc re rf => [firstWord 0x40 rd ra rb rc re rf]
  | .madrgn rd ra rb rc re rf => [firstWord 0x41 rd ra rb rc re rf]

/-! ### Commands stored as bytes (R78): each word little-endian, the words in order -/

/-- The four bytes of a command word, least significant first. -/
def bytesOfWord (w : CommandWord) : List Byte :=
  [w.setWidth 8, (w >>> 8).setWidth 8, (w >>> 16).setWidth 8, (w >>> 24).setWidth 8]

/-- The command word of four bytes, least significant first. -/
def wordOfBytes (b0 b1 b2 b3 : Byte) : CommandWord :=
  BitVec.ofNat 32 (b0.toNat + b1.toNat * 2 ^ 8 + b2.toNat * 2 ^ 16 + b3.toNat * 2 ^ 24)

/-- The words of a byte sequence and the bytes left over (fewer than four). -/
def wordsOfBytes : List Byte → List CommandWord × List Byte
  | b0 :: b1 :: b2 :: b3 :: rest =>
    let r := wordsOfBytes rest
    (wordOfBytes b0 b1 b2 b3 :: r.1, r.2)
  | rest => ([], rest)

/-- The stored bytes of an instruction. -/
def encodeBytes (i : Instr) : List Byte := (encode i).flatMap bytesOfWord

/-- The first instruction of a byte sequence and the words after it; total on any bytes. -/
def decodeBytes (bs : List Byte) : Except Reject (Instr × List CommandWord) :=
  match (wordsOfBytes bs).1 with
  | [] => .error .noWord
  | w :: ws =>
    match decode ((w :: ws).take (commandLength w)) with
    | .ok i => .ok (i, (w :: ws).drop (commandLength w))
    | .error e => .error e

/-! ### Words numbered as spec/opcode_table.json numbers them -/

/-- The command words whose bits are `w`: bit 0 is bit 0 of the first word, a later word's bits count on from it, and
every bit from `nbits` up is 0. As many words as the first word's opcode asks for (R70). -/
def tableWords (nbits w : Nat) : List CommandWord :=
  let v := w % 2 ^ nbits
  let first : CommandWord := BitVec.ofNat 32 v
  if commandLength first = 3 then [first, BitVec.ofNat 32 (v / 2 ^ 32), BitVec.ofNat 32 (v / 2 ^ 64)] else [first]

/-- The instruction the decoder reads from an instruction whose bits are `w`. -/
def decodeTableWord (nbits w : Nat) : Option Instr :=
  match decode (tableWords nbits w) with
  | .ok i => some i
  | .error _ => none

/-! ### Assembler lines (R76): the mnemonic in capitals, then the operands in the order of R73 -/

/-- An operand of an assembler line: a register, or the immediate of SETI. -/
inductive Operand where
  | reg (r : Reg)
  | imm (v : Word)
deriving DecidableEq, Repr

/-- The assembler line of an instruction: its mnemonic and its operands. There are no pseudo-instructions (R77). -/
def assembly : Instr → String × List Operand
  | .fadd rd ra rb => ("FADD", [.reg rd, .reg ra, .reg rb])
  | .fsub rd ra rb => ("FSUB", [.reg rd, .reg ra, .reg rb])
  | .fneg rd ra => ("FNEG", [.reg rd, .reg ra])
  | .fmul rd ra rb => ("FMUL", [.reg rd, .reg ra, .reg rb])
  | .fpred rd ra => ("FPRED", [.reg rd, .reg ra])
  | .ffin rd ra => ("FFIN", [.reg rd, .reg ra])
  | .finv rd ra => ("FINV", [.reg rd, .reg ra])
  | .seti rd v => ("SETI", [.reg rd, .imm v])
  | .rdst rd => ("RDST", [.reg rd])
  | .ldu32 rd ra => ("LDU32", [.reg rd, .reg ra])
  | .ldu64 rd ra => ("LDU64", [.reg rd, .reg ra])
  | .ldb rd ra rb => ("LDB", [.reg rd, .reg ra, .reg rb])
  | .stu32 ra rb => ("STU32", [.reg ra, .reg rb])
  | .stu64 ra rb => ("STU64", [.reg ra, .reg rb])
  | .stb ra rb rc => ("STB", [.reg ra, .reg rb, .reg rc])
  | .adwsb rd ra => ("ADWSB", [.reg rd, .reg ra])
  | .admob rd ra => ("ADMOB", [.reg rd, .reg ra])
  | .adsetup ra => ("ADSETUP", [.reg ra])
  | .adrd8 rd ra => ("ADRD8", [.reg rd, .reg ra])
  | .adrdf rd ra rb => ("ADRDF", [.reg rd, .reg ra, .reg rb])
  | .adflush rd => ("ADFLUSH", [.reg rd])
  | .wwneed rd ra => ("WWNEED", [.reg rd, .reg ra])
  | .wwbegin ra => ("WWBEGIN", [.reg ra])
  | .wwwrite ra => ("WWWRITE", [.reg ra])
  | .wwflush rd => ("WWFLUSH", [.reg rd])
  | .wrcount rd ra => ("WRCOUNT", [.reg rd, .reg ra])
  | .wrbegin ra rb => ("WRBEGIN", [.reg ra, .reg rb])
  | .wrread rd => ("WRREAD", [.reg rd])
  | .bwmax rd ra => ("BWMAX", [.reg rd, .reg ra])
  | .bwbegin ra => ("BWBEGIN", [.reg ra])
  | .bwwrite ra => ("BWWRITE", [.reg ra])
  | .bwflush rd => ("BWFLUSH", [.reg rd])
  | .brmax rd ra => ("BRMAX", [.reg rd, .reg ra])
  | .brbegin ra rb => ("BRBEGIN", [.reg ra, .reg rb])
  | .brread rd => ("BRREAD", [.reg rd])
  | .mulrgn rd ra rb rc re rf => ("MULRGN", [.reg rd, .reg ra, .reg rb, .reg rc, .reg re, .reg rf])
  | .madrgn rd ra rb rc re rf => ("MADRGN", [.reg rd, .reg ra, .reg rb, .reg rc, .reg re, .reg rf])

end Sys2Proof
end

