-- ==== Sys2Proof/Machine/Issue.lean ====
section
/-! DEFINITION. How a command reaches the core (spec/10_state.md R21, R24, spec/30_encoding.md R70): the core fetches
nothing, the host presents words. `step` takes the oldest complete transaction from `State.input` with these
operations. -/

namespace Sys2Proof.Machine

/-- What the oldest input amounts to. -/
inductive Issue where
  /-- Nothing complete is presented: no input, or a command whose last words are still to come. -/
  | waiting
  /-- A command's words, and the input after them. -/
  | command (ws : List CommandWord) (rest : List HostInput)
  /-- A reset, and the input after it. -/
  | reset (rest : List HostInput)
  /-- The host stores a byte, and the input after it. -/
  | hostStore (addr : Nat) (b : Byte) (rest : List HostInput)
  /-- A reset stands between the words of one command (R250, log entry 6). -/
  | broken
deriving DecidableEq, Repr

/-- The words as host input. -/
def asInput (ws : List CommandWord) : List HostInput := ws.map .word

/-- Take `more` further words of the command whose words so far are `ws`. A host store among them comes first, and the
words before it stay presented: the one command of several words, SETI, reads and writes no byte (R131), so R256 does
not exclude the store, and it cannot change what the command does. -/
def takeWords (ws : List CommandWord) : Nat → List HostInput → Issue
  | 0, rest => .command ws rest
  | _ + 1, [] => .waiting
  | more + 1, .word w :: rest => takeWords (ws ++ [w]) more rest
  | _ + 1, .reset :: _ => .broken
  | _ + 1, .hostStore a b :: rest => .hostStore a b (asInput ws ++ rest)

/-- The oldest transaction of the input; a command has as many words as its first word's opcode asks for, whether or
not that word is a command (R70, R232). -/
def nextIssue : List HostInput → Issue
  | [] => .waiting
  | .reset :: rest => .reset rest
  | .hostStore a b :: rest => .hostStore a b rest
  | .word w :: rest => takeWords [w] (commandLength w - 1) rest

/-- The host's own store of one byte (R20, R32): the same addresses exist for the host as for the core. -/
def State.storeFromHost (s : State) (a : Nat) (b : Byte) : Result State :=
  andThen (s.mem.store a 1 b.toNat) fun m => .next { s with mem := m }

/-- Put the instruction with these table bits (spec/opcode_table.json's numbering) where the core takes its next
command: first in the input. -/
def State.withIssuedWord (s : State) (nbits w : Nat) : State :=
  { s with input := asInput (tableWords nbits w) ++ s.input }

end Sys2Proof.Machine
end

