-- ==== Sys2Proof/Machine/Step.lean ====
section
/-! DEFINITION. One step of the core: the checks of spec/60_exceptions.md R233 in their order. -/

namespace Sys2Proof.Machine

/-- One command, reset or host store. A halted core answers every command with Halted (R233 step 1); a word that is no
command is the fault IllegalCommand (step 2); a command has its meaning (steps 3 to 5). With nothing complete in the
input the state stays as it is (R236, R245). -/
def step (s : State) : Host.Outcome State Fault Refusal :=
  match nextIssue s.input with
  | .waiting => .next s
  | .broken => .refused .brokenCommand
  | .reset rest => .next { s with input := rest }.hostReset
  | .hostStore a b rest => { s with input := rest }.storeFromHost a b
  | .command ws rest =>
    if s.st.halt then .next { s with input := rest }.answerHalted
    else
      match decode ws with
      | .ok i => exec i { s with input := rest }
      | .error _ => .next { s with input := rest }.illegalCommand

/-- `s` with the instruction whose bits are `w` presented as the next command. Nothing else changes. -/
def State.withFetchWord (s : State) (nbits w : Nat) : State := s.withIssuedWord nbits w

end Sys2Proof.Machine
end

