-- ==== Sys2Proof/Safety.lean ====
section
/-! DEFINITION. The terms claims use: which registers a command names, when the spec gives a command's reads a meaning,
what a command leaves unchanged, the invariant of the machine, and the rules of the spec as equations over integers
and single bits. -/

namespace Sys2Proof.Machine

/-! ### What a command names (spec/10_state.md R22, spec/30_encoding.md R73) -/

/-- The registers a command reads: those its ra, rb, rc, re, rf fields name. -/
def sources : Instr → List Reg
  | .fadd _ ra rb | .fsub _ ra rb | .fmul _ ra rb => [ra, rb]
  | .fneg _ ra | .fpred _ ra | .ffin _ ra | .finv _ ra => [ra]
  | .seti _ _ | .rdst _ => []
  | .ldu32 _ ra | .ldu64 _ ra => [ra]
  | .ldb _ ra rb => [ra, rb]
  | .stu32 ra rb | .stu64 ra rb => [ra, rb]
  | .stb ra rb rc => [ra, rb, rc]
  | .adwsb _ ra | .admob _ ra | .adsetup ra | .adrd8 _ ra => [ra]
  | .adrdf _ ra rb => [ra, rb]
  | .adflush _ => []
  | .wwneed _ ra | .wwbegin ra | .wwwrite ra => [ra]
  | .wwflush _ => []
  | .wrcount _ ra => [ra]
  | .wrbegin ra rb => [ra, rb]
  | .wrread _ => []
  | .bwmax _ ra | .bwbegin ra | .bwwrite ra => [ra]
  | .bwflush _ => []
  | .brmax _ ra => [ra]
  | .brbegin ra rb => [ra, rb]
  | .brread _ => []
  | .mulrgn _ ra rb rc re rf | .madrgn _ ra rb rc re rf => [ra, rb, rc, re, rf]

/-- The register a command writes: its rd field, if it has one. -/
def destination : Instr → Option Reg
  | .fadd rd _ _ | .fsub rd _ _ | .fneg rd _ | .fmul rd _ _ | .fpred rd _ | .ffin rd _ | .finv rd _ => some rd
  | .seti rd _ | .rdst rd | .ldu32 rd _ | .ldu64 rd _ | .ldb rd _ _ => some rd
  | .stu32 _ _ | .stu64 _ _ | .stb _ _ _ => none
  | .adwsb rd _ | .admob rd _ | .adrd8 rd _ | .adrdf rd _ _ | .adflush rd => some rd
  | .adsetup _ => none
  | .wwneed rd _ | .wwflush rd | .wrcount rd _ | .wrread rd => some rd
  | .wwbegin _ | .wwwrite _ | .wrbegin _ _ => none
  | .bwmax rd _ | .bwflush rd | .brmax rd _ | .brread rd => some rd
  | .bwbegin _ | .bwwrite _ | .brbegin _ _ => none
  | .mulrgn rd _ _ _ _ _ | .madrgn rd _ _ _ _ _ => some rd

/-- The reads R23 gives a meaning: every source register has been written since reset. The model goes on otherwise too
(log entry 1); a claim about the hardware has this as a premise. -/
def readsHeldValues (i : Instr) (s : State) : Bool := (sources i).all s.holdsValue

/-- Commands that write memory in some state (spec/20_memory.md R54). -/
def writesMemory : Instr → Bool
  | .stu32 _ _ | .stu64 _ _ | .stb _ _ _ | .adrd8 _ _ | .adflush _ | .wwwrite _ | .wwflush _ | .bwwrite _ | .bwflush _
  | .mulrgn _ _ _ _ _ _ | .madrgn _ _ _ _ _ _ => true
  | _ => false

/-- Commands that write the context ADR (spec/10_state.md R27). -/
def writesAdr : Instr → Bool
  | .adsetup _ | .adrd8 _ _ | .adflush _ => true
  | _ => false

/-- Commands that write the context WW (R28). -/
def writesWw : Instr → Bool
  | .wwbegin _ | .wwwrite _ | .wwflush _ => true
  | _ => false

/-- Commands that write the context WR (R29). -/
def writesWr : Instr → Bool
  | .wrbegin _ _ | .wrread _ => true
  | _ => false

/-- Commands that write the context BW (R30). -/
def writesBw : Instr → Bool
  | .bwbegin _ | .bwwrite _ | .bwflush _ => true
  | _ => false

/-- Commands that write the context BR (R31). -/
def writesBr : Instr → Bool
  | .brbegin _ _ | .brread _ => true
  | _ => false

/-- Commands that write ST.EMPTY (R25). -/
def writesEmpty : Instr → Bool
  | .brbegin _ _ | .brread _ => true
  | _ => false

/-- Commands that use a codec context that must be active (spec/60_exceptions.md R238), with the context's ACTIVE. -/
def contextInUse (s : State) : Instr → Option Bool
  | .adrd8 _ _ | .adrdf _ _ _ | .adflush _ => some s.adr.active
  | .wwwrite _ | .wwflush _ => some s.ww.active
  | .wrread _ => some s.wr.active
  | .bwwrite _ | .bwflush _ => some s.bw.active
  | .brread _ => some s.br.active
  | _ => none

/-- The bytes a command uses that its register operands name, as first address and number: of the commands that use
no others but auxiliary words (R130, R156, R157); none where the rule says that no byte is accessed. -/
def operandBytes (s : State) : Instr → Option (Nat × Nat)
  | .ldu32 _ ra | .stu32 ra _ => some (s.address ra, 4)
  | .ldu64 _ ra | .stu64 ra _ | .adrd8 _ ra => some (s.address ra, 8)
  | .ldb _ ra rb | .stb ra rb _ => if s.count rb ≤ 8 then some (s.address ra, s.count rb) else none
  | .adrdf _ ra rb => if s.count rb ≤ 7 then some (s.address ra, s.count rb) else none
  | _ => none

/-! ### Frames -/

/-- A command with destination rd has completed with value v: x[rd] holds v, every other register is as before, the
response is {0, EMPTY, v} (R21), the index has advanced by one (R24), no further input is taken. -/
structure Delivered (s t : State) (rd : Reg) (v : Word) : Prop where
  value : t.reg rd = v
  held : t.holdsValue rd = true
  others : ∀ r, r ≠ rd → t.reg r = s.reg r ∧ t.holdsValue r = s.holdsValue r
  response : t.response = some { fault := 0, empty := t.st.empty, result := v }
  index : t.index = s.index + 1
  input : t.input = s.input

/-- A command without a destination has completed: no register changes, the response is {0, EMPTY, 0}. -/
structure Completed (s t : State) : Prop where
  registers : ∀ r, t.reg r = s.reg r ∧ t.holdsValue r = s.holdsValue r
  response : t.response = some { fault := 0, empty := t.st.empty, result := 0 }
  index : t.index = s.index + 1
  input : t.input = s.input

/-- No byte of memory has changed, nor has MEMMAP. -/
structure SameMemory (s t : State) : Prop where
  bytes : ∀ a, t.mem.byte a = s.mem.byte a
  map : t.mem.map = s.mem.map

/-- Memory has changed in the n bytes from a on only: byte i of v stands at a + i (R51). -/
structure Stored (s t : State) (a n v : Nat) : Prop where
  inside : ∀ i, i < n → t.mem.byte (a + i) = BitVec.ofNat 8 (v / 2 ^ (8 * i))
  outside : ∀ x, x < a ∨ a + n ≤ x → t.mem.byte x = s.mem.byte x
  map : t.mem.map = s.mem.map

/-- No codec context has changed. -/
structure SameContexts (s t : State) : Prop where
  adr : t.adr = s.adr
  ww : t.ww = s.ww
  wr : t.wr = s.wr
  bw : t.bw = s.bw
  br : t.br = s.br

/-- A command has completed with value v in rd and has changed nothing else: the shape of R100. -/
def RegisterOnly (s t : State) (rd : Reg) (v : Word) : Prop :=
  Delivered s t rd v ∧ t.st = s.st ∧ SameContexts s t ∧ SameMemory s t

/-! ### The invariant -/

/-- HALT and FCAUSE go together (R26, R231): FCAUSE is 0 while HALT = 0 and IllegalCommand's code otherwise. -/
def statusLegal (st : Status) : Prop :=
  (st.halt = false → st.fcause = 0) ∧ (st.halt = true → st.fcause = 1)

/-- R27: CNT is 0..62, the bits of ACC at and above CNT are 0, the words written lie in the address space. -/
def adrLegal (c : AdrContext) : Prop :=
  c.cnt.toNat ≤ 62 ∧ c.acc.toNat < 2 ^ c.cnt.toNat ∧ c.auxAddress ≤ Config.addressSpace

/-- R28, R30: PTR − BASE is a multiple of 8, the bits of ACC at and above CNT are 0, the stream lies in the address
space (PTR as the integer address of R58, log entry 8). -/
def writerLegal (c : WriterContext) : Prop :=
  c.base.toNat ≤ c.address ∧ 8 ∣ c.address - c.base.toNat ∧ c.address ≤ Config.addressSpace ∧
    c.acc.toNat < 2 ^ c.cnt.toNat

/-- Length of a writer's stream in bytes, as an integer (R174, R195); `WriterContext.total` is it when it
fits 64 bits. -/
def streamLength (c : WriterContext) : Nat := c.address - c.base.toNat + c.trailing

/-- R29: POS is a multiple of 61 and at most 8·LEN (so that `past` is clear). -/
def wordReaderLegal (c : ReaderContext) : Prop := 61 ∣ c.position ∧ c.position ≤ 8 * c.len.toNat

/-- R31: POS exceeds 8·LEN by at most 60 (POS as an integer, log entry 9). -/
def byteReaderLegal (c : ReaderContext) : Prop := c.position ≤ 8 * c.len.toNat + 60

/-- What the spec says of every reachable state. -/
structure Inv (s : State) : Prop where
  memory : s.mem.wf = true
  status : statusLegal s.st
  adr : adrLegal s.adr
  ww : writerLegal s.ww
  wr : wordReaderLegal s.wr
  bw : writerLegal s.bw
  br : byteReaderLegal s.br

/-! ### The rules over integers and bits -/

/-- q = ceil(a / b) (R9): the least integer with a ≤ q·b. -/
def IsCeil (a b q : Nat) : Prop := ∀ k, q ≤ k ↔ a ≤ k * b

/-- R102 over the integers: x + y, with each carry out of bit 63 folded back as + c. -/
def addRule (x y : Nat) : Nat :=
  if x + y < 2 ^ 64 then x + y
  else if x + y - 2 ^ 64 + (2 ^ 32 - 1) < 2 ^ 64 then x + y - 2 ^ 64 + (2 ^ 32 - 1)
  else x + y - 2 ^ 64 + (2 ^ 32 - 1) - 2 ^ 64 + (2 ^ 32 - 1)

/-- R103 over the integers: x − y, with each borrow folded back as − c. -/
def subRule (x y : Nat) : Nat :=
  if y ≤ x then x - y
  else if 2 ^ 32 - 1 ≤ x + 2 ^ 64 - y then x + 2 ^ 64 - y - (2 ^ 32 - 1)
  else x + 2 ^ 64 - y + 2 ^ 64 - (2 ^ 32 - 1) - (2 ^ 32 - 1)

/-- R105 over the integers: lo + a2·(2^32 − 1), a carry folded back as + c, then − a3, a borrow folded back as − c. -/
def mulRule (x y : Nat) : Nat :=
  let hi := x * y / 2 ^ 64
  let lo := x * y % 2 ^ 64
  let sum := lo + hi % 2 ^ 32 * (2 ^ 32 - 1)
  let s := if sum < 2 ^ 64 then sum else sum - 2 ^ 64 + (2 ^ 32 - 1)
  if hi / 2 ^ 32 ≤ s then s - hi / 2 ^ 32 else s + 2 ^ 64 - hi / 2 ^ 32 - (2 ^ 32 - 1)

/-- R152 over the integers: bits 32..62 of the word are all ones. -/
def ambiguousNat (w : Nat) : Prop := w / 2 ^ 32 % 2 ^ 31 = 2 ^ 31 - 1

/-- Stream bit j of the buffer at byte address b (R52). -/
def streamBit (m : Memory) (b j : Nat) : Bool := (m.byte (b + j / 8)).getLsbD (j % 8)

/-- The integer whose bit i is stream bit pos + i, for i < n, as StreamBits(B, L, pos, n) (R52): bits past the end of
the L bytes are 0. -/
def IsStreamBits (m : Memory) (b l pos n v : Nat) : Prop :=
  ∀ i, v.testBit i = (decide (i < n) && decide (pos + i < 8 * l) && streamBit m b (pos + i))

/-! ### The region engine word by word (spec/45_region_engine.md R216) -/

/-- Data word i before the command. -/
def dataWord (m : Memory) (o : RegionOperands) (i : Nat) : Word := BitVec.ofNat 64 (m.readBytes (o.data + 8 * i) 8)

/-- The overflow bits in the order they are appended: bit 63 of each ambiguous full word, in ascending order. -/
def overflowBitsOf (m : Memory) (o : RegionOperands) : List Bool :=
  (((List.range (o.size / 8)).map (dataWord m o)).filter ambiguous).map BitVec.msb

/-- Bit b of auxiliary word j (R159): overflow bit 63·j + b, for b < 63, else 0. -/
def auxBit (bits : List Bool) (j b : Nat) : Bool := decide (b < 63) && (bits[63 * j + b]?).getD false

/-- The output word made from packed word w where `old` stood: the product, or the product added to it (R216). -/
def outputWord (accumulate : Bool) (k w old : Word) : Word :=
  if accumulate then fieldAdd (fieldMul k w) old else fieldMul k w

/-- What RegionGeneral leaves in memory (R216, R217), from memory m with A auxiliary words. -/
structure RegionResult (accumulate : Bool) (o : RegionOperands) (m m' : Memory) (A : Nat) : Prop where
  /-- Output word i is made from full word i, packed. -/
  words : ∀ i, i < o.size / 8 →
    m'.readBytes (o.out + 8 * i) 8 =
      (outputWord accumulate o.coeff (packedWord (dataWord m o i))
        (BitVec.ofNat 64 (m.readBytes (o.out + 8 * i) 8))).toNat
  /-- The tail makes one more primary word. -/
  tail : o.size % 8 ≠ 0 →
    m'.readBytes (o.out + 8 * (o.size / 8)) 8 =
      (outputWord accumulate o.coeff (BitVec.ofNat 64 (m.readBytes (o.data + 8 * (o.size / 8)) (o.size % 8)))
        (BitVec.ofNat 64 (m.readBytes (o.out + 8 * (o.size / 8)) 8))).toNat
  /-- Auxiliary word j holds its overflow bits. -/
  work : ∀ j, j < A → ∀ b, (m'.readBytes (o.work.toNat + 8 * j) 8).testBit b = auxBit (overflowBitsOf m o) j b
  /-- Auxiliary word j is multiplied and appended after the primary words. -/
  appended : ∀ j, j < A →
    m'.readBytes (o.out + roundedLength o.size + 8 * j) 8 =
      (outputWord accumulate o.coeff (BitVec.ofNat 64 (m'.readBytes (o.work.toNat + 8 * j) 8))
        (BitVec.ofNat 64 (m.readBytes (o.out + roundedLength o.size + 8 * j) 8))).toNat
  /-- No other byte changes. -/
  outside : ∀ x, ¬(o.out ≤ x ∧ x < o.out + roundedLength o.size + 8 * A) →
    ¬(o.work.toNat ≤ x ∧ x < o.work.toNat + 8 * A) → m'.byte x = m.byte x
  map : m'.map = m.map

/-! ### Codec runs (spec/43_codec61_word.md R178, spec/44_codec61_byte.md R199) -/

/-- Write words of 61 bits one after another (R173). -/
def writeWords (m : Memory) (c : WriterContext) : List Word → Result (Memory × WriterContext)
  | [] => .next (m, c)
  | v :: vs => andThen (writerAppend m c v 61) fun r => writeWords r.1 r.2 vs

/-- Write words as BWWRITE does (R194). -/
def writeEscaped (m : Memory) (c : WriterContext) : List Word → Result (Memory × WriterContext)
  | [] => .next (m, c)
  | v :: vs => andThen (writerAppend m c v (escapedWidth v)) fun r => writeEscaped r.1 r.2 vs

/-- `vs` are the words BRREAD delivers from bit `pos` of the l bytes at b until Empty (R198). -/
inductive ByteWords (m : Memory) (b l : Nat) : Nat → List Word → Prop where
  | empty {pos : Nat} : 8 * l ≤ pos → ByteWords m b l pos []
  | word {pos c : Nat} {vs : List Word} : pos < 8 * l → streamBits m b l pos 61 = .next c →
      ByteWords m b l (pos + chunkWidth c) vs → ByteWords m b l pos (chunkWord c :: vs)

end Sys2Proof.Machine
end

