-- ==== Sys2Proof/Certificates/Slice0/Obligations.lean ====
section
/-! DEFINITION. The statements for the provers. Each docstring says which rule of spec/ it formalises, or that it rests
on a choice of the model and which log entry (notes/assumptions/<n>.md) names it. -/

open Sys2Proof Sys2Proof.Machine

/-! ### Encoding (spec/30_encoding.md) -/

/-- Words written out from R71 to R73, one or two of each family, decode to the commands they stand for. -/
def Obligations.SpecWordsDecode : Prop :=
  decode [0x00021301#32] = .ok (.fadd 3 1 2) ∧ decode [0x0000FF07#32] = .ok (.finv 15 15) ∧
  decode [0x00000110#32, 0x00000001#32, 0xFFFFFFFF#32] = .ok (.seti 1 0xFFFFFFFF00000001#64) ∧
  decode [0x00005913#32] = .ok (.ldu64 9 5) ∧ decode [0x00321017#32] = .ok (.stb 1 2 3) ∧
  decode [0x00004022#32] = .ok (.adsetup 4) ∧ decode [0x00051035#32] = .ok (.wrbegin 1 5) ∧
  decode [0x0000063E#32] = .ok (.brread 6) ∧ decode [0x54321040#32] = .ok (.mulrgn 0 1 2 3 4 5) ∧
  decode [0x00021303#32] = .error .unusedFieldNotZero ∧ decode [0x00000000#32] = .error .unassignedOpcode

/-- Decoding the words of any instruction gives it back, with every operand at every value (R70 to R73). -/
def Obligations.DecodeEncode : Prop := ∀ i : Instr, decode (encode i) = .ok i

/-- A sequence of words has one meaning: if it decodes, it is the encoding of what it decodes to (R71, R74). -/
def Obligations.EncodeDecode : Prop := ∀ (ws : List CommandWord) (i : Instr), decode ws = .ok i → encode i = ws

/-- The decoder accepts exactly the words that the match and mask columns of R73 and the lengths of R70 admit, and no
first word selects two rows: what R75 infers from R73 (the spec marks it as derived). -/
def Obligations.DecodeAcceptsOpcodeMap : Prop :=
  (∀ ws : List CommandWord, (∃ i, decode ws = .ok i) ↔ WellFormed ws = true) ∧
  ∀ (w : CommandWord) (r q : Row), r ∈ opcodeMap → q ∈ opcodeMap → r.selects w = true → q.selects w = true → r = q

/-- Commands stored as bytes (R78): the stored bytes of any instruction decode to it, and nothing is left over. -/
def Obligations.DecodeStoredBytes : Prop := ∀ i : Instr, decodeBytes (encodeBytes i) = .ok (i, [])

/-! ### Steps, the fault, the reset (spec/10_state.md R21 to R26, R33, spec/60_exceptions.md) -/

/-- A step of a core that is not halted runs the command the host presented: exactly exec of the decoded instruction on
the state whose input has moved past the command's words. -/
def Obligations.StepRunsDecodedCommand : Prop :=
  ∀ (s : State) (ws : List CommandWord) (rest : List HostInput) (i : Instr),
    s.st.halt = false → s.input = asInput ws ++ rest → decode ws = .ok i →
      step s = exec i { s with input := rest }

/-- R234: a complete command that is illegal sets HALT and FCAUSE = 1, responds {1, EMPTY, 0}, changes nothing else and
does not advance the index; and a halted core answers any complete command, legal or not, with {2, EMPTY, 0} and
changes no state at all. -/
def Obligations.IllegalCommandHalts : Prop :=
  ∀ (s : State) (w : CommandWord) (ws : List CommandWord) (rest : List HostInput),
    s.input = asInput (w :: ws) ++ rest → (w :: ws).length = commandLength w →
      (s.st.halt = false → (∀ i, decode (w :: ws) ≠ .ok i) →
        ∃ t, step s = .next t ∧ t.st.halt = true ∧ t.st.fcause = 1 ∧ t.st.empty = s.st.empty ∧
          t.response = some { fault := 1, empty := s.st.empty, result := 0 } ∧
          (∀ r, t.reg r = s.reg r ∧ t.holdsValue r = s.holdsValue r) ∧ SameContexts s t ∧ SameMemory s t ∧
          t.index = s.index ∧ t.input = rest) ∧
      (s.st.halt = true →
        ∃ t, step s = .next t ∧ t.st = s.st ∧
          t.response = some { fault := 2, empty := s.st.empty, result := 0 } ∧
          (∀ r, t.reg r = s.reg r ∧ t.holdsValue r = s.holdsValue r) ∧ SameContexts s t ∧ SameMemory s t ∧
          t.index = s.index ∧ t.input = rest)

/-- R235: nothing but a reset leaves the halted state or changes anything the core holds in it. (The host may still store
into its own memory, so memory is not named.) -/
def Obligations.HaltedUntilReset : Prop :=
  ∀ s t : State, s.st.halt = true → (∀ rest, s.input ≠ .reset :: rest) → step s = .next t →
    t.st = s.st ∧ (∀ r, t.reg r = s.reg r ∧ t.holdsValue r = s.holdsValue r) ∧ SameContexts s t ∧ t.index = s.index

/-- R33: the host's reset, in any state, leaves ST = 0, no register with a value, all five contexts idle, the command
index 0 and memory and MEMMAP as they were. -/
def Obligations.ResetTransaction : Prop :=
  ∀ (s : State) (rest : List HostInput), s.input = .reset :: rest →
    ∃ t, step s = .next t ∧ t.st.word = 0 ∧ (∀ r, t.holdsValue r = false) ∧
      t.adr.active = false ∧ t.ww.active = false ∧ t.wr.active = false ∧ t.bw.active = false ∧ t.br.active = false ∧
      SameMemory s t ∧ t.index = 0 ∧ t.input = rest

/-- R20, R32, R256: a host store is performed whatever the core's state, alone or before the last word of a command of
several words, whose words stay presented: byte a of memory becomes b, nothing else changes. A reset before the last word
of a command is refused (R250). (The queue is the model's, log entry 5, and so is the reading of what counts as during a
command, log entries 6 and 16.) -/
def Obligations.HostStoreResult : Prop :=
  ∀ (s : State) (ws : List CommandWord) (rest : List HostInput),
    (∀ w vs, ws = w :: vs → ws.length < commandLength w) →
      (∀ (a : Nat) (b : Byte), s.input = asInput ws ++ .hostStore a b :: rest → s.mem.wf = true →
        s.mem.accessible a 1 = true →
          ∃ t, step s = .next t ∧ Stored s t a 1 b.toNat ∧ t.input = asInput ws ++ rest ∧ t.st = s.st ∧
            (∀ r, t.reg r = s.reg r ∧ t.holdsValue r = s.holdsValue r) ∧ SameContexts s t ∧ t.response = s.response ∧
            t.index = s.index) ∧
      (ws ≠ [] → s.input = asInput ws ++ .reset :: rest → step s = .refused .brokenCommand)

/-- What R33 states of the state after reset, at `State.reset`. -/
def Obligations.ResetState : Prop :=
  State.reset.st.word = 0 ∧ (∀ r, State.reset.holdsValue r = false) ∧ State.reset.adr.active = false ∧
  State.reset.ww.active = false ∧ State.reset.wr.active = false ∧ State.reset.bw.active = false ∧
  State.reset.br.active = false ∧ State.reset.index = 0

/-- R237, R24, R21: a decoded command never faults; whenever it completes, HALT and FCAUSE are as before, the response
carries fault 0 and the EMPTY of afterwards, the index has advanced by one, and it has taken no further input. -/
def Obligations.CompletedCommandNeverFaults : Prop :=
  ∀ (i : Instr) (s t : State), exec i s = .next t →
    t.st.halt = s.st.halt ∧ t.st.fcause = s.st.fcause ∧
    (∃ v, t.response = some { fault := 0, empty := t.st.empty, result := v }) ∧
    (∀ rd, destination i = some rd → t.response = some { fault := 0, empty := t.st.empty, result := t.reg rd }) ∧
    (destination i = none → t.response = some { fault := 0, empty := t.st.empty, result := 0 }) ∧
    t.index = s.index + 1 ∧ t.input = s.input

/-- R22: a command writes exactly the register its rd field names; every other register is as before. -/
def Obligations.OnlyDestinationWritten : Prop :=
  ∀ (i : Instr) (s t : State), exec i s = .next t → ∀ r, destination i ≠ some r →
    t.reg r = s.reg r ∧ t.holdsValue r = s.holdsValue r

/-- R22: a command reads no register but those its source fields name. Give another register a different value: the
command ends the same way, and in the same state but for that register, which keeps the value unless it is rd. -/
def Obligations.OnlyNamedRegistersRead : Prop :=
  ∀ (i : Instr) (s : State) (r : Reg) (v : Word), r ∉ sources i →
    exec i { s with regs := s.regs.set r v } =
      andThen (exec i s) fun t =>
        .next (if destination i = some r then t else { t with regs := t.regs.set r v })

/-- R25, R261: no command but BRREAD and BRBEGIN changes ST. -/
def Obligations.OnlyByteReaderWritesStatus : Prop :=
  ∀ (i : Instr) (s t : State), exec i s = .next t → writesEmpty i = false → t.st = s.st

/-- Each codec context changes by the commands of that codec only; in particular the region commands touch none (R211).
(spec/10_state.md section 5.) -/
def Obligations.ContextsOwnedByTheirCodec : Prop :=
  ∀ (i : Instr) (s t : State), exec i s = .next t →
    (writesAdr i = false → t.adr = s.adr) ∧ (writesWw i = false → t.ww = s.ww) ∧ (writesWr i = false → t.wr = s.wr) ∧
    (writesBw i = false → t.bw = s.bw) ∧ (writesBr i = false → t.br = s.br)

/-- The column "writes" of R54: a command with no entry there changes no byte of memory. And no step changes MEMMAP. -/
def Obligations.OnlyStoringCommandsWriteMemory : Prop :=
  (∀ (i : Instr) (s t : State), exec i s = .next t → writesMemory i = false → t.mem = s.mem) ∧
  ∀ s t : State, step s = .next t → t.mem.map = s.mem.map

/-- Every step, from every state that meets the invariant, gives a state that meets it: the memory's canonical form,
R26, R27, R28, R29, R30, R31. (That the next address of a writer and of the auxiliary words is at most 2^64
is inferred from R58, for the writers with log entry 8; the position of a byte reader is that of log entry 9; the canonical form is the model's.) -/
def Obligations.StepKeepsInvariant : Prop := ∀ s t : State, Inv s → step s = .next t → Inv t

/-- The state after reset meets the invariant. (Where R33 leaves a context field open this rests on log entry 2.) -/
def Obligations.ResetHasInvariant : Prop := Inv State.reset

/-! ### Memory (spec/20_memory.md) -/

/-- R51: a read of k bytes is the integer below 2^(8k) whose byte i is the byte at a + i; a store of n bytes that answers
leaves byte i of the value at a + i and every other byte as it was; reading back k bytes at offset i gives bits 8i to
8(i + k) − 1 of the value, whatever the widths (which the spec marks as derived from R51's definition). The stored memory
is in canonical form again: the form is the model's choice (log entry 4). -/
def Obligations.LoadAfterStore : Prop :=
  (∀ (m : Memory) (a k : Nat), m.readBytes a k < 2 ^ (8 * k) ∧
    ∀ i, i < k → m.readBytes a k / 2 ^ (8 * i) % 2 ^ 8 = (m.byte (a + i)).toNat) ∧
  ∀ (m m' : Memory) (a n v : Nat), m.wf = true → m.store a n v = .next m' →
    (∀ i, i < n → m'.byte (a + i) = BitVec.ofNat 8 (v / 2 ^ (8 * i))) ∧
    (∀ x, x < a ∨ a + n ≤ x → m'.byte x = m.byte x) ∧
    (∀ i k, i + k ≤ n → m'.readBytes (a + i) k = v / 2 ^ (8 * i) % 2 ^ (8 * k)) ∧ m'.wf = true

/-- R56, R58: an access of n > 0 bytes stops with AddressWrap when a byte address reaches 2^64, else with UnbackedAccess
when a byte is outside MEMMAP, else it goes on; at every alignment (R53). Which of the two comes first is the model's
choice (log entry 11), and so is the outcome's form (log entry 10). -/
def Obligations.AccessStops : Prop :=
  ∀ (m : Memory) (a n v : Nat), 0 < n →
    ((∃ i, i < n ∧ 2 ^ 64 ≤ a + i) → m.load a n = .fault .addressWrap ∧ m.store a n v = .fault .addressWrap) ∧
    ((∀ i, i < n → a + i < 2 ^ 64) → (∃ i, i < n ∧ m.backed (a + i) = false) →
      m.load a n = .fault .unbackedAccess ∧ m.store a n v = .fault .unbackedAccess) ∧
    ((∀ i, i < n → a + i < 2 ^ 64 ∧ m.backed (a + i) = true) →
      (∃ x, m.load a n = .next x) ∧ ∃ m', m.store a n v = .next m')

/-- R56, R58 at the commands that name their bytes in registers: if a byte the command would use is at or above 2^64 it
stops with AddressWrap, else if one is outside MEMMAP with UnbackedAccess. (Which comes first and the form of the outcome
are the model's choice, log entries 11 and 10.) -/
def Obligations.InaccessibleOperandStops : Prop :=
  ∀ (i : Instr) (s : State) (a n : Nat), operandBytes s i = some (a, n) → contextInUse s i ≠ some false → 0 < n →
    (2 ^ 64 < a + n → exec i s = .fault .addressWrap) ∧
    (a + n ≤ 2 ^ 64 → (∃ k, k < n ∧ s.mem.backed (a + k) = false) → exec i s = .fault .unbackedAccess)

/-! ### Field arithmetic (spec/40_field_arithmetic.md) -/

/-- R102: FADD always completes, with the sum reduced by the two carry corrections, congruent to x + y modulo p. -/
def Obligations.FaddResult : Prop :=
  ∀ (rd ra rb : Reg) (s : State), ∃ t v, exec (.fadd rd ra rb) s = .next t ∧ RegisterOnly s t rd v ∧
    v.toNat = addRule (s.reg ra).toNat (s.reg rb).toNat ∧
    v.toNat % Config.p = ((s.reg ra).toNat + (s.reg rb).toNat) % Config.p

/-- R103: FSUB always completes, with x − y reduced by the two borrow corrections, congruent to x − y modulo p. (The exact
value is that of R103's pseudocode, which the spec marks as derived from R102 and R101.) -/
def Obligations.FsubResult : Prop :=
  ∀ (rd ra rb : Reg) (s : State), ∃ t v, exec (.fsub rd ra rb) s = .next t ∧ RegisterOnly s t rd v ∧
    v.toNat = subRule (s.reg ra).toNat (s.reg rb).toNat ∧
    (v.toNat + (s.reg rb).toNat) % Config.p = (s.reg ra).toNat % Config.p

/-- R104: FNEG always completes; with r = x mod p the result is 0 if r = 0, else p − r: canonical, and FADD of x and it
is congruent to 0. -/
def Obligations.FnegResult : Prop :=
  ∀ (rd ra : Reg) (s : State), ∃ t v, exec (.fneg rd ra) s = .next t ∧ RegisterOnly s t rd v ∧
    v.toNat = (if (s.reg ra).toNat % Config.p = 0 then 0 else Config.p - (s.reg ra).toNat % Config.p) ∧
    (fieldAdd (s.reg ra) v).toNat % Config.p = 0

/-- R105: FMUL always completes, with the reduced 128-bit product, congruent to x·y modulo p. -/
def Obligations.FmulResult : Prop :=
  ∀ (rd ra rb : Reg) (s : State), ∃ t v, exec (.fmul rd ra rb) s = .next t ∧ RegisterOnly s t rd v ∧
    v.toNat = mulRule (s.reg ra).toNat (s.reg rb).toNat ∧
    v.toNat % Config.p = (s.reg ra).toNat * (s.reg rb).toNat % Config.p

/-- R106: FPRED always completes, with a value congruent to x modulo p; it is the canonical one. (Which representative it
is rests on decision D20 of the spec, spec/93_implementation_defined.md U23; log entry 13.) -/
def Obligations.FpredResult : Prop :=
  ∀ (rd ra : Reg) (s : State), ∃ t v, exec (.fpred rd ra) s = .next t ∧ RegisterOnly s t rd v ∧
    v.toNat = (s.reg ra).toNat % Config.p

/-- R107: FFIN always completes with the unique value in [0, p) congruent to x; applied to its own result it gives it
again. -/
def Obligations.FfinResult : Prop :=
  ∀ (rd ra : Reg) (s : State), ∃ t v, exec (.ffin rd ra) s = .next t ∧ RegisterOnly s t rd v ∧
    v.toNat = (s.reg ra).toNat % Config.p ∧ canon v = v

/-- R108: FINV always completes: with 0 for x ≡ 0, else with the unique y in (0, p) with x·y ≡ 1 modulo p. -/
def Obligations.FinvResult : Prop :=
  ∀ (rd ra : Reg) (s : State), ∃ t v, exec (.finv rd ra) s = .next t ∧ RegisterOnly s t rd v ∧
    ((s.reg ra).toNat % Config.p = 0 → v = 0) ∧
    ((s.reg ra).toNat % Config.p ≠ 0 →
      0 < v.toNat ∧ v.toNat < Config.p ∧ (s.reg ra).toNat * v.toNat % Config.p = 1 ∧
      ∀ y, y < Config.p → (s.reg ra).toNat * y % Config.p = 1 → y = v.toNat)

/-- R111: for all x, y in U64, FFIN of FMUL is the reference cross-check of the schoolbook path, and x·y mod p. -/
def Obligations.FmulReferenceCrossCheck : Prop :=
  ∀ x y : Word,
    (canon (fieldMul x y)).toNat =
      ((mul128 x y).1.toNat % Config.p * (2 ^ 32 - 1) + (mul128 x y).2.toNat % Config.p) % Config.p ∧
    (canon (fieldMul x y)).toNat = x.toNat * y.toNat % Config.p

/-- The laws of R109, through canon where they hold modulo p only: commutativity, associativity, distributivity, negation
and inverse, and the two pairs of R109 that differ bit for bit. -/
def Obligations.FieldLaws : Prop :=
  (∀ x y : Word, fieldAdd x y = fieldAdd y x ∧ fieldMul x y = fieldMul y x) ∧
  (∀ x y z : Word,
    canon (fieldAdd (fieldAdd x y) z) = canon (fieldAdd x (fieldAdd y z)) ∧
    canon (fieldMul (fieldMul x y) z) = canon (fieldMul x (fieldMul y z)) ∧
    canon (fieldMul x (fieldAdd y z)) = canon (fieldAdd (fieldMul x y) (fieldMul x z))) ∧
  (∀ x : Word, canon (fieldAdd (fieldNeg x) x) = 0 ∧ (canon x ≠ 0 → canon (fieldMul (fieldInv x) x) = 1)) ∧
  fieldMul (fieldMul 2 0xFFFFFFFFFFFFFFFF#64) Config.pWord = Config.pWord ∧
  fieldMul 2 (fieldMul 0xFFFFFFFFFFFFFFFF#64 Config.pWord) = 0 ∧
  fieldMul 0xFFFFFFFFFFFFFFFF#64 (fieldAdd 1 Config.pWord) = 0x00000000FFFFFFFE#64 ∧
  fieldAdd (fieldMul 0xFFFFFFFFFFFFFFFF#64 1) (fieldMul 0xFFFFFFFFFFFFFFFF#64 Config.pWord) = 0xFFFFFFFFFFFFFFFF#64

/-! ### Register and byte I/O (spec/41_register_and_byte_io.md) -/

/-- R131: SETI always completes with the immediate in rd. -/
def Obligations.SetiResult : Prop :=
  ∀ (rd : Reg) (imm : Word) (s : State), ∃ t, exec (.seti rd imm) s = .next t ∧ RegisterOnly s t rd imm

/-- R132: RDST always completes with ST: bit 0 EMPTY, bit 1 HALT, bits 6:4 FCAUSE, every other bit 0. -/
def Obligations.RdstResult : Prop :=
  ∀ (rd : Reg) (s : State), ∃ t v, exec (.rdst rd) s = .next t ∧ RegisterOnly s t rd v ∧
    ∀ i, v.getLsbD i =
      if i = 0 then s.st.empty else if i = 1 then s.st.halt
      else decide (4 ≤ i) && decide (i ≤ 6) && s.st.fcause.getLsbD (i - 4)

/-- R133, R134: LDU32 and LDU64 complete when their bytes may be used, at any alignment: byte i of rd is the byte at
x[ra] + i, little-endian, and the bytes above are 0. -/
def Obligations.FixedLoadResult : Prop :=
  ∀ (rd ra : Reg) (s : State),
    (s.mem.accessible (s.reg ra).toNat 4 = true → ∃ t v, exec (.ldu32 rd ra) s = .next t ∧ RegisterOnly s t rd v ∧
      ∀ i, i < 8 → (v >>> (8 * i)).setWidth 8 = if i < 4 then s.mem.byte ((s.reg ra).toNat + i) else 0#8) ∧
    (s.mem.accessible (s.reg ra).toNat 8 = true → ∃ t v, exec (.ldu64 rd ra) s = .next t ∧ RegisterOnly s t rd v ∧
      ∀ i, i < 8 → (v >>> (8 * i)).setWidth 8 = s.mem.byte ((s.reg ra).toNat + i))

/-- R135: LDB of 1 to 8 bytes completes when they may be used and zero-extends them; of 0 bytes, or more than 8, it
completes with 0 whatever the address. -/
def Obligations.LdbResult : Prop :=
  ∀ (rd ra rb : Reg) (s : State),
    (1 ≤ (s.reg rb).toNat → (s.reg rb).toNat ≤ 8 → s.mem.accessible (s.reg ra).toNat (s.reg rb).toNat = true →
      ∃ t v, exec (.ldb rd ra rb) s = .next t ∧ RegisterOnly s t rd v ∧
        ∀ i, i < 8 → (v >>> (8 * i)).setWidth 8 =
          if i < (s.reg rb).toNat then s.mem.byte ((s.reg ra).toNat + i) else 0#8) ∧
    ((s.reg rb).toNat = 0 ∨ 8 < (s.reg rb).toNat →
      ∃ t, exec (.ldb rd ra rb) s = .next t ∧ RegisterOnly s t rd 0)

/-- R136, R137: STU32 and STU64 complete when their bytes may be used: byte i of the value goes to x[ra] + i, every other
byte, every register, ST and the contexts are as before. -/
def Obligations.FixedStoreResult : Prop :=
  ∀ (ra rb : Reg) (s : State), s.mem.wf = true →
    (s.mem.accessible (s.reg ra).toNat 4 = true → ∃ t, exec (.stu32 ra rb) s = .next t ∧ Completed s t ∧
      t.st = s.st ∧ SameContexts s t ∧ Stored s t (s.reg ra).toNat 4 (s.reg rb).toNat) ∧
    (s.mem.accessible (s.reg ra).toNat 8 = true → ∃ t, exec (.stu64 ra rb) s = .next t ∧ Completed s t ∧
      t.st = s.st ∧ SameContexts s t ∧ Stored s t (s.reg ra).toNat 8 (s.reg rb).toNat)

/-- R138: STB of 1 to 8 bytes completes when they may be used and stores exactly that many; of 0 bytes, or more than 8,
it completes and changes no byte whatever the address. -/
def Obligations.StbResult : Prop :=
  ∀ (ra rb rc : Reg) (s : State), s.mem.wf = true →
    (1 ≤ (s.reg rb).toNat → (s.reg rb).toNat ≤ 8 → s.mem.accessible (s.reg ra).toNat (s.reg rb).toNat = true →
      ∃ t, exec (.stb ra rb rc) s = .next t ∧ Completed s t ∧ t.st = s.st ∧ SameContexts s t ∧
        Stored s t (s.reg ra).toNat (s.reg rb).toNat (s.reg rc).toNat) ∧
    ((s.reg rb).toNat = 0 ∨ 8 < (s.reg rb).toNat →
      ∃ t, exec (.stb ra rb rc) s = .next t ∧ Completed s t ∧ t.st = s.st ∧ SameContexts s t ∧ SameMemory s t)

/-! ### Sizing helpers (R153, R154, R171, R175, R192, R196) -/

/-- R153, R175, R196: ADWSB, WRCOUNT and BRMAX always complete, with 8·ceil(floor(n/8)/63), floor(8·L/61) and
ceil(8·L/60), each below 2^64. -/
def Obligations.TotalSizingHelpers : Prop :=
  ∀ (rd ra : Reg) (s : State),
    (∃ t q, exec (.adwsb rd ra) s = .next t ∧ IsCeil ((s.reg ra).toNat / 8) 63 q ∧ 8 * q < 2 ^ 64 ∧
      RegisterOnly s t rd (BitVec.ofNat 64 (8 * q))) ∧
    (∃ t q, exec (.wrcount rd ra) s = .next t ∧ 61 * q ≤ 8 * (s.reg ra).toNat ∧ 8 * (s.reg ra).toNat < 61 * (q + 1) ∧
      q < 2 ^ 64 ∧ RegisterOnly s t rd (BitVec.ofNat 64 q)) ∧
    (∃ t q, exec (.brmax rd ra) s = .next t ∧ IsCeil (8 * (s.reg ra).toNat) 60 q ∧ q < 2 ^ 64 ∧
      RegisterOnly s t rd (BitVec.ofNat 64 q))

/-- R154, R171, R192: ADMOB, WWNEED and BWMAX complete with 8·ceil(n/8) + 8·ceil(floor(n/8)/63) and ceil(61·k/8) when that
is below 2^64, and are refused (SizeOverflow) when it is not. -/
def Obligations.PartialSizingHelpers : Prop :=
  ∀ (rd ra : Reg) (s : State) (a b q : Nat),
    IsCeil (s.reg ra).toNat 8 a → IsCeil ((s.reg ra).toNat / 8) 63 b → IsCeil (61 * (s.reg ra).toNat) 8 q →
    (8 * a + 8 * b < 2 ^ 64 →
      ∃ t, exec (.admob rd ra) s = .next t ∧ RegisterOnly s t rd (BitVec.ofNat 64 (8 * a + 8 * b))) ∧
    (2 ^ 64 ≤ 8 * a + 8 * b → exec (.admob rd ra) s = .refused .sizeOverflow) ∧
    (q < 2 ^ 64 →
      (∃ t, exec (.wwneed rd ra) s = .next t ∧ RegisterOnly s t rd (BitVec.ofNat 64 q)) ∧
      ∃ t, exec (.bwmax rd ra) s = .next t ∧ RegisterOnly s t rd (BitVec.ofNat 64 q)) ∧
    (2 ^ 64 ≤ q → exec (.wwneed rd ra) s = .refused .sizeOverflow ∧ exec (.bwmax rd ra) s = .refused .sizeOverflow)

/-! ### The codec commands -/

/-- R155, R172, R193, R176, R197: the setup and begin commands always complete, from any state of the context, and set
their context as the rule says; only BRBEGIN writes ST, and clears EMPTY. No memory is touched. The
cleared bit `past` of WW and BW, and that of WR and BR, is the model's own and in no rule (log entries 8 and 9). -/
def Obligations.BeginResults : Prop :=
  ∀ (ra rb : Reg) (s : State),
    (∃ t, exec (.adsetup ra) s = .next t ∧ Completed s t ∧ SameMemory s t ∧ t.st = s.st ∧
      SameContexts { s with adr := { active := true, auxBase := s.reg ra, auxWords := 0, acc := 0, cnt := 0 } } t) ∧
    (∃ t, exec (.wwbegin ra) s = .next t ∧ Completed s t ∧ SameMemory s t ∧ t.st = s.st ∧
      SameContexts { s with ww := ⟨true, s.reg ra, s.reg ra, 0, 0, false⟩ } t) ∧
    (∃ t, exec (.bwbegin ra) s = .next t ∧ Completed s t ∧ SameMemory s t ∧ t.st = s.st ∧
      SameContexts { s with bw := ⟨true, s.reg ra, s.reg ra, 0, 0, false⟩ } t) ∧
    (∃ t, exec (.wrbegin ra rb) s = .next t ∧ Completed s t ∧ SameMemory s t ∧ t.st = s.st ∧
      SameContexts { s with wr := { active := true, base := s.reg ra, len := s.reg rb, pos := 0, past := false } } t) ∧
    (∃ t, exec (.brbegin ra rb) s = .next t ∧ Completed s t ∧ SameMemory s t ∧ t.st = { s.st with empty := false } ∧
      SameContexts { s with br := { active := true, base := s.reg ra, len := s.reg rb, pos := 0, past := false } } t)

/-- R238: ADRD8, ADRDF, ADFLUSH, WWWRITE, WWFLUSH, WRREAD, BWWRITE, BWFLUSH and BRREAD on an idle context are refused
(ContextIdle), whatever their operands. R233 gives a refusal no priority: that this reason is named where another would
apply too is the model's choice, read from the order of the pseudocode of R156, R157, R158, R173, R174, R177, R194, R195
and R198 (log entry 11). -/
def Obligations.IdleContextRefused : Prop :=
  ∀ (i : Instr) (s : State), contextInUse s i = some false → exec i s = .refused .contextIdle

/-- R156, R159: ADRD8 on an idle context is refused, whatever else holds (the order is the model's choice, log entry 11).
On an active context a word that is not ambiguous is emitted unchanged and changes nothing else; an ambiguous one is
emitted with bit 63 clear and that bit goes to bit CNT of ACC; the 63rd bit writes ACC to the next auxiliary word and
empties it. -/
def Obligations.Adrd8Result : Prop :=
  (∀ (rd ra : Reg) (s : State), s.adr.active = false → exec (.adrd8 rd ra) s = .refused .contextIdle) ∧
  ∀ (rd ra : Reg) (s : State) (w : Nat), s.mem.wf = true → adrLegal s.adr → s.adr.active = true →
    s.mem.accessible (s.reg ra).toNat 8 = true → w = s.mem.readBytes (s.reg ra).toNat 8 →
    (¬ambiguousNat w →
      ∃ t, exec (.adrd8 rd ra) s = .next t ∧ RegisterOnly s t rd (BitVec.ofNat 64 w)) ∧
    (ambiguousNat w → s.adr.cnt.toNat < 62 →
      ∃ t, exec (.adrd8 rd ra) s = .next t ∧ Delivered s t rd (BitVec.ofNat 64 (w % 2 ^ 63)) ∧ t.st = s.st ∧
        SameMemory s t ∧ SameContexts { s with adr := t.adr } t ∧ t.adr.active = true ∧
        t.adr.auxBase = s.adr.auxBase ∧ t.adr.auxWords = s.adr.auxWords ∧
        t.adr.acc.toNat = s.adr.acc.toNat + w / 2 ^ 63 * 2 ^ s.adr.cnt.toNat ∧
        t.adr.cnt.toNat = s.adr.cnt.toNat + 1) ∧
    (ambiguousNat w → s.adr.cnt.toNat = 62 →
      s.mem.accessible (s.adr.auxBase.toNat + 8 * s.adr.auxWords.toNat) 8 = true →
      ∃ t, exec (.adrd8 rd ra) s = .next t ∧ Delivered s t rd (BitVec.ofNat 64 (w % 2 ^ 63)) ∧ t.st = s.st ∧
        Stored s t (s.adr.auxBase.toNat + 8 * s.adr.auxWords.toNat) 8 (s.adr.acc.toNat + w / 2 ^ 63 * 2 ^ 62) ∧
        SameContexts { s with adr := t.adr } t ∧ t.adr.active = true ∧ t.adr.auxBase = s.adr.auxBase ∧
        t.adr.auxWords.toNat = s.adr.auxWords.toNat + 1 ∧ t.adr.acc = 0 ∧ t.adr.cnt = 0)

/-- R151: every word ADRD8 emits is below p. -/
def Obligations.PackedWordsAreCanonical : Prop :=
  ∀ (rd ra : Reg) (s t : State), exec (.adrd8 rd ra) s = .next t → (t.reg rd).toNat < Config.p

/-- R157: ADRDF of 0 to 7 bytes on an active context completes with the zero-padded bytes; of 0 bytes whatever the
address. On an idle context it is refused, and else with more than 7 bytes (which of the two is named when both hold is the
model's choice, log entry 11). -/
def Obligations.AdrdfResult : Prop :=
  ∀ (rd ra rb : Reg) (s : State),
    (s.adr.active = false → exec (.adrdf rd ra rb) s = .refused .contextIdle) ∧
    (s.adr.active = true → 7 < (s.reg rb).toNat → exec (.adrdf rd ra rb) s = .refused .tailTooLong) ∧
    (s.adr.active = true → (s.reg rb).toNat ≤ 7 →
      (s.reg rb).toNat = 0 ∨ s.mem.accessible (s.reg ra).toNat (s.reg rb).toNat = true →
      ∃ t v, exec (.adrdf rd ra rb) s = .next t ∧ RegisterOnly s t rd v ∧
        ∀ i, i < 8 → (v >>> (8 * i)).setWidth 8 =
          if i < (s.reg rb).toNat then s.mem.byte ((s.reg ra).toNat + i) else 0#8)

/-- R158: ADFLUSH on an active context writes ACC as one more auxiliary word if a bit is pending and nothing otherwise,
delivers the number of auxiliary words, and leaves the context idle; on an idle context it is refused, whatever else
holds (the order is the model's choice, log entry 11). -/
def Obligations.AdflushResult : Prop :=
  (∀ (rd : Reg) (s : State), s.adr.active = false → exec (.adflush rd) s = .refused .contextIdle) ∧
  ∀ (rd : Reg) (s : State), s.mem.wf = true → s.adr.active = true →
    (s.adr.cnt = 0 →
      ∃ t, exec (.adflush rd) s = .next t ∧ Delivered s t rd s.adr.auxWords ∧ t.st = s.st ∧ SameMemory s t ∧
        SameContexts { s with adr := { s.adr with active := false } } t) ∧
    (s.adr.cnt ≠ 0 → s.mem.accessible (s.adr.auxBase.toNat + 8 * s.adr.auxWords.toNat) 8 = true →
      ∃ t, exec (.adflush rd) s = .next t ∧ Delivered s t rd (BitVec.ofNat 64 (s.adr.auxWords.toNat + 1)) ∧
        t.st = s.st ∧ Stored s t (s.adr.auxBase.toNat + 8 * s.adr.auxWords.toNat) 8 s.adr.acc.toNat ∧
        SameContexts { s with adr := t.adr } t ∧ t.adr.active = false ∧ t.adr.auxBase = s.adr.auxBase ∧
        t.adr.auxWords.toNat = s.adr.auxWords.toNat + 1 ∧ t.adr.acc = 0 ∧ t.adr.cnt = 0)

/-- R173: WWWRITE of a value below 2^61 on an active context puts it above the CNT buffered bits; 64 or more bits write
the low 64 at PTR, which moves on by 8, and the rest stays buffered. On an idle context it is refused, and else with a
value at or above 2^61 (the order of the two is the model's, log entry 11). A word that ends at 2^64 leaves PTR at 0 and
the model's bit `past` set; with it set the next word stops with AddressWrap (the model's reading of R58, log entries 8
and 10). -/
def Obligations.WwwriteResult : Prop :=
  (∀ (ra : Reg) (s : State), (s.ww.active = false → exec (.wwwrite ra) s = .refused .contextIdle) ∧
    (s.ww.active = true → 2 ^ 61 ≤ (s.reg ra).toNat → exec (.wwwrite ra) s = .refused .wordTooWide)) ∧
  ∀ (ra : Reg) (s : State) (A : Nat), s.mem.wf = true → writerLegal s.ww → s.ww.active = true →
    (s.reg ra).toNat < 2 ^ 61 → A = s.ww.acc.toNat + (s.reg ra).toNat * 2 ^ s.ww.cnt.toNat →
    (s.ww.cnt.toNat + 61 < 64 →
      ∃ t, exec (.wwwrite ra) s = .next t ∧ Completed s t ∧ t.st = s.st ∧ SameMemory s t ∧
        SameContexts { s with ww := t.ww } t ∧ t.ww.active = true ∧ t.ww.base = s.ww.base ∧ t.ww.ptr = s.ww.ptr ∧
        t.ww.past = s.ww.past ∧ t.ww.acc.toNat = A ∧ t.ww.cnt.toNat = s.ww.cnt.toNat + 61) ∧
    (64 ≤ s.ww.cnt.toNat + 61 → s.ww.past = false → s.mem.accessible s.ww.ptr.toNat 8 = true →
      ∃ t, exec (.wwwrite ra) s = .next t ∧ Completed s t ∧ t.st = s.st ∧ Stored s t s.ww.ptr.toNat 8 (A % 2 ^ 64) ∧
        SameContexts { s with ww := t.ww } t ∧ t.ww.active = true ∧ t.ww.base = s.ww.base ∧
        t.ww.ptr = s.ww.ptr + 8 ∧ (t.ww.past = true ↔ s.ww.ptr.toNat + 8 = 2 ^ 64) ∧
        t.ww.acc.toNat = A / 2 ^ 64 ∧ t.ww.cnt.toNat = s.ww.cnt.toNat + 61 - 64) ∧
    (64 ≤ s.ww.cnt.toNat + 61 → s.ww.past = true → exec (.wwwrite ra) s = .fault .addressWrap)

/-- R194: BWWRITE is WWWRITE with width 60 for the word M60 = 2^60 − 1 and 61 for every other. (The order of the two
refusals and the bit `past` of a stream that has reached 2^64 are the model's choice, log entries 11, 8 and 10.) -/
def Obligations.BwwriteResult : Prop :=
  (∀ (ra : Reg) (s : State), (s.bw.active = false → exec (.bwwrite ra) s = .refused .contextIdle) ∧
    (s.bw.active = true → 2 ^ 61 ≤ (s.reg ra).toNat → exec (.bwwrite ra) s = .refused .wordTooWide)) ∧
  ∀ (ra : Reg) (s : State) (A w : Nat), s.mem.wf = true → writerLegal s.bw → s.bw.active = true →
    (s.reg ra).toNat < 2 ^ 61 → A = s.bw.acc.toNat + (s.reg ra).toNat * 2 ^ s.bw.cnt.toNat →
    w = (if (s.reg ra).toNat = 2 ^ 60 - 1 then 60 else 61) →
    (s.bw.cnt.toNat + w < 64 →
      ∃ t, exec (.bwwrite ra) s = .next t ∧ Completed s t ∧ t.st = s.st ∧ SameMemory s t ∧
        SameContexts { s with bw := t.bw } t ∧ t.bw.active = true ∧ t.bw.base = s.bw.base ∧ t.bw.ptr = s.bw.ptr ∧
        t.bw.past = s.bw.past ∧ t.bw.acc.toNat = A ∧ t.bw.cnt.toNat = s.bw.cnt.toNat + w) ∧
    (64 ≤ s.bw.cnt.toNat + w → s.bw.past = false → s.mem.accessible s.bw.ptr.toNat 8 = true →
      ∃ t, exec (.bwwrite ra) s = .next t ∧ Completed s t ∧ t.st = s.st ∧ Stored s t s.bw.ptr.toNat 8 (A % 2 ^ 64) ∧
        SameContexts { s with bw := t.bw } t ∧ t.bw.active = true ∧ t.bw.base = s.bw.base ∧
        t.bw.ptr = s.bw.ptr + 8 ∧ (t.bw.past = true ↔ s.bw.ptr.toNat + 8 = 2 ^ 64) ∧
        t.bw.acc.toNat = A / 2 ^ 64 ∧ t.bw.cnt.toNat = s.bw.cnt.toNat + w - 64) ∧
    (64 ≤ s.bw.cnt.toNat + w → s.bw.past = true → exec (.bwwrite ra) s = .fault .addressWrap)

/-- R174: WWFLUSH on an active context writes the nb = ceil(CNT/8) trailing bytes of ACC at PTR (none if nb = 0),
delivers (PTR − BASE) + nb and leaves the context idle; on an idle context it is refused, whatever else holds (the order is
the model's, log entry 11). A stream that fills all 2^64 addresses has a length that no register holds: it delivers a free
value (log entry 8). A stream that has reached 2^64 (the model's bit `past`) with bytes to write stops with AddressWrap:
the model's choice, log entries 8 and 10. -/
def Obligations.WwflushResult : Prop :=
  (∀ (rd : Reg) (s : State), s.ww.active = false → exec (.wwflush rd) s = .refused .contextIdle) ∧
  ∀ (rd : Reg) (s : State) (nb : Nat), s.mem.wf = true → s.ww.active = true → IsCeil s.ww.cnt.toNat 8 nb →
    (nb = 0 ∨ s.ww.past = false ∧ s.mem.accessible s.ww.ptr.toNat nb = true →
      ∃ t v, exec (.wwflush rd) s = .next t ∧ Delivered s t rd v ∧
        (¬(s.ww.base = 0 ∧ s.ww.address + nb = 2 ^ 64) → v = s.ww.ptr - s.ww.base + BitVec.ofNat 64 nb) ∧
        t.st = s.st ∧ Stored s t s.ww.ptr.toNat nb s.ww.acc.toNat ∧
        SameContexts { s with ww := { s.ww with active := false } } t) ∧
    (nb ≠ 0 → s.ww.past = true → exec (.wwflush rd) s = .fault .addressWrap)

/-- R195: BWFLUSH likewise on its own context, with the same choices of the model (log entries 8, 10 and 11). -/
def Obligations.BwflushResult : Prop :=
  (∀ (rd : Reg) (s : State), s.bw.active = false → exec (.bwflush rd) s = .refused .contextIdle) ∧
  ∀ (rd : Reg) (s : State) (nb : Nat), s.mem.wf = true → s.bw.active = true → IsCeil s.bw.cnt.toNat 8 nb →
    (nb = 0 ∨ s.bw.past = false ∧ s.mem.accessible s.bw.ptr.toNat nb = true →
      ∃ t v, exec (.bwflush rd) s = .next t ∧ Delivered s t rd v ∧
        (¬(s.bw.base = 0 ∧ s.bw.address + nb = 2 ^ 64) → v = s.bw.ptr - s.bw.base + BitVec.ofNat 64 nb) ∧
        t.st = s.st ∧ Stored s t s.bw.ptr.toNat nb s.bw.acc.toNat ∧
        SameContexts { s with bw := { s.bw with active := false } } t) ∧
    (nb ≠ 0 → s.bw.past = true → exec (.bwflush rd) s = .fault .addressWrap)

/-- R177: WRREAD on an active context with 61 more bits, whose bytes may be used, delivers the integer whose bit i is
stream bit POS + i for i < 61, and POS moves on by 61. On an idle context it is refused, and else with fewer bits left
(which of the two is named when both hold is the model's choice, log entry 11). The position is POS while the model's bit
`past` is clear; with that bit set, which no legal context has, it is beyond the buffer (log entry 9). -/
def Obligations.WrreadResult : Prop :=
  ∀ (rd : Reg) (s : State),
    (s.wr.active = false → exec (.wrread rd) s = .refused .contextIdle) ∧
    (s.wr.active = true → 8 * s.wr.len.toNat < s.wr.position + 61 → exec (.wrread rd) s = .refused .readPastEnd) ∧
    (s.wr.active = true → s.wr.position + 61 ≤ 8 * s.wr.len.toNat →
      s.mem.accessible (s.wr.base.toNat + s.wr.position / 8) ((s.wr.position + 60) / 8 + 1 - s.wr.position / 8) = true →
      ∃ t v, exec (.wrread rd) s = .next t ∧ Delivered s t rd v ∧
        IsStreamBits s.mem s.wr.base.toNat s.wr.len.toNat s.wr.position 61 v.toNat ∧ t.st = s.st ∧ SameMemory s t ∧
        SameContexts { s with wr := { s.wr with pos := s.wr.pos + 61, past := false } } t)

/-- R198: BRREAD on an idle context is refused, whatever else holds (the model's order, log entry 11). Empty: with no data
bit left it delivers 0, sets EMPTY and changes nothing else. Success: with a data bit left, and the bytes of the chunk
inside the buffer usable, it takes the 61-bit chunk c, zero past the end of the buffer; if its low 60 bits are all ones it
delivers M60 and POS moves on by 60, else it delivers c and POS moves on by 61; EMPTY is cleared, nothing else changes.
(With LEN within 8 of 2^64 the position may reach 2^67: POS then comes round and the model's bit `past` is set, so that
every further BRREAD is Empty; log entry 9.) -/
def Obligations.BrreadResult : Prop :=
  ∀ (rd : Reg) (s : State),
    (s.br.active = false → exec (.brread rd) s = .refused .contextIdle) ∧
    (s.br.active = true → 8 * s.br.len.toNat ≤ s.br.position →
      ∃ t, exec (.brread rd) s = .next t ∧ Delivered s t rd 0 ∧ t.st = { s.st with empty := true } ∧ SameMemory s t ∧
        SameContexts s t) ∧
    (s.br.active = true → s.br.position < 8 * s.br.len.toNat →
      s.mem.accessible (s.br.base.toNat + s.br.position / 8)
        (min (s.br.len.toNat - 1) ((s.br.position + 60) / 8) + 1 - s.br.position / 8) = true →
      ∃ t c, exec (.brread rd) s = .next t ∧
        IsStreamBits s.mem s.br.base.toNat s.br.len.toNat s.br.position 61 c ∧
        Delivered s t rd (if c % 2 ^ 60 = 2 ^ 60 - 1 then BitVec.ofNat 64 (2 ^ 60 - 1) else BitVec.ofNat 64 c) ∧
        t.st = { s.st with empty := false } ∧ SameMemory s t ∧
        SameContexts { s with br := { s.br with pos := t.br.pos, past := t.br.past } } t ∧
        t.br.position = s.br.position + if c % 2 ^ 60 = 2 ^ 60 - 1 then 60 else 61)

/-! ### The region engine (spec/45_region_engine.md) -/

/-- R212, R213: MULRGN and MADRGN are refused with a coefficient at or above p, else when the output size reaches 2^64,
else when two of the three footprints meet; on every path. (R212 makes the three tests before everything else; which of
them is named when several hold is the model's choice, in the order R212 lists them, log entry 11.) -/
def Obligations.RegionRefusals : Prop :=
  ∀ (rd ra rb rc re rf : Reg) (s : State) (o : RegionOperands), o = regionOperands s ra rb rc re rf →
    (Config.p ≤ o.coeff.toNat → exec (.mulrgn rd ra rb rc re rf) s = .refused .coeffOutOfRange ∧
      exec (.madrgn rd ra rb rc re rf) s = .refused .coeffOutOfRange) ∧
    (o.coeff.toNat < Config.p → 2 ^ 64 ≤ maxOutputBytes o.size →
      exec (.mulrgn rd ra rb rc re rf) s = .refused .sizeOverflow ∧
      exec (.madrgn rd ra rb rc re rf) s = .refused .sizeOverflow) ∧
    (o.coeff.toNat < Config.p → maxOutputBytes o.size < 2 ^ 64 →
      (∃ x, (o.data ≤ x ∧ x < o.data + o.size ∧ o.work.toNat ≤ x ∧ x < o.work.toNat + workspaceBytes o.size) ∨
        (o.data ≤ x ∧ x < o.data + o.size ∧ o.out ≤ x ∧ x < o.out + maxOutputBytes o.size) ∨
        (o.work.toNat ≤ x ∧ x < o.work.toNat + workspaceBytes o.size ∧ o.out ≤ x ∧
          x < o.out + maxOutputBytes o.size)) →
      exec (.mulrgn rd ra rb rc re rf) s = .refused .regionOverlap ∧
      exec (.madrgn rd ra rb rc re rf) s = .refused .regionOverlap)

/-- R214, the shortcuts: with coefficient 0 MULRGN zeroes the rounded length R of the output; with coefficient 1 it
copies the n data bytes and zero-pads to R; both deliver R and change no other byte. -/
def Obligations.MulrgnShortcuts : Prop :=
  ∀ (rd ra rb rc re rf : Reg) (s : State) (o : RegionOperands) (R : Nat), s.mem.wf = true →
    o = regionOperands s ra rb rc re rf → (∃ q, IsCeil o.size 8 q ∧ R = 8 * q) →
    maxOutputBytes o.size < 2 ^ 64 → o.disjoint = true → s.mem.accessible o.out R = true →
    (o.coeff = 0 →
      ∃ t, exec (.mulrgn rd ra rb rc re rf) s = .next t ∧ Delivered s t rd (BitVec.ofNat 64 R) ∧ t.st = s.st ∧
        SameContexts s t ∧ Stored s t o.out R 0) ∧
    (o.coeff = 1 → s.mem.accessible o.data o.size = true →
      ∃ t, exec (.mulrgn rd ra rb rc re rf) s = .next t ∧ Delivered s t rd (BitVec.ofNat 64 R) ∧ t.st = s.st ∧
        SameContexts s t ∧ t.mem.map = s.mem.map ∧
        (∀ i, i < R → t.mem.byte (o.out + i) = if i < o.size then s.mem.byte (o.data + i) else 0#8) ∧
        ∀ x, x < o.out ∨ o.out + R ≤ x → t.mem.byte x = s.mem.byte x)

/-- R215 with coefficient 0: MADRGN delivers the rounded length and accesses no memory. -/
def Obligations.MadrgnZeroResult : Prop :=
  ∀ (rd ra rb rc re rf : Reg) (s : State) (o : RegionOperands) (q : Nat), o = regionOperands s ra rb rc re rf →
    IsCeil o.size 8 q → maxOutputBytes o.size < 2 ^ 64 → o.disjoint = true → o.coeff = 0 →
    ∃ t, exec (.madrgn rd ra rb rc re rf) s = .next t ∧ RegisterOnly s t rd (BitVec.ofNat 64 (8 * q))

/-- R216, R217: on the general path, with B the number of ambiguous full words and A = ceil(B/63), MULRGN and MADRGN complete
when the n data bytes, A auxiliary words and R + 8·A output bytes may be used. They deliver R + 8·A; every output word is the product of the packed word, the
tail or the auxiliary word with the coefficient (for MADRGN added to what was there); the auxiliary words hold the
overflow bits in order; no other byte, register, context or flag changes. (A = ceil(B/63) is an inference the spec marks
as derived, in R158 and R217.) -/
def Obligations.RegionGeneralResult : Prop :=
  ∀ (rd ra rb rc re rf : Reg) (s : State) (o : RegionOperands) (A : Nat), s.mem.wf = true →
    o = regionOperands s ra rb rc re rf → o.coeff.toNat < Config.p → maxOutputBytes o.size < 2 ^ 64 →
    o.disjoint = true → IsCeil (overflowBitsOf s.mem o).length 63 A → s.mem.accessible o.data o.size = true →
    s.mem.accessible o.work.toNat (8 * A) = true →
    s.mem.accessible o.out (roundedLength o.size + 8 * A) = true →
    (o.coeff ≠ 0 → o.coeff ≠ 1 →
      ∃ t, exec (.mulrgn rd ra rb rc re rf) s = .next t ∧
        Delivered s t rd (BitVec.ofNat 64 (roundedLength o.size + 8 * A)) ∧ t.st = s.st ∧ SameContexts s t ∧
        RegionResult false o s.mem t.mem A) ∧
    (o.coeff ≠ 0 →
      ∃ t, exec (.madrgn rd ra rb rc re rf) s = .next t ∧
        Delivered s t rd (BitVec.ofNat 64 (roundedLength o.size + 8 * A)) ∧ t.st = s.st ∧ SameContexts s t ∧
        RegionResult true o s.mem t.mem A)

/-! ### Round trips -/

/-- R178: k words below 2^61, written from WWBEGIN on and flushed, are a stream of ceil(61·k/8) bytes; reading word i of
that buffer gives v[i] back. WWFLUSH delivers the length where it is below 2^64 (log entry 8). -/
def Obligations.WordCodecRoundTrip : Prop :=
  ∀ (m m1 m2 : Memory) (base : Word) (vs : List Word) (c : WriterContext), m.wf = true →
    (∀ v, v ∈ vs → v.toNat < 2 ^ 61) → writeWords m (writerBegin base) vs = .next (m1, c) →
    writerFlush m1 c = .next m2 →
    IsCeil (61 * vs.length) 8 (streamLength c) ∧
    (streamLength c < 2 ^ 64 → ∀ n, (c.total n).toNat = streamLength c) ∧
    ∀ i (hi : i < vs.length), streamBits m2 base.toNat (streamLength c) (61 * i) 61 = .next (vs[i]'hi).toNat

/-- R199: the words BRREAD delivers from n bytes, written with BWWRITE and flushed into memory m2, reproduce the n bytes
exactly; the number of bytes written is between n and BWMAX(BRMAX(n)), and every one after the n-th is 0. BWFLUSH delivers
that number where it is below 2^64 (log entry 8). (The bytes are read before anything is written, from memory m0; the buffers may be
anywhere.) -/
def Obligations.ByteCodecRoundTrip : Prop :=
  ∀ (m0 m m1 m2 : Memory) (b n : Nat) (base : Word) (vs : List Word) (c : WriterContext), m.wf = true →
    ByteWords m0 b n 0 vs → writeEscaped m (writerBegin base) vs = .next (m1, c) → writerFlush m1 c = .next m2 →
    n ≤ streamLength c ∧ streamLength c ≤ streamBytes (ceilDiv (8 * n) 60) ∧
    (streamLength c < 2 ^ 64 → ∀ k, (c.total k).toNat = streamLength c) ∧
    (∀ i, i < n → m2.byte (base.toNat + i) = m0.byte (b + i)) ∧
    ∀ i, n ≤ i → i < streamLength c → m2.byte (base.toNat + i) = 0#8
end

