-- ==== Sys2Proof/Laws/Outcome.lean ====
section
/-! SUPPORT. Inversion of the sequencing operations: what it takes for a chain of operations to answer a next state. -/

namespace Sys2Proof.Machine

@[simp] theorem andThen_next {α β : Type} (a : α) (f : α → Result β) : andThen (.next a) f = f a := rfl

@[simp] theorem andThen_fault {α β : Type} (e : Fault) (f : α → Result β) : andThen (.fault e) f = .fault e := rfl

@[simp] theorem andThen_refused {α β : Type} (e : Refusal) (f : α → Result β) : andThen (.refused e) f = .refused e := rfl

theorem andThen_eq_next {α β : Type} {r : Result α} {f : α → Result β} {b : β} :
    andThen r f = .next b ↔ ∃ a, r = .next a ∧ f a = .next b := by
  cases r <;> simp [andThen]

theorem andThen_eq_fault {α β : Type} {r : Result α} {f : α → Result β} {e : Fault} :
    andThen r f = .fault e ↔ r = .fault e ∨ ∃ a, r = .next a ∧ f a = .fault e := by
  cases r <;> simp [andThen]

theorem andThen_eq_refused {α β : Type} {r : Result α} {f : α → Result β} {e : Refusal} :
    andThen r f = .refused e ↔ r = .refused e ∨ ∃ a, r = .next a ∧ f a = .refused e := by
  cases r <;> simp [andThen]

theorem refuseIf_eq_next {c : Bool} {e : Refusal} {u : Unit} : refuseIf c e = .next u ↔ c = false := by
  cases c <;> simp [refuseIf]

@[simp] theorem refuseIf_false (e : Refusal) : refuseIf false e = .next () := rfl

@[simp] theorem refuseIf_true (e : Refusal) : refuseIf true e = .refused e := rfl

/-- `ceilDiv` is the ceiling of the quotient (R9). -/
theorem ceilDiv_le_iff {a b q : Nat} (hb : 0 < b) : ceilDiv a b ≤ q ↔ a ≤ q * b := by
  unfold ceilDiv
  rw [Nat.div_le_iff_le_mul_add_pred hb, Nat.mul_comm]
  omega

end Sys2Proof.Machine
end

