-- ==== Sys2Proof/Laws/Memory.lean ====
section
/-! SUPPORT. The laws of memory (spec/20_memory.md R51, R56, R58): reading what was written, the frame of a write, the
canonical form, and what a load and a store can do. -/

namespace Sys2Proof.Machine

/-! ### One byte -/

theorem lookupCell_of_above {a low : Nat} {cs : List Host.Cell} (h : cellsAbove low cs = true) (ha : a < low) :
    lookupCell a cs = Config.unlistedByte := by
  induction cs generalizing low with
  | nil => rfl
  | cons c rest ih =>
    obtain ⟨k, v⟩ := c
    simp only [cellsAbove, Bool.and_eq_true, decide_eq_true_eq] at h
    have hk : a ≠ k := by omega
    simp only [lookupCell, hk, if_false]
    exact ih h.2 (by omega)

theorem cellsAbove_mono {low low' : Nat} {cs : List Host.Cell} (h : cellsAbove low cs = true) (hl : low' ≤ low) :
    cellsAbove low' cs = true := by
  cases cs with
  | nil => rfl
  | cons c rest =>
    simp only [cellsAbove, Bool.and_eq_true, decide_eq_true_eq] at h ⊢
    exact ⟨⟨by omega, h.1.2⟩, h.2⟩

theorem lookupCell_insertCell_self {a low : Nat} {b : Byte} {cs : List Host.Cell} (h : cellsAbove low cs = true) :
    lookupCell a (insertCell a b cs) = b := by
  induction cs generalizing low with
  | nil => by_cases hb : b = Config.unlistedByte <;> simp [insertCell, lookupCell, hb]
  | cons c rest ih =>
    obtain ⟨k, v⟩ := c
    have h' := h
    simp only [cellsAbove, Bool.and_eq_true, decide_eq_true_eq] at h'
    unfold insertCell
    split
    · rename_i hlt
      split
      · rename_i hb
        have hk : a ≠ k := by omega
        simp only [lookupCell, hk, if_false, hb]
        exact lookupCell_of_above h'.2 (by omega)
      · simp [lookupCell]
    · split
      · rename_i hk
        split
        · rename_i hb
          rw [hb]
          exact lookupCell_of_above h'.2 (by omega)
        · simp [lookupCell]
      · rename_i hlt hk
        simp only [lookupCell, hk, if_false]
        exact ih h'.2

theorem lookupCell_insertCell_of_ne {a x : Nat} {b : Byte} {cs : List Host.Cell} (hx : x ≠ a) :
    lookupCell x (insertCell a b cs) = lookupCell x cs := by
  induction cs with
  | nil => by_cases hb : b = Config.unlistedByte <;> simp [insertCell, lookupCell, hb, hx]
  | cons c rest ih =>
    obtain ⟨k, v⟩ := c
    unfold insertCell
    split
    · split
      · rfl
      · simp [lookupCell, hx]
    · split
      · rename_i hk
        subst hk
        split <;> simp [lookupCell, hx]
      · simp only [lookupCell, ih]

theorem cellsAbove_insertCell {a low : Nat} {b : Byte} {cs : List Host.Cell} (h : cellsAbove low cs = true)
    (hl : low ≤ a) : cellsAbove low (insertCell a b cs) = true := by
  induction cs generalizing low with
  | nil => by_cases hb : b = Config.unlistedByte <;> simp [insertCell, cellsAbove, hb, hl]
  | cons c rest ih =>
    obtain ⟨k, v⟩ := c
    have h' := h
    simp only [cellsAbove, Bool.and_eq_true, decide_eq_true_eq] at h'
    unfold insertCell
    split
    · split
      · exact h
      · rename_i hlt hb
        simp only [cellsAbove, Bool.and_eq_true, decide_eq_true_eq]
        exact ⟨⟨hl, hb⟩, ⟨by omega, h'.1.2⟩, h'.2⟩
    · split
      · rename_i hk
        split
        · exact cellsAbove_mono h'.2 (by omega)
        · rename_i hb
          simp only [cellsAbove, Bool.and_eq_true, decide_eq_true_eq]
          exact ⟨⟨hl, hb⟩, hk ▸ h'.2⟩
      · rename_i hlt hk
        simp only [cellsAbove, Bool.and_eq_true, decide_eq_true_eq]
        exact ⟨h'.1, ih h'.2 (by omega)⟩

theorem all_insertCell {p : Host.Cell → Bool} {a : Nat} {b : Byte} {cs : List Host.Cell} (h : cs.all p = true)
    (hp : p (a, b) = true) : (insertCell a b cs).all p = true := by
  induction cs with
  | nil => by_cases hb : b = Config.unlistedByte <;> simp [insertCell, hb, hp]
  | cons c rest ih =>
    obtain ⟨k, v⟩ := c
    have h' := h
    simp only [List.all_cons, Bool.and_eq_true] at h'
    unfold insertCell
    split
    · split
      · exact h
      · simp only [List.all_cons, Bool.and_eq_true]
        exact ⟨hp, h'⟩
    · split
      · split
        · exact h'.2
        · simp only [List.all_cons, Bool.and_eq_true]
          exact ⟨hp, h'.2⟩
      · simp only [List.all_cons, Bool.and_eq_true]
        exact ⟨h'.1, ih h'.2⟩

theorem wf_iff {m : Memory} :
    m.wf = true ↔ cellsAbove 0 m.cells = true ∧ m.cells.all (fun c => decide (c.1 < Config.addressSpace)) = true := by
  simp only [Memory.wf, Bool.and_eq_true]

@[simp] theorem setByte_map (m : Memory) (a : Nat) (b : Byte) : (m.setByte a b).map = m.map := rfl

theorem byte_setByte_self {m : Memory} (h : m.wf = true) (a : Nat) (b : Byte) : (m.setByte a b).byte a = b :=
  lookupCell_insertCell_self (wf_iff.mp h).1

theorem byte_setByte_of_ne (m : Memory) {a x : Nat} (b : Byte) (h : x ≠ a) : (m.setByte a b).byte x = m.byte x :=
  lookupCell_insertCell_of_ne h

/-- The canonical form is kept by a byte write inside the address space. -/
theorem setByte_keeps_wf {m : Memory} (h : m.wf = true) {a : Nat} (ha : a < Config.addressSpace) (b : Byte) :
    (m.setByte a b).wf = true :=
  wf_iff.mpr ⟨cellsAbove_insertCell (wf_iff.mp h).1 (Nat.zero_le a), all_insertCell (wf_iff.mp h).2 (decide_eq_true ha)⟩

/-! ### Several bytes -/

@[simp] theorem writeBytes_map (m : Memory) (a n v : Nat) : (m.writeBytes a n v).map = m.map := by
  induction n generalizing m a v with
  | zero => rfl
  | succ n ih => simp [Memory.writeBytes, ih]

/-- The canonical form is kept by a write inside the address space. -/
theorem writeBytes_keeps_wf {m : Memory} (h : m.wf = true) {a n : Nat} (ha : a + n ≤ Config.addressSpace) (v : Nat) :
    (m.writeBytes a n v).wf = true := by
  induction n generalizing m a v with
  | zero => exact h
  | succ n ih => exact ih (setByte_keeps_wf h (by omega) _) (by omega) _

/-- The frame of a write: a byte outside the n bytes from a reads as before (R51). -/
theorem byte_writeBytes_outside (m : Memory) {a n x : Nat} (v : Nat) (h : x < a ∨ a + n ≤ x) :
    (m.writeBytes a n v).byte x = m.byte x := by
  induction n generalizing m a v with
  | zero => rfl
  | succ n ih =>
    rw [Memory.writeBytes, ih _ _ (by omega), byte_setByte_of_ne m _ (by omega)]

/-- Byte i of the value goes to address a + i (R51). -/
theorem byte_writeBytes_inside {m : Memory} (hm : m.wf = true) {a n i : Nat} (v : Nat) (hi : i < n)
    (ha : a + n ≤ Config.addressSpace) : (m.writeBytes a n v).byte (a + i) = BitVec.ofNat 8 (v / 2 ^ (8 * i)) := by
  induction n generalizing m a v i with
  | zero => omega
  | succ n ih =>
    rw [Memory.writeBytes]
    cases i with
    | zero =>
      rw [byte_writeBytes_outside _ _ (by omega), Nat.add_zero, byte_setByte_self hm]
      simp
    | succ i =>
      have e : a + (i + 1) = a + 1 + i := by omega
      rw [e, ih (setByte_keeps_wf hm (by omega) _) _ (by omega) (by omega), Nat.div_div_eq_div_mul, ← Nat.pow_add]
      congr 3
      omega

theorem readBytes_lt (m : Memory) (a n : Nat) : m.readBytes a n < 2 ^ (8 * n) := by
  induction n generalizing a with
  | zero => simp [Memory.readBytes]
  | succ n ih =>
    have h1 := ih (a + 1)
    have h2 := (m.byte a).isLt
    have e : 2 ^ (8 * (n + 1)) = 2 ^ 8 * 2 ^ (8 * n) := by rw [← Nat.pow_add]; congr 1; omega
    rw [Memory.readBytes, e]
    omega

/-- Two memories that agree on the n bytes read the same integer there. -/
theorem readBytes_congr {m m' : Memory} {a n : Nat} (h : ∀ i, i < n → m'.byte (a + i) = m.byte (a + i)) :
    m'.readBytes a n = m.readBytes a n := by
  induction n generalizing a with
  | zero => rfl
  | succ n ih =>
    have h0 := h 0 (by omega)
    simp only [Nat.add_zero] at h0
    rw [Memory.readBytes, Memory.readBytes, h0, ih]
    intro i hi
    have := h (i + 1) (by omega)
    rwa [show a + (i + 1) = a + 1 + i by omega] at this

/-! ### Accesses of a command -/

@[simp] theorem backedRange_congr_map {m m' : Memory} (h : m'.map = m.map) (a n : Nat) :
    m'.backedRange a n = m.backedRange a n := by
  induction n generalizing a with
  | zero => rfl
  | succ n ih => simp only [Memory.backedRange, Memory.backed, h, ih]

theorem accessible_iff {m : Memory} {a n : Nat} :
    m.accessible a n = true ↔ a + n ≤ Config.addressSpace ∧ m.backedRange a n = true := by
  simp only [Memory.accessible, Bool.and_eq_true, decide_eq_true_eq]

/-- An access goes on exactly when its bytes may be used. -/
theorem checkAccess_eq_next {m : Memory} {a n : Nat} {u : Unit} :
    m.checkAccess a n = .next u ↔ m.accessible a n = true := by
  rw [accessible_iff]
  unfold Memory.checkAccess
  split
  · rename_i h
    exact ⟨nofun, fun ⟨h', _⟩ => absurd h' (by omega)⟩
  · rename_i h
    split
    · rename_i hb
      exact ⟨fun _ => ⟨by omega, hb⟩, fun _ => rfl⟩
    · rename_i hb
      exact ⟨nofun, fun ⟨_, h'⟩ => absurd h' hb⟩

/-- An access never ends in a refusal. -/
theorem checkAccess_ne_refused (m : Memory) (a n : Nat) (e : Refusal) : m.checkAccess a n ≠ .refused e := by
  unfold Memory.checkAccess
  split <;> (try split) <;> simp

/-- All that a load can do when it answers. -/
theorem load_eq_next {m : Memory} {a n v : Nat} :
    m.load a n = .next v ↔ m.accessible a n = true ∧ v = m.readBytes a n := by
  unfold Memory.load
  rw [andThen_eq_next]
  constructor
  · rintro ⟨u, hu, hv⟩
    injection hv with hv
    exact ⟨checkAccess_eq_next.mp hu, hv.symm⟩
  · rintro ⟨ha, rfl⟩
    exact ⟨(), checkAccess_eq_next.mpr ha, rfl⟩

/-- All that a store can do when it answers. -/
theorem store_eq_next {m m' : Memory} {a n v : Nat} :
    m.store a n v = .next m' ↔ m.accessible a n = true ∧ m' = m.writeBytes a n v := by
  unfold Memory.store
  rw [andThen_eq_next]
  constructor
  · rintro ⟨u, hu, hv⟩
    injection hv with hv
    exact ⟨checkAccess_eq_next.mp hu, hv.symm⟩
  · rintro ⟨ha, rfl⟩
    exact ⟨(), checkAccess_eq_next.mpr ha, rfl⟩

theorem store_map {m m' : Memory} {a n v : Nat} (h : m.store a n v = .next m') : m'.map = m.map := by
  obtain ⟨-, rfl⟩ := store_eq_next.mp h
  exact writeBytes_map m a n v

/-- Every store of a command keeps the canonical form. -/
theorem store_keeps_wf {m m' : Memory} {a n v : Nat} (hm : m.wf = true) (h : m.store a n v = .next m') :
    m'.wf = true := by
  obtain ⟨ha, rfl⟩ := store_eq_next.mp h
  exact writeBytes_keeps_wf hm (accessible_iff.mp ha).1 v

/-- MEMMAP alone decides which accesses go on (R56). -/
theorem accessible_congr_map {m m' : Memory} (h : m'.map = m.map) (a n : Nat) :
    m'.accessible a n = m.accessible a n := by
  simp only [Memory.accessible, backedRange_congr_map h]

/-- The memory after reset has the canonical form. -/
theorem reset_memory_wf : State.reset.mem.wf = true := by decide

end Sys2Proof.Machine
end

