-- ==== Sys2Proof/Laws/Codec.lean ====
section
/-! SUPPORT. What each shared operation of the loads and stores, of the packer and of the 61-bit streams can do when it
answers. -/

namespace Sys2Proof.Machine

/-! ### Loads, stores and sizes -/

theorem loadInto_eq_next {rd : Reg} {a n : Nat} {s t : State} :
    loadInto rd a n s = .next t ↔
      s.mem.accessible a n = true ∧ t = s.deliver rd (toWord (s.mem.readBytes a n)) := by
  unfold loadInto
  rw [andThen_eq_next]
  constructor
  · rintro ⟨v, hv, ht⟩
    obtain ⟨ha, rfl⟩ := load_eq_next.mp hv
    injection ht with ht
    exact ⟨ha, ht.symm⟩
  · rintro ⟨ha, rfl⟩
    exact ⟨_, load_eq_next.mpr ⟨ha, rfl⟩, rfl⟩

theorem storeFrom_eq_next {a n : Nat} {v : Word} {s t : State} :
    storeFrom a n v s = .next t ↔
      s.mem.accessible a n = true ∧ t = { s with mem := s.mem.writeBytes a n v.toNat }.complete := by
  unfold storeFrom
  rw [andThen_eq_next]
  constructor
  · rintro ⟨m, hm, ht⟩
    obtain ⟨ha, rfl⟩ := store_eq_next.mp hm
    injection ht with ht
    exact ⟨ha, ht.symm⟩
  · rintro ⟨ha, rfl⟩
    exact ⟨_, store_eq_next.mpr ⟨ha, rfl⟩, rfl⟩

theorem deliverSize_eq_next {rd : Reg} {v : Nat} {s t : State} :
    deliverSize rd v s = .next t ↔ v < Config.addressSpace ∧ t = s.deliver rd (toWord v) := by
  unfold deliverSize
  rw [andThen_eq_next]
  constructor
  · rintro ⟨u, hu, ht⟩
    have h := refuseIf_eq_next.mp hu
    injection ht with ht
    exact ⟨by simpa using h, ht.symm⟩
  · rintro ⟨hv, rfl⟩
    exact ⟨(), refuseIf_eq_next.mpr (by simpa using hv), rfl⟩

/-! ### The packer -/

theorem packerFlushWord_eq_next {m : Memory} {c : AdrContext} {r : Memory × AdrContext} :
    packerFlushWord m c = .next r ↔
      m.accessible c.auxAddress 8 = true ∧
        r = (m.writeBytes c.auxAddress 8 c.acc.toNat, { c with auxWords := c.auxWords + 1, acc := 0, cnt := 0 }) := by
  unfold packerFlushWord
  rw [andThen_eq_next]
  constructor
  · rintro ⟨m', hm, hr⟩
    obtain ⟨ha, rfl⟩ := store_eq_next.mp hm
    injection hr with hr
    exact ⟨ha, hr.symm⟩
  · rintro ⟨ha, rfl⟩
    exact ⟨_, store_eq_next.mpr ⟨ha, rfl⟩, rfl⟩

/-- Appending a bit either only buffers it, or writes the full auxiliary word. -/
theorem packerAppend_cases {m : Memory} {c : AdrContext} {bit : Bool} {r : Memory × AdrContext}
    (h : packerAppend m c bit = .next r) :
    (c.cnt.toNat + 1 < 63 ∧
        r = (m, { c with acc := c.accWith bit, cnt := BitVec.ofNat 6 (c.cnt.toNat + 1) })) ∨
      (63 ≤ c.cnt.toNat + 1 ∧ m.accessible c.auxAddress 8 = true ∧
        r = (m.writeBytes c.auxAddress 8 (c.accWith bit).toNat,
          { c with auxWords := c.auxWords + 1, acc := 0, cnt := 0 })) := by
  unfold packerAppend at h
  split at h
  · rename_i hc
    exact .inr ⟨hc, packerFlushWord_eq_next.mp h⟩
  · rename_i hc
    injection h with h
    exact .inl ⟨Nat.not_le.mp hc, h.symm⟩

/-- Packing one word: a word that is not ambiguous is emitted as it is; an ambiguous one appends its bit 63. -/
theorem packerRead_cases {m : Memory} {c : AdrContext} {a : Nat} {r : Memory × AdrContext × Word}
    (h : packerRead m c a = .next r) :
    m.accessible a 8 = true ∧
      ((ambiguous (BitVec.ofNat 64 (m.readBytes a 8)) = false ∧ r = (m, c, BitVec.ofNat 64 (m.readBytes a 8))) ∨
        (ambiguous (BitVec.ofNat 64 (m.readBytes a 8)) = true ∧
          ∃ q, packerAppend m c (BitVec.ofNat 64 (m.readBytes a 8)).msb = .next q ∧
            r = (q.1, q.2, packedWord (BitVec.ofNat 64 (m.readBytes a 8))))) := by
  unfold packerRead at h
  rw [andThen_eq_next] at h
  obtain ⟨v, hv, h⟩ := h
  obtain ⟨ha, rfl⟩ := load_eq_next.mp hv
  refine ⟨ha, ?_⟩
  dsimp only at h
  split at h
  · rename_i hw
    obtain ⟨q, hq, hr⟩ := andThen_eq_next.mp h
    injection hr with hr
    exact .inr ⟨hw, q, hq, hr.symm⟩
  · rename_i hw
    injection h with h
    exact .inl ⟨by simpa using hw, h.symm⟩

theorem packerFlush_cases {m : Memory} {c : AdrContext} {r : Memory × AdrContext}
    (h : packerFlush m c = .next r) :
    (c.cnt = 0 ∧ r = (m, c)) ∨ (c.cnt ≠ 0 ∧ packerFlushWord m c = .next r) := by
  unfold packerFlush at h
  split at h
  · rename_i hc
    injection h with h
    exact .inl ⟨hc, h.symm⟩
  · rename_i hc
    exact .inr ⟨hc, h⟩

theorem packerTail_eq_next {m : Memory} {a n : Nat} {w : Word} :
    packerTail m a n = .next w ↔
      (n = 0 ∨ m.accessible a n = true) ∧ w = BitVec.ofNat 64 (m.readBytes a n) := by
  unfold packerTail
  split
  · rename_i hn
    subst hn
    constructor
    · intro h
      injection h with h
      exact ⟨.inl rfl, h.symm⟩
    · rintro ⟨-, rfl⟩
      rfl
  · rename_i hn
    rw [andThen_eq_next]
    constructor
    · rintro ⟨v, hv, hw⟩
      obtain ⟨ha, rfl⟩ := load_eq_next.mp hv
      injection hw with hw
      exact ⟨.inr ha, hw.symm⟩
    · rintro ⟨ha, rfl⟩
      exact ⟨_, load_eq_next.mpr ⟨ha.resolve_left hn, rfl⟩, rfl⟩

/-- What the packer keeps: any property of memory that every store keeps. -/
theorem packerRead_keeps {P : Memory → Prop}
    (hP : ∀ {m m' : Memory} {a n v : Nat}, P m → m.store a n v = .next m' → P m')
    {m : Memory} {c : AdrContext} {a : Nat} {r : Memory × AdrContext × Word} (hm : P m)
    (h : packerRead m c a = .next r) : P r.1 := by
  obtain ⟨-, ⟨-, rfl⟩ | ⟨-, q, hq, rfl⟩⟩ := packerRead_cases h
  · exact hm
  · obtain ⟨-, rfl⟩ | ⟨-, ha, rfl⟩ := packerAppend_cases hq
    · exact hm
    · exact hP hm (store_eq_next.mpr ⟨ha, rfl⟩)

theorem packerFlush_keeps {P : Memory → Prop}
    (hP : ∀ {m m' : Memory} {a n v : Nat}, P m → m.store a n v = .next m' → P m')
    {m : Memory} {c : AdrContext} {r : Memory × AdrContext} (hm : P m) (h : packerFlush m c = .next r) : P r.1 := by
  obtain ⟨-, rfl⟩ | ⟨-, hf⟩ := packerFlush_cases h
  · exact hm
  · obtain ⟨ha, rfl⟩ := packerFlushWord_eq_next.mp hf
    exact hP hm (store_eq_next.mpr ⟨ha, rfl⟩)

/-! ### The writers -/

@[simp] theorem writerBegin_address (base : Word) : (writerBegin base).address = base.toNat := rfl

/-- Until the stream reaches 2^64 a writer's address is PTR. -/
theorem writerAddress_of_not_past {c : WriterContext} (h : c.past = false) : c.address = c.ptr.toNat := by
  simp [WriterContext.address, h]

/-- Once the stream has reached 2^64 no byte may be written. -/
theorem writerAddress_of_past {c : WriterContext} (h : c.past = true) : Config.addressSpace ≤ c.address := by
  simp [WriterContext.address, h]

theorem writerCheck_eq_next {c : WriterContext} {v : Word} {u : Unit} :
    writerCheck c v = .next u ↔ c.active = true ∧ v.toNat < 2 ^ 61 := by
  unfold writerCheck
  rw [andThen_eq_next]
  constructor
  · rintro ⟨_, h1, h2⟩
    exact ⟨by simpa using refuseIf_eq_next.mp h1, Nat.not_le.mp (of_decide_eq_false (refuseIf_eq_next.mp h2))⟩
  · rintro ⟨h1, h2⟩
    exact ⟨(), refuseIf_eq_next.mpr (by simpa using h1), refuseIf_eq_next.mpr (decide_eq_false (Nat.not_le.mpr h2))⟩

/-- Appending a word either only buffers its bits, or writes one 64-bit word and keeps the remainder. -/
theorem writerAppend_cases {m : Memory} {c : WriterContext} {v : Word} {width : Nat} {r : Memory × WriterContext}
    (h : writerAppend m c v width = .next r) :
    (c.cnt.toNat + width < 64 ∧
        r = (m, { c with acc := (c.accWith v).setWidth 64, cnt := BitVec.ofNat 6 (c.cnt.toNat + width) })) ∨
      (64 ≤ c.cnt.toNat + width ∧ m.accessible c.address 8 = true ∧
        r = (m.writeBytes c.address 8 ((c.accWith v).setWidth 64).toNat,
          { c with ptr := c.ptr + 8, past := decide (Config.addressSpace ≤ c.address + 8),
                   acc := (c.accWith v >>> 64).setWidth 64, cnt := BitVec.ofNat 6 (c.cnt.toNat + width - 64) })) := by
  unfold writerAppend at h
  split at h
  · rename_i hc
    obtain ⟨m', hm, hr⟩ := andThen_eq_next.mp h
    obtain ⟨ha, rfl⟩ := store_eq_next.mp hm
    injection hr with hr
    exact .inr ⟨hc, ha, hr.symm⟩
  · rename_i hc
    injection h with h
    exact .inl ⟨Nat.not_le.mp hc, h.symm⟩

theorem writerFlush_eq_next {m m' : Memory} {c : WriterContext} :
    writerFlush m c = .next m' ↔
      (c.trailing = 0 ∨ m.accessible c.address c.trailing = true) ∧ m' = m.writeBytes c.address c.trailing c.acc.toNat := by
  unfold writerFlush
  split
  · rename_i hc
    rw [hc]
    constructor
    · intro h
      injection h with h
      exact ⟨.inl rfl, h.symm⟩
    · rintro ⟨-, rfl⟩
      rfl
  · rename_i hc
    rw [store_eq_next]
    simp only [hc, false_or]

/-! ### The readers -/

/-- A window of the stream that answers is read from bytes inside the buffer. -/
theorem streamBits_eq_next {m : Memory} {b l pos n v : Nat} :
    streamBits m b l pos n = .next v ↔
      m.accessible (b + pos / 8) (min l (ceilDiv (pos + n) 8) - pos / 8) = true ∧
        v = m.readBytes (b + pos / 8) (min l (ceilDiv (pos + n) 8) - pos / 8) / 2 ^ (pos % 8) % 2 ^ n := by
  unfold streamBits
  rw [andThen_eq_next]
  constructor
  · rintro ⟨u, hu, hv⟩
    obtain ⟨ha, rfl⟩ := load_eq_next.mp hu
    injection hv with hv
    exact ⟨ha, hv.symm⟩
  · rintro ⟨ha, rfl⟩
    exact ⟨_, load_eq_next.mpr ⟨ha, rfl⟩, rfl⟩

theorem readerChunk_lt {m : Memory} {c : ReaderContext} {v : Nat} (h : readerChunk m c = .next v) : v < 2 ^ 61 := by
  obtain ⟨-, rfl⟩ := streamBits_eq_next.mp h
  exact Nat.mod_lt _ (by decide)

@[simp] theorem readerBegin_position (base len : Word) : (readerBegin base len).position = 0 := rfl

/-- Until the position reaches 2^67 it is POS. -/
theorem readerPosition_of_not_past {c : ReaderContext} (h : c.past = false) : c.position = c.pos.toNat := by
  simp [ReaderContext.position, h]

/-- While a data bit is unread the position has not reached 2^67. -/
theorem reader_not_past {c : ReaderContext} (h : c.position < 8 * c.len.toNat) : c.past = false := by
  have := c.len.isLt
  simp only [ReaderContext.position, Config.streamPositions] at h
  split at h
  · omega
  · simp_all

/-- Moving on by a chunk of a reader with an unread data bit moves its position on by the chunk's width, and `past` says
whether it has reached 2^67. -/
theorem readerAdvance {c : ReaderContext} {w : Nat} (h : c.position < 8 * c.len.toNat) (hw : w ≤ 61) :
    (c.advance w).position = c.position + w ∧ ((c.advance w).past = true ↔ 2 ^ 67 ≤ c.position + w) := by
  have hl := c.len.isLt
  have hp := readerPosition_of_not_past (reader_not_past h)
  refine ⟨?_, by simp [ReaderContext.advance]⟩
  show (c.pos + BitVec.ofNat 67 w).toNat + (if decide (Config.streamPositions ≤ c.position + w) then _ else 0) = _
  rw [BitVec.toNat_add, BitVec.toNat_ofNat]
  simp only [decide_eq_true_eq, Config.streamPositions]
  split <;> omega

end Sys2Proof.Machine
end

