-- ==== Sys2Proof/Laws/Decode.lean ====
section
/-! SUPPORT. The fields of an encoded first word (spec/30_encoding.md R71) read back as they were put in. -/

namespace Sys2Proof

theorem firstWord_toNat {op : Nat} (h : op < 256) (rd ra rb rc re rf : Reg) :
    (firstWord op rd ra rb rc re rf).toNat =
      op + rd.val * 2 ^ 8 + ra.val * 2 ^ 12 + rb.val * 2 ^ 16 + rc.val * 2 ^ 20 + re.val * 2 ^ 24
        + rf.val * 2 ^ 28 := by
  rw [firstWord, BitVec.toNat_ofNat]
  apply Nat.mod_eq_of_lt
  omega

theorem opcodeOf_firstWord {op : Nat} (h : op < 256) (rd ra rb rc re rf : Reg) :
    opcodeOf (firstWord op rd ra rb rc re rf) = op := by
  rw [opcodeOf, firstWord_toNat h]
  omega

theorem regField_val (w : CommandWord) (lo : Nat) : (regField w lo).val = w.toNat / 2 ^ lo % 16 := rfl

theorem fieldRd_firstWord {op : Nat} (h : op < 256) (rd ra rb rc re rf : Reg) :
    fieldRd (firstWord op rd ra rb rc re rf) = rd := by
  apply Fin.ext
  rw [fieldRd, regField_val, firstWord_toNat h]
  omega

theorem fieldRa_firstWord {op : Nat} (h : op < 256) (rd ra rb rc re rf : Reg) :
    fieldRa (firstWord op rd ra rb rc re rf) = ra := by
  apply Fin.ext
  rw [fieldRa, regField_val, firstWord_toNat h]
  omega

theorem fieldRb_firstWord {op : Nat} (h : op < 256) (rd ra rb rc re rf : Reg) :
    fieldRb (firstWord op rd ra rb rc re rf) = rb := by
  apply Fin.ext
  rw [fieldRb, regField_val, firstWord_toNat h]
  omega

theorem fieldRc_firstWord {op : Nat} (h : op < 256) (rd ra rb rc re rf : Reg) :
    fieldRc (firstWord op rd ra rb rc re rf) = rc := by
  apply Fin.ext
  rw [fieldRc, regField_val, firstWord_toNat h]
  omega

theorem fieldRe_firstWord {op : Nat} (h : op < 256) (rd ra rb rc re rf : Reg) :
    fieldRe (firstWord op rd ra rb rc re rf) = re := by
  apply Fin.ext
  rw [fieldRe, regField_val, firstWord_toNat h]
  omega

theorem fieldRf_firstWord {op : Nat} (h : op < 256) (rd ra rb rc re rf : Reg) :
    fieldRf (firstWord op rd ra rb rc re rf) = rf := by
  apply Fin.ext
  rw [fieldRf, regField_val, firstWord_toNat h]
  omega

/-- A first word has the length its opcode asks for (R70). -/
theorem commandLength_firstWord {op : Nat} (h : op < 256) (rd ra rb rc re rf : Reg) :
    commandLength (firstWord op rd ra rb rc re rf) = if op = 0x10 then 3 else 1 := by
  rw [commandLength, opcodeOf_firstWord h]

end Sys2Proof
end

