-- ==== Sys2Proof/Laws/Issue.lean ====
section
/-! SUPPORT. What the input amounts to: words up to the last one, a host store or a reset among them. -/

namespace Sys2Proof.Machine

@[simp] theorem asInput_nil : asInput [] = [] := rfl

@[simp] theorem asInput_cons (w : CommandWord) (ws : List CommandWord) : asInput (w :: ws) = .word w :: asInput ws := rfl

@[simp] theorem asInput_append (ws vs : List CommandWord) : asInput (ws ++ vs) = asInput ws ++ asInput vs :=
  List.map_append

/-- As many words as were asked for are the command's, and nothing after them. -/
theorem takeWords_words (ws vs : List CommandWord) (rest : List HostInput) :
    takeWords ws vs.length (asInput vs ++ rest) = .command (ws ++ vs) rest := by
  induction vs generalizing ws with
  | nil => simp [takeWords]
  | cons v vs ih => simp [takeWords, ih]

/-- A host store before the last word comes first; the words stay. -/
theorem takeWords_hostStore {vs : List CommandWord} {more : Nat} (h : vs.length < more) (ws : List CommandWord)
    (a : Nat) (b : Byte) (rest : List HostInput) :
    takeWords ws more (asInput vs ++ .hostStore a b :: rest) = .hostStore a b (asInput (ws ++ vs) ++ rest) := by
  induction vs generalizing ws more with
  | nil =>
    obtain ⟨n, rfl⟩ := Nat.exists_eq_succ_of_ne_zero (Nat.ne_of_gt h)
    simp [takeWords]
  | cons v vs ih =>
    obtain ⟨n, rfl⟩ := Nat.exists_eq_succ_of_ne_zero (Nat.ne_of_gt (Nat.lt_of_le_of_lt (Nat.zero_le _) h))
    simp [takeWords, ih (Nat.lt_of_succ_lt_succ h)]

/-- A reset before the last word breaks the command. -/
theorem takeWords_reset {vs : List CommandWord} {more : Nat} (h : vs.length < more) (ws : List CommandWord)
    (rest : List HostInput) : takeWords ws more (asInput vs ++ .reset :: rest) = .broken := by
  induction vs generalizing ws more with
  | nil =>
    obtain ⟨n, rfl⟩ := Nat.exists_eq_succ_of_ne_zero (Nat.ne_of_gt h)
    rfl
  | cons v vs ih =>
    obtain ⟨n, rfl⟩ := Nat.exists_eq_succ_of_ne_zero (Nat.ne_of_gt (Nat.lt_of_le_of_lt (Nat.zero_le _) h))
    exact ih (Nat.lt_of_succ_lt_succ h) (ws ++ [v])

end Sys2Proof.Machine
end

