-- ==== Sys2Proof/Laws/PerInstr.lean ====
section
/-! SUPPORT. Facts about each instruction as syntax, one lemma per constructor. -/

namespace Sys2Proof.Laws

open Sys2Proof.Machine

/-- The words of an instruction, presented to the core, are taken as one command, whole, and nothing after them
(spec/30_encoding.md R70, spec/10_state.md R21). -/
def TakenWhole.Statement (i : Instr) : Prop :=
  ∀ rest : List HostInput, nextIssue (asInput (encode i) ++ rest) = .command (encode i) rest

/-- A one-word command is taken whole when its opcode is not SETI's. -/
theorem taken_one {op : Nat} (h : op < 256) (hs : op ≠ 0x10) (rd ra rb rc re rf : Reg) (rest : List HostInput) :
    nextIssue (asInput [firstWord op rd ra rb rc re rf] ++ rest) = .command [firstWord op rd ra rb rc re rf] rest := by
  simp [asInput, nextIssue, commandLength_firstWord h, hs, takeWords]

theorem TakenWhole.fadd (rd ra rb : Reg) : TakenWhole.Statement (.fadd rd ra rb) :=
  taken_one (by decide) (by decide) _ _ _ _ _ _

theorem TakenWhole.fsub (rd ra rb : Reg) : TakenWhole.Statement (.fsub rd ra rb) :=
  taken_one (by decide) (by decide) _ _ _ _ _ _

theorem TakenWhole.fneg (rd ra : Reg) : TakenWhole.Statement (.fneg rd ra) :=
  taken_one (by decide) (by decide) _ _ _ _ _ _

theorem TakenWhole.fmul (rd ra rb : Reg) : TakenWhole.Statement (.fmul rd ra rb) :=
  taken_one (by decide) (by decide) _ _ _ _ _ _

theorem TakenWhole.fpred (rd ra : Reg) : TakenWhole.Statement (.fpred rd ra) :=
  taken_one (by decide) (by decide) _ _ _ _ _ _

theorem TakenWhole.ffin (rd ra : Reg) : TakenWhole.Statement (.ffin rd ra) :=
  taken_one (by decide) (by decide) _ _ _ _ _ _

theorem TakenWhole.finv (rd ra : Reg) : TakenWhole.Statement (.finv rd ra) :=
  taken_one (by decide) (by decide) _ _ _ _ _ _

theorem TakenWhole.seti (rd : Reg) (imm : Word) : TakenWhole.Statement (.seti rd imm) := fun rest => by
  simp [encode, asInput, nextIssue, commandLength_firstWord, takeWords]

theorem TakenWhole.rdst (rd : Reg) : TakenWhole.Statement (.rdst rd) :=
  taken_one (by decide) (by decide) _ _ _ _ _ _

theorem TakenWhole.ldu32 (rd ra : Reg) : TakenWhole.Statement (.ldu32 rd ra) :=
  taken_one (by decide) (by decide) _ _ _ _ _ _

theorem TakenWhole.ldu64 (rd ra : Reg) : TakenWhole.Statement (.ldu64 rd ra) :=
  taken_one (by decide) (by decide) _ _ _ _ _ _

theorem TakenWhole.ldb (rd ra rb : Reg) : TakenWhole.Statement (.ldb rd ra rb) :=
  taken_one (by decide) (by decide) _ _ _ _ _ _

theorem TakenWhole.stu32 (ra rb : Reg) : TakenWhole.Statement (.stu32 ra rb) :=
  taken_one (by decide) (by decide) _ _ _ _ _ _

theorem TakenWhole.stu64 (ra rb : Reg) : TakenWhole.Statement (.stu64 ra rb) :=
  taken_one (by decide) (by decide) _ _ _ _ _ _

theorem TakenWhole.stb (ra rb rc : Reg) : TakenWhole.Statement (.stb ra rb rc) :=
  taken_one (by decide) (by decide) _ _ _ _ _ _

theorem TakenWhole.adwsb (rd ra : Reg) : TakenWhole.Statement (.adwsb rd ra) :=
  taken_one (by decide) (by decide) _ _ _ _ _ _

theorem TakenWhole.admob (rd ra : Reg) : TakenWhole.Statement (.admob rd ra) :=
  taken_one (by decide) (by decide) _ _ _ _ _ _

theorem TakenWhole.adsetup (ra : Reg) : TakenWhole.Statement (.adsetup ra) :=
  taken_one (by decide) (by decide) _ _ _ _ _ _

theorem TakenWhole.adrd8 (rd ra : Reg) : TakenWhole.Statement (.adrd8 rd ra) :=
  taken_one (by decide) (by decide) _ _ _ _ _ _

theorem TakenWhole.adrdf (rd ra rb : Reg) : TakenWhole.Statement (.adrdf rd ra rb) :=
  taken_one (by decide) (by decide) _ _ _ _ _ _

theorem TakenWhole.adflush (rd : Reg) : TakenWhole.Statement (.adflush rd) :=
  taken_one (by decide) (by decide) _ _ _ _ _ _

theorem TakenWhole.wwneed (rd ra : Reg) : TakenWhole.Statement (.wwneed rd ra) :=
  taken_one (by decide) (by decide) _ _ _ _ _ _

theorem TakenWhole.wwbegin (ra : Reg) : TakenWhole.Statement (.wwbegin ra) :=
  taken_one (by decide) (by decide) _ _ _ _ _ _

theorem TakenWhole.wwwrite (ra : Reg) : TakenWhole.Statement (.wwwrite ra) :=
  taken_one (by decide) (by decide) _ _ _ _ _ _

theorem TakenWhole.wwflush (rd : Reg) : TakenWhole.Statement (.wwflush rd) :=
  taken_one (by decide) (by decide) _ _ _ _ _ _

theorem TakenWhole.wrcount (rd ra : Reg) : TakenWhole.Statement (.wrcount rd ra) :=
  taken_one (by decide) (by decide) _ _ _ _ _ _

theorem TakenWhole.wrbegin (ra rb : Reg) : TakenWhole.Statement (.wrbegin ra rb) :=
  taken_one (by decide) (by decide) _ _ _ _ _ _

theorem TakenWhole.wrread (rd : Reg) : TakenWhole.Statement (.wrread rd) :=
  taken_one (by decide) (by decide) _ _ _ _ _ _

theorem TakenWhole.bwmax (rd ra : Reg) : TakenWhole.Statement (.bwmax rd ra) :=
  taken_one (by decide) (by decide) _ _ _ _ _ _

theorem TakenWhole.bwbegin (ra : Reg) : TakenWhole.Statement (.bwbegin ra) :=
  taken_one (by decide) (by decide) _ _ _ _ _ _

theorem TakenWhole.bwwrite (ra : Reg) : TakenWhole.Statement (.bwwrite ra) :=
  taken_one (by decide) (by decide) _ _ _ _ _ _

theorem TakenWhole.bwflush (rd : Reg) : TakenWhole.Statement (.bwflush rd) :=
  taken_one (by decide) (by decide) _ _ _ _ _ _

theorem TakenWhole.brmax (rd ra : Reg) : TakenWhole.Statement (.brmax rd ra) :=
  taken_one (by decide) (by decide) _ _ _ _ _ _

theorem TakenWhole.brbegin (ra rb : Reg) : TakenWhole.Statement (.brbegin ra rb) :=
  taken_one (by decide) (by decide) _ _ _ _ _ _

theorem TakenWhole.brread (rd : Reg) : TakenWhole.Statement (.brread rd) :=
  taken_one (by decide) (by decide) _ _ _ _ _ _

theorem TakenWhole.mulrgn (rd ra rb rc re rf : Reg) : TakenWhole.Statement (.mulrgn rd ra rb rc re rf) :=
  taken_one (by decide) (by decide) _ _ _ _ _ _

theorem TakenWhole.madrgn (rd ra rb rc re rf : Reg) : TakenWhole.Statement (.madrgn rd ra rb rc re rf) :=
  taken_one (by decide) (by decide) _ _ _ _ _ _

end Sys2Proof.Laws
end

