-- ==== Sys2Proof/Laws/Region.lean ====
section
/-! SUPPORT. What the operations of the region engine can do when they answer. -/

namespace Sys2Proof.Machine

/-- The preconditions of R212, as what the check admits. -/
theorem regionCheck_eq_next {o : RegionOperands} {u : Unit} :
    regionCheck o = .next u ↔
      o.coeff.toNat < Config.p ∧ maxOutputBytes o.size < Config.addressSpace ∧ o.disjoint = true := by
  unfold regionCheck
  rw [andThen_eq_next]
  constructor
  · rintro ⟨_, h1, h⟩
    obtain ⟨_, h2, h3⟩ := andThen_eq_next.mp h
    exact ⟨by simpa using refuseIf_eq_next.mp h1, by simpa using refuseIf_eq_next.mp h2,
      by simpa using refuseIf_eq_next.mp h3⟩
  · rintro ⟨h1, h2, h3⟩
    exact ⟨(), refuseIf_eq_next.mpr (by simpa using h1),
      andThen_eq_next.mpr ⟨(), refuseIf_eq_next.mpr (by simpa using h2), refuseIf_eq_next.mpr (by simpa using h3)⟩⟩

/-- Producing an output word writes its eight bytes: the product, or the product added to what was there. -/
theorem putProduct_eq_next {acc : Bool} {k : Word} {out i : Nat} {m m' : Memory} {w : Word} :
    putProduct acc k out m i w = .next m' ↔
      m.accessible (out + 8 * i) 8 = true ∧
        m' = m.writeBytes (out + 8 * i) 8
          (if acc then fieldAdd (fieldMul k w) (BitVec.ofNat 64 (m.readBytes (out + 8 * i) 8))
            else fieldMul k w).toNat := by
  cases acc with
  | false =>
    simp only [putProduct, Bool.false_eq_true, if_false]
    exact store_eq_next
  | true =>
    simp only [putProduct, if_true]
    rw [andThen_eq_next]
    constructor
    · rintro ⟨v, hv, h⟩
      obtain ⟨-, rfl⟩ := load_eq_next.mp hv
      exact store_eq_next.mp h
    · rintro ⟨ha, rfl⟩
      exact ⟨_, load_eq_next.mpr ⟨ha, rfl⟩, store_eq_next.mpr ⟨ha, rfl⟩⟩

section Keeps

variable {P : Memory → Prop}

theorem zeroBytes_keeps (hP : ∀ {m m' : Memory} {a n v : Nat}, P m → m.store a n v = .next m' → P m')
    {m m' : Memory} {a count : Nat} (hm : P m) (h : zeroBytes m a count = .next m') : P m' := by
  induction count generalizing m a with
  | zero =>
    injection h with h
    exact h ▸ hm
  | succ count ih =>
    obtain ⟨m1, h1, h2⟩ := andThen_eq_next.mp h
    exact ih (hP hm h1) h2

theorem copyBytes_keeps (hP : ∀ {m m' : Memory} {a n v : Nat}, P m → m.store a n v = .next m' → P m')
    {m m' : Memory} {src dst count : Nat} (hm : P m) (h : copyBytes m src dst count = .next m') : P m' := by
  induction count generalizing m src dst with
  | zero =>
    injection h with h
    exact h ▸ hm
  | succ count ih =>
    obtain ⟨v, -, h'⟩ := andThen_eq_next.mp h
    obtain ⟨m1, h1, h2⟩ := andThen_eq_next.mp h'
    exact ih (hP hm h1) h2

theorem putProduct_keeps (hP : ∀ {m m' : Memory} {a n v : Nat}, P m → m.store a n v = .next m' → P m')
    {acc : Bool} {k : Word} {out i : Nat} {m m' : Memory} {w : Word} (hm : P m)
    (h : putProduct acc k out m i w = .next m') : P m' :=
  hP hm (store_eq_next.mpr (putProduct_eq_next.mp h))

theorem regionWords_keeps (hP : ∀ {m m' : Memory} {a n v : Nat}, P m → m.store a n v = .next m' → P m')
    {acc : Bool} {o : RegionOperands} {count i : Nat} {m : Memory} {t : AdrContext} {r : Memory × AdrContext}
    (hm : P m) (h : regionWords acc o count i m t = .next r) : P r.1 := by
  induction count generalizing i m t with
  | zero =>
    injection h with h
    exact h ▸ hm
  | succ count ih =>
    obtain ⟨q, hq, h'⟩ := andThen_eq_next.mp h
    obtain ⟨m1, h1, h2⟩ := andThen_eq_next.mp h'
    exact ih (putProduct_keeps hP (packerRead_keeps hP hm hq) h1) h2

theorem regionTail_keeps (hP : ∀ {m m' : Memory} {a n v : Nat}, P m → m.store a n v = .next m' → P m')
    {acc : Bool} {o : RegionOperands} {m m' : Memory} (hm : P m) (h : regionTail acc o m = .next m') : P m' := by
  unfold regionTail at h
  split at h
  · injection h with h
    exact h ▸ hm
  · obtain ⟨w, -, h'⟩ := andThen_eq_next.mp h
    exact putProduct_keeps hP hm h'

theorem regionAux_keeps (hP : ∀ {m m' : Memory} {a n v : Nat}, P m → m.store a n v = .next m' → P m')
    {acc : Bool} {o : RegionOperands} {count j : Nat} {m m' : Memory}
    (hm : P m) (h : regionAux acc o count j m = .next m') : P m' := by
  induction count generalizing j m with
  | zero =>
    injection h with h
    exact h ▸ hm
  | succ count ih =>
    obtain ⟨v, -, h'⟩ := andThen_eq_next.mp h
    obtain ⟨m1, h1, h2⟩ := andThen_eq_next.mp h'
    exact ih (putProduct_keeps hP hm h1) h2

theorem regionGeneral_keeps (hP : ∀ {m m' : Memory} {a n v : Nat}, P m → m.store a n v = .next m' → P m')
    {acc : Bool} {o : RegionOperands} {m : Memory} {r : Memory × Nat} (hm : P m)
    (h : regionGeneral acc o m = .next r) : P r.1 := by
  obtain ⟨q, hq, h⟩ := andThen_eq_next.mp h
  obtain ⟨m1, h1, h⟩ := andThen_eq_next.mp h
  obtain ⟨f, hf, h⟩ := andThen_eq_next.mp h
  obtain ⟨m2, h2, h⟩ := andThen_eq_next.mp h
  injection h with h
  exact h ▸ regionAux_keeps hP (packerFlush_keeps hP (regionTail_keeps hP (regionWords_keeps hP hm hq) h1) hf) h2

/-- A property of memory that every store keeps is kept by the whole of MULRGN. -/
theorem multiplyRegion_keeps (hP : ∀ {m m' : Memory} {a n v : Nat}, P m → m.store a n v = .next m' → P m')
    {o : RegionOperands} {m : Memory} {r : Memory × Nat} (hm : P m) (h : multiplyRegion o m = .next r) : P r.1 := by
  obtain ⟨_, -, h⟩ := andThen_eq_next.mp h
  split at h
  · obtain ⟨m1, h1, h⟩ := andThen_eq_next.mp h
    injection h with h
    exact h ▸ zeroBytes_keeps hP hm h1
  · split at h
    · obtain ⟨m1, h1, h⟩ := andThen_eq_next.mp h
      obtain ⟨m2, h2, h⟩ := andThen_eq_next.mp h
      injection h with h
      exact h ▸ zeroBytes_keeps hP (copyBytes_keeps hP hm h1) h2
    · exact regionGeneral_keeps hP hm h

/-- A property of memory that every store keeps is kept by the whole of MADRGN. -/
theorem multiplyAddRegion_keeps (hP : ∀ {m m' : Memory} {a n v : Nat}, P m → m.store a n v = .next m' → P m')
    {o : RegionOperands} {m : Memory} {r : Memory × Nat} (hm : P m) (h : multiplyAddRegion o m = .next r) : P r.1 := by
  obtain ⟨_, -, h⟩ := andThen_eq_next.mp h
  split at h
  · injection h with h
    exact h ▸ hm
  · exact regionGeneral_keeps hP hm h

end Keeps

/-- The canonical form of memory is kept by the region commands. -/
theorem multiplyRegion_keeps_wf {o : RegionOperands} {m : Memory} {r : Memory × Nat} (hm : m.wf = true)
    (h : multiplyRegion o m = .next r) : r.1.wf = true :=
  multiplyRegion_keeps (P := fun m => m.wf = true) (fun hm h => store_keeps_wf hm h) hm h

theorem multiplyAddRegion_keeps_wf {o : RegionOperands} {m : Memory} {r : Memory × Nat} (hm : m.wf = true)
    (h : multiplyAddRegion o m = .next r) : r.1.wf = true :=
  multiplyAddRegion_keeps (P := fun m => m.wf = true) (fun hm h => store_keeps_wf hm h) hm h

end Sys2Proof.Machine
end

