-- ==== Sys2Proof/Laws/Safety.lean ====
section
/-! SUPPORT. The terms of claims, tied to the machine's own functions. -/

namespace Sys2Proof.Machine

/-- `ceilDiv` is the ceiling of R9. -/
theorem isCeil_ceilDiv (a : Nat) {b : Nat} (hb : 0 < b) : IsCeil a b (ceilDiv a b) := fun _ => ceilDiv_le_iff hb

/-- The flush delivers the length of a stream, from every legal context whose stream has a length that fits 64 bits. -/
theorem writerTotal_toNat {c : WriterContext} (hc : writerLegal c) (hl : streamLength c < 2 ^ 64) (n : Nat) :
    (c.total n).toNat = streamLength c := by
  obtain ⟨hb, -, ha, -⟩ := hc
  have hn : ¬(c.base = 0 ∧ c.address + c.trailing = Config.addressSpace) := by
    rintro ⟨h0, h1⟩
    have : c.base.toNat = 0 := by simp [h0]
    simp only [streamLength, this, Config.addressSpace] at *
    omega
  rw [WriterContext.total, if_neg hn]
  simp only [streamLength, WriterContext.address, Config.addressSpace, toWord] at *
  rw [BitVec.toNat_add, BitVec.toNat_sub, BitVec.toNat_ofNat]
  split at ha <;> rename_i hp <;> simp only [hp] at * <;> simp at * <;> omega

end Sys2Proof.Machine
end

