-- ==== Sys2Proof/Laws/State.lean ====
section
/-! SUPPORT. What each named update of the state leaves in each field, and reading registers through them. -/

namespace Sys2Proof.Machine

/-! ### State.setReg -/

@[simp] theorem State.setReg_regs (s : State) (r : Reg) (v : Word) : (s.setReg r v).regs = s.regs.set r v := rfl
@[simp] theorem State.setReg_written (s : State) (r : Reg) (v : Word) : (s.setReg r v).written = s.written.set r true := rfl
@[simp] theorem State.setReg_st (s : State) (r : Reg) (v : Word) : (s.setReg r v).st = s.st := rfl
@[simp] theorem State.setReg_adr (s : State) (r : Reg) (v : Word) : (s.setReg r v).adr = s.adr := rfl
@[simp] theorem State.setReg_ww (s : State) (r : Reg) (v : Word) : (s.setReg r v).ww = s.ww := rfl
@[simp] theorem State.setReg_wr (s : State) (r : Reg) (v : Word) : (s.setReg r v).wr = s.wr := rfl
@[simp] theorem State.setReg_bw (s : State) (r : Reg) (v : Word) : (s.setReg r v).bw = s.bw := rfl
@[simp] theorem State.setReg_br (s : State) (r : Reg) (v : Word) : (s.setReg r v).br = s.br := rfl
@[simp] theorem State.setReg_mem (s : State) (r : Reg) (v : Word) : (s.setReg r v).mem = s.mem := rfl
@[simp] theorem State.setReg_input (s : State) (r : Reg) (v : Word) : (s.setReg r v).input = s.input := rfl
@[simp] theorem State.setReg_response (s : State) (r : Reg) (v : Word) : (s.setReg r v).response = s.response := rfl
@[simp] theorem State.setReg_index (s : State) (r : Reg) (v : Word) : (s.setReg r v).index = s.index := rfl

/-! ### State.respond -/

@[simp] theorem State.respond_regs (s : State) (v : Word) : (s.respond v).regs = s.regs := rfl
@[simp] theorem State.respond_written (s : State) (v : Word) : (s.respond v).written = s.written := rfl
@[simp] theorem State.respond_st (s : State) (v : Word) : (s.respond v).st = s.st := rfl
@[simp] theorem State.respond_adr (s : State) (v : Word) : (s.respond v).adr = s.adr := rfl
@[simp] theorem State.respond_ww (s : State) (v : Word) : (s.respond v).ww = s.ww := rfl
@[simp] theorem State.respond_wr (s : State) (v : Word) : (s.respond v).wr = s.wr := rfl
@[simp] theorem State.respond_bw (s : State) (v : Word) : (s.respond v).bw = s.bw := rfl
@[simp] theorem State.respond_br (s : State) (v : Word) : (s.respond v).br = s.br := rfl
@[simp] theorem State.respond_mem (s : State) (v : Word) : (s.respond v).mem = s.mem := rfl
@[simp] theorem State.respond_input (s : State) (v : Word) : (s.respond v).input = s.input := rfl
@[simp] theorem State.respond_response (s : State) (v : Word) : (s.respond v).response = some { fault := 0, empty := s.st.empty, result := v } := rfl
@[simp] theorem State.respond_index (s : State) (v : Word) : (s.respond v).index = s.index + 1 := rfl

/-! ### State.deliver -/

@[simp] theorem State.deliver_regs (s : State) (rd : Reg) (v : Word) : (s.deliver rd v).regs = s.regs.set rd v := rfl
@[simp] theorem State.deliver_written (s : State) (rd : Reg) (v : Word) : (s.deliver rd v).written = s.written.set rd true := rfl
@[simp] theorem State.deliver_st (s : State) (rd : Reg) (v : Word) : (s.deliver rd v).st = s.st := rfl
@[simp] theorem State.deliver_adr (s : State) (rd : Reg) (v : Word) : (s.deliver rd v).adr = s.adr := rfl
@[simp] theorem State.deliver_ww (s : State) (rd : Reg) (v : Word) : (s.deliver rd v).ww = s.ww := rfl
@[simp] theorem State.deliver_wr (s : State) (rd : Reg) (v : Word) : (s.deliver rd v).wr = s.wr := rfl
@[simp] theorem State.deliver_bw (s : State) (rd : Reg) (v : Word) : (s.deliver rd v).bw = s.bw := rfl
@[simp] theorem State.deliver_br (s : State) (rd : Reg) (v : Word) : (s.deliver rd v).br = s.br := rfl
@[simp] theorem State.deliver_mem (s : State) (rd : Reg) (v : Word) : (s.deliver rd v).mem = s.mem := rfl
@[simp] theorem State.deliver_input (s : State) (rd : Reg) (v : Word) : (s.deliver rd v).input = s.input := rfl
@[simp] theorem State.deliver_response (s : State) (rd : Reg) (v : Word) : (s.deliver rd v).response = some { fault := 0, empty := s.st.empty, result := v } := rfl
@[simp] theorem State.deliver_index (s : State) (rd : Reg) (v : Word) : (s.deliver rd v).index = s.index + 1 := rfl

/-! ### State.complete -/

@[simp] theorem State.complete_regs (s : State) : s.complete.regs = s.regs := rfl
@[simp] theorem State.complete_written (s : State) : s.complete.written = s.written := rfl
@[simp] theorem State.complete_st (s : State) : s.complete.st = s.st := rfl
@[simp] theorem State.complete_adr (s : State) : s.complete.adr = s.adr := rfl
@[simp] theorem State.complete_ww (s : State) : s.complete.ww = s.ww := rfl
@[simp] theorem State.complete_wr (s : State) : s.complete.wr = s.wr := rfl
@[simp] theorem State.complete_bw (s : State) : s.complete.bw = s.bw := rfl
@[simp] theorem State.complete_br (s : State) : s.complete.br = s.br := rfl
@[simp] theorem State.complete_mem (s : State) : s.complete.mem = s.mem := rfl
@[simp] theorem State.complete_input (s : State) : s.complete.input = s.input := rfl
@[simp] theorem State.complete_response (s : State) : s.complete.response = some { fault := 0, empty := s.st.empty, result := 0 } := rfl
@[simp] theorem State.complete_index (s : State) : s.complete.index = s.index + 1 := rfl

/-! ### State.setEmpty -/

@[simp] theorem State.setEmpty_regs (s : State) (b : Bool) : (s.setEmpty b).regs = s.regs := rfl
@[simp] theorem State.setEmpty_written (s : State) (b : Bool) : (s.setEmpty b).written = s.written := rfl
@[simp] theorem State.setEmpty_st (s : State) (b : Bool) : (s.setEmpty b).st = { s.st with empty := b } := rfl
@[simp] theorem State.setEmpty_adr (s : State) (b : Bool) : (s.setEmpty b).adr = s.adr := rfl
@[simp] theorem State.setEmpty_ww (s : State) (b : Bool) : (s.setEmpty b).ww = s.ww := rfl
@[simp] theorem State.setEmpty_wr (s : State) (b : Bool) : (s.setEmpty b).wr = s.wr := rfl
@[simp] theorem State.setEmpty_bw (s : State) (b : Bool) : (s.setEmpty b).bw = s.bw := rfl
@[simp] theorem State.setEmpty_br (s : State) (b : Bool) : (s.setEmpty b).br = s.br := rfl
@[simp] theorem State.setEmpty_mem (s : State) (b : Bool) : (s.setEmpty b).mem = s.mem := rfl
@[simp] theorem State.setEmpty_input (s : State) (b : Bool) : (s.setEmpty b).input = s.input := rfl
@[simp] theorem State.setEmpty_response (s : State) (b : Bool) : (s.setEmpty b).response = s.response := rfl
@[simp] theorem State.setEmpty_index (s : State) (b : Bool) : (s.setEmpty b).index = s.index := rfl

/-! ### State.illegalCommand -/

@[simp] theorem State.illegalCommand_regs (s : State) : s.illegalCommand.regs = s.regs := rfl
@[simp] theorem State.illegalCommand_written (s : State) : s.illegalCommand.written = s.written := rfl
@[simp] theorem State.illegalCommand_st (s : State) : s.illegalCommand.st = { s.st with halt := true, fcause := 1 } := rfl
@[simp] theorem State.illegalCommand_adr (s : State) : s.illegalCommand.adr = s.adr := rfl
@[simp] theorem State.illegalCommand_ww (s : State) : s.illegalCommand.ww = s.ww := rfl
@[simp] theorem State.illegalCommand_wr (s : State) : s.illegalCommand.wr = s.wr := rfl
@[simp] theorem State.illegalCommand_bw (s : State) : s.illegalCommand.bw = s.bw := rfl
@[simp] theorem State.illegalCommand_br (s : State) : s.illegalCommand.br = s.br := rfl
@[simp] theorem State.illegalCommand_mem (s : State) : s.illegalCommand.mem = s.mem := rfl
@[simp] theorem State.illegalCommand_input (s : State) : s.illegalCommand.input = s.input := rfl
@[simp] theorem State.illegalCommand_response (s : State) : s.illegalCommand.response = some { fault := 1, empty := s.st.empty, result := 0 } := rfl
@[simp] theorem State.illegalCommand_index (s : State) : s.illegalCommand.index = s.index := rfl

/-! ### State.answerHalted -/

@[simp] theorem State.answerHalted_regs (s : State) : s.answerHalted.regs = s.regs := rfl
@[simp] theorem State.answerHalted_written (s : State) : s.answerHalted.written = s.written := rfl
@[simp] theorem State.answerHalted_st (s : State) : s.answerHalted.st = s.st := rfl
@[simp] theorem State.answerHalted_adr (s : State) : s.answerHalted.adr = s.adr := rfl
@[simp] theorem State.answerHalted_ww (s : State) : s.answerHalted.ww = s.ww := rfl
@[simp] theorem State.answerHalted_wr (s : State) : s.answerHalted.wr = s.wr := rfl
@[simp] theorem State.answerHalted_bw (s : State) : s.answerHalted.bw = s.bw := rfl
@[simp] theorem State.answerHalted_br (s : State) : s.answerHalted.br = s.br := rfl
@[simp] theorem State.answerHalted_mem (s : State) : s.answerHalted.mem = s.mem := rfl
@[simp] theorem State.answerHalted_input (s : State) : s.answerHalted.input = s.input := rfl
@[simp] theorem State.answerHalted_response (s : State) : s.answerHalted.response = some { fault := 2, empty := s.st.empty, result := 0 } := rfl
@[simp] theorem State.answerHalted_index (s : State) : s.answerHalted.index = s.index := rfl

/-! ### State.hostReset -/

@[simp] theorem State.hostReset_regs (s : State) : s.hostReset.regs = State.reset.regs := rfl
@[simp] theorem State.hostReset_written (s : State) : s.hostReset.written = State.reset.written := rfl
@[simp] theorem State.hostReset_st (s : State) : s.hostReset.st = State.reset.st := rfl
@[simp] theorem State.hostReset_adr (s : State) : s.hostReset.adr = State.reset.adr := rfl
@[simp] theorem State.hostReset_ww (s : State) : s.hostReset.ww = State.reset.ww := rfl
@[simp] theorem State.hostReset_wr (s : State) : s.hostReset.wr = State.reset.wr := rfl
@[simp] theorem State.hostReset_bw (s : State) : s.hostReset.bw = State.reset.bw := rfl
@[simp] theorem State.hostReset_br (s : State) : s.hostReset.br = State.reset.br := rfl
@[simp] theorem State.hostReset_mem (s : State) : s.hostReset.mem = s.mem := rfl
@[simp] theorem State.hostReset_input (s : State) : s.hostReset.input = s.input := rfl
@[simp] theorem State.hostReset_response (s : State) : s.hostReset.response = State.reset.response := rfl
@[simp] theorem State.hostReset_index (s : State) : s.hostReset.index = State.reset.index := rfl

/-! ### Registers -/

@[simp] theorem State.reg_setReg (s : State) (r : Reg) (v : Word) : (s.setReg r v).reg r = v := by
  simp [State.reg, State.setReg]

theorem State.reg_setReg_of_ne (s : State) {r q : Reg} (v : Word) (h : q ≠ r) : (s.setReg r v).reg q = s.reg q := by
  have : (r : Nat) ≠ q := fun e => h (Fin.ext e.symm)
  simp [State.reg, State.setReg, this]

@[simp] theorem State.holdsValue_setReg (s : State) (r : Reg) (v : Word) : (s.setReg r v).holdsValue r = true := by
  simp [State.holdsValue, State.setReg]

theorem State.holdsValue_setReg_of_ne (s : State) {r q : Reg} (v : Word) (h : q ≠ r) :
    (s.setReg r v).holdsValue q = s.holdsValue q := by
  have : (r : Nat) ≠ q := fun e => h (Fin.ext e.symm)
  simp [State.holdsValue, State.setReg, this]

@[simp] theorem State.reg_deliver (s : State) (r : Reg) (v : Word) : (s.deliver r v).reg r = v :=
  State.reg_setReg s r v

theorem State.reg_deliver_of_ne (s : State) {r q : Reg} (v : Word) (h : q ≠ r) : (s.deliver r v).reg q = s.reg q :=
  State.reg_setReg_of_ne s v h

@[simp] theorem State.holdsValue_deliver (s : State) (r : Reg) (v : Word) : (s.deliver r v).holdsValue r = true :=
  State.holdsValue_setReg s r v

theorem State.holdsValue_deliver_of_ne (s : State) {r q : Reg} (v : Word) (h : q ≠ r) :
    (s.deliver r v).holdsValue q = s.holdsValue q :=
  State.holdsValue_setReg_of_ne s v h

@[simp] theorem State.reg_complete (s : State) (r : Reg) : s.complete.reg r = s.reg r := rfl

@[simp] theorem State.holdsValue_complete (s : State) (r : Reg) : s.complete.holdsValue r = s.holdsValue r := rfl

@[simp] theorem State.reg_setEmpty (s : State) (b : Bool) (r : Reg) : (s.setEmpty b).reg r = s.reg r := rfl

@[simp] theorem State.holdsValue_setEmpty (s : State) (b : Bool) (r : Reg) :
    (s.setEmpty b).holdsValue r = s.holdsValue r := rfl

/-- At reset every register reads as 0 and none holds a value of its own (log entry 1: the model's choice). -/
theorem State.reg_reset (r : Reg) : State.reset.reg r = 0 ∧ State.reset.holdsValue r = false := by
  revert r; decide

end Sys2Proof.Machine
end

