-- ==== Sys2Proof/Tests/Slice0.lean ====
section
/-! SUPPORT. The model's own tests: ill-formed words, decoding of words written out from spec/30_encoding.md R71 and R73
(and its section 8 of spec/95_test_vectors.md), one step per command on small states with the values of
spec/95_test_vectors.md, and a witness for the hypotheses of each statement. -/

namespace Sys2Proof.Tests

open Sys2Proof.Machine

/- One theorem after another: a kernel evaluation waits for every earlier proof, and waiting side by side takes one
thread each. -/
set_option Elab.async false

/-! ### Ill-formed words: each check of `WellFormed` refuses one (R70, R74) -/

/-- Check 1: opcode 0x08 is in no row (spec/95_test_vectors.md 8.2). -/
theorem test_illformed_opcode :
    WellFormed.opcodeAssigned 0x00000008#32 = false ∧ WellFormed [0x00000008#32] = false := by decide

/-- Check 2: FNEG with rb = 2 (8.2). -/
theorem test_illformed_unused_field :
    WellFormed.unusedFieldsZero 0x00021303#32 = false ∧ WellFormed [0x00021303#32] = false := by decide

/-- Check 3: SETI with one word, RDST with three (R70). -/
theorem test_illformed_length :
    WellFormed.lengthRight [0x00000110#32] = false ∧ WellFormed [0x00000110#32] = false ∧
      WellFormed [0x00000F11#32, 0, 0] = false ∧ WellFormed [] = false := by decide

/-- A well-formed SETI passes all three (8.1). -/
theorem test_wellformed_seti : WellFormed [0x00000110#32, 0x00000001#32, 0xFFFFFFFF#32] = true := by decide

/-! ### Decoding: one word per constructor, its hexadecimal digits rf re rc rb ra rd opcode (R71) -/

theorem test_decode_field :
    decode [0x000B9701#32] = .ok (.fadd 7 9 11) ∧
    decode [0x000B9702#32] = .ok (.fsub 7 9 11) ∧
    decode [0x00009703#32] = .ok (.fneg 7 9) ∧
    decode [0x000B9704#32] = .ok (.fmul 7 9 11) ∧
    decode [0x00009705#32] = .ok (.fpred 7 9) ∧
    decode [0x00009706#32] = .ok (.ffin 7 9) ∧
    decode [0x00009707#32] = .ok (.finv 7 9) := by decide

theorem test_decode_io :
    decode [0x00000710#32, 0x89ABCDEF#32, 0x01234567#32] = .ok (.seti 7 0x0123456789ABCDEF#64) ∧
    decode [0x00000711#32] = .ok (.rdst 7) ∧
    decode [0x00009712#32] = .ok (.ldu32 7 9) ∧
    decode [0x00009713#32] = .ok (.ldu64 7 9) ∧
    decode [0x000B9714#32] = .ok (.ldb 7 9 11) ∧
    decode [0x000B9015#32] = .ok (.stu32 9 11) ∧
    decode [0x000B9016#32] = .ok (.stu64 9 11) ∧
    decode [0x00DB9017#32] = .ok (.stb 9 11 13) := by decide

theorem test_decode_codec64 :
    decode [0x00009720#32] = .ok (.adwsb 7 9) ∧
    decode [0x00009721#32] = .ok (.admob 7 9) ∧
    decode [0x00009022#32] = .ok (.adsetup 9) ∧
    decode [0x00009723#32] = .ok (.adrd8 7 9) ∧
    decode [0x000B9724#32] = .ok (.adrdf 7 9 11) ∧
    decode [0x00000725#32] = .ok (.adflush 7) := by decide

theorem test_decode_codec61 :
    decode [0x00009730#32] = .ok (.wwneed 7 9) ∧
    decode [0x00009031#32] = .ok (.wwbegin 9) ∧
    decode [0x00009032#32] = .ok (.wwwrite 9) ∧
    decode [0x00000733#32] = .ok (.wwflush 7) ∧
    decode [0x00009734#32] = .ok (.wrcount 7 9) ∧
    decode [0x000B9035#32] = .ok (.wrbegin 9 11) ∧
    decode [0x00000736#32] = .ok (.wrread 7) ∧
    decode [0x00009738#32] = .ok (.bwmax 7 9) ∧
    decode [0x00009039#32] = .ok (.bwbegin 9) ∧
    decode [0x0000903A#32] = .ok (.bwwrite 9) ∧
    decode [0x0000073B#32] = .ok (.bwflush 7) ∧
    decode [0x0000973C#32] = .ok (.brmax 7 9) ∧
    decode [0x000B903D#32] = .ok (.brbegin 9 11) ∧
    decode [0x0000073E#32] = .ok (.brread 7) := by decide

theorem test_decode_region :
    decode [0xE3DB9740#32] = .ok (.mulrgn 7 9 11 13 3 14) ∧
    decode [0xE3DB9741#32] = .ok (.madrgn 7 9 11 13 3 14) := by decide

/-- Illegal words of spec/95_test_vectors.md 8.2. -/
theorem test_decode_illegal :
    ([0x00000000#32, 0xFFFFFFFF#32, 0x00000137#32, 0x0000003F#32, 0x00000042#32].all fun w =>
        decide (decode [w] = .error .unassignedOpcode)) = true ∧
      ([0x00100001#32, 0x000F0F07#32, 0x00001011#32, 0x00000131#32, 0x00010025#32, 0x00001036#32, 0x01321017#32].all
        fun w => decide (decode [w] = .error .unusedFieldNotZero)) = true ∧
      decode [0x00001110#32, 0, 0] = .error .unusedFieldNotZero := by decide

/-- Stored bytes of spec/95_test_vectors.md 8.1. -/
theorem test_stored_bytes :
    encodeBytes (.seti 4 0x0123456789ABCDEF#64) =
        [0x10, 0x04, 0x00, 0x00, 0xEF, 0xCD, 0xAB, 0x89, 0x67, 0x45, 0x23, 0x01] ∧
      decodeBytes [0x17, 0x10, 0x32, 0x00] = .ok (.stb 1 2 3, []) := by decide

/-- Assembler lines of R76. -/
theorem test_assembly :
    assembly (.stb 1 2 3) = ("STB", [.reg 1, .reg 2, .reg 3]) ∧ encode (.stb 1 2 3) = [0x00321017#32] := by decide

/-! ### Small states -/

/-- Store bytes from an address on. -/
def place (m : Memory) (a : Nat) : List Byte → Memory
  | [] => m
  | b :: bs => place (m.setByte a b) (a + 1) bs

/-- The reset state with some registers given values. -/
def withRegs (s : State) : List (Reg × Word) → State
  | [] => s
  | (r, v) :: rest => withRegs (s.setReg r v) rest

/-- The reset state with registers and bytes. -/
def small (regs : List (Reg × Word)) (bytes : List (Nat × List Byte)) : State :=
  { withRegs State.reset regs with mem := bytes.foldl (fun m p => place m p.1 p.2) State.reset.mem }

/-- A test of the state an instruction ends in; false where it stops. -/
def ends (i : Instr) (s : State) (p : State → Bool) : Bool :=
  match exec i s with
  | .next t => p t
  | _ => false

/-- Whether rd holds v in the end, and the response says so (R21). -/
def gives (i : Instr) (s : State) (rd : Reg) (v : Word) : Bool :=
  ends i s fun t => t.reg rd == v && t.response == some { fault := 0, empty := t.st.empty, result := v }

/-- Whether an instruction is refused for the reason. -/
def refuses (i : Instr) (s : State) (e : Refusal) : Bool :=
  match exec i s with
  | .refused e' => e == e'
  | _ => false

/-! ### Field arithmetic (spec/95_test_vectors.md section 2) -/

theorem test_fadd_two_corrections :
    gives (.fadd 3 1 2) (small [(1, 0xFFFFFFFFFFFFFFFF#64), (2, 0xFFFFFFFFFFFFFFFF#64)] []) 3 0x00000001FFFFFFFC#64 = true ∧
      gives (.fadd 1 1 1) (small [(1, 0xFFFFFFFF00000001#64)] []) 1 0xFFFFFFFF00000001#64 = true := by decide +kernel

theorem test_fsub_two_corrections :
    gives (.fsub 3 1 2) (small [(2, 0xFFFFFFFFFFFFFFFF#64)] []) 3 0xFFFFFFFE00000003#64 = true ∧
      gives (.fsub 3 1 2) (small [(1, 3), (2, 5)] []) 3 0xFFFFFFFEFFFFFFFF#64 = true := by decide +kernel

theorem test_fneg_above_p :
    gives (.fneg 2 1) (small [(1, 0xFFFFFFFFFFFFFFFF#64)] []) 2 0xFFFFFFFE00000003#64 = true ∧
      gives (.fneg 2 1) (small [(1, 0xFFFFFFFF00000001#64)] []) 2 0 = true := by decide +kernel

theorem test_fmul_borrow_and_carry :
    gives (.fmul 3 1 1) (small [(1, 0x0001000000000000#64)] []) 3 0xFFFFFFFF00000000#64 = true ∧
      gives (.fmul 3 1 1) (small [(1, 0x3FFFFFFFFFFFFFFF#64)] []) 3 0x7FFFFFFEF0000002#64 = true := by decide +kernel

theorem test_fpred_reduces :
    gives (.fpred 2 1) (small [(1, 0xFFFFFFFF00000002#64)] []) 2 1 = true ∧
      gives (.fpred 2 1) (small [(1, 0x8000000000000000#64)] []) 2 0x8000000000000000#64 = true := by decide +kernel

theorem test_ffin_reduces :
    gives (.ffin 2 1) (small [(1, 0xFFFFFFFFFFFFFFFF#64)] []) 2 0x00000000FFFFFFFE#64 = true ∧
      gives (.ffin 2 1) (small [(1, 0xFFFFFFFF00000000#64)] []) 2 0xFFFFFFFF00000000#64 = true := by decide +kernel

theorem test_finv_values :
    gives (.finv 2 1) (small [(1, 0x123456789ABCDEF0#64)] []) 2 0xCC82422076A04151#64 = true ∧
      gives (.finv 2 1) (small [(1, 0xFFFFFFFF00000001#64)] []) 2 0 = true := by decide +kernel

/-! ### Register and byte I/O (section 3) -/

/-- The 16 bytes at 0x400 of section 3. -/
def loadBytes : List (Nat × List Byte) :=
  [(0x400, [0x11, 0x12, 0x13, 0x14, 0x15, 0x16, 0x17, 0x18, 0x19, 0x1A, 0x1B, 0x1C, 0x1D, 0x1E, 0x1F, 0x20])]

/-- The value and address registers of the store rows. -/
def storeState (count : Word) : State :=
  small [(1, 0x400), (2, count), (3, 0x1122334455667788#64)] [(0x400, List.replicate 10 0xEE)]

theorem test_seti : gives (.seti 1 0xFFFFFFFF00000001#64) State.reset 1 0xFFFFFFFF00000001#64 = true := by decide +kernel

theorem test_rdst_after_empty :
    gives (.rdst 9) ((small [] []).setEmpty true) 9 1 = true ∧ gives (.rdst 7) State.reset 7 0 = true := by decide +kernel

theorem test_ldu32_misaligned : gives (.ldu32 2 1) (small [(1, 0x401)] loadBytes) 2 0x15141312 = true := by decide +kernel

theorem test_ldu64_misaligned :
    gives (.ldu64 2 1) (small [(1, 0x401)] loadBytes) 2 0x1918171615141312#64 = true := by decide +kernel

/-- LDU64 at 0xFFFFFFFFFFFFFFF9 wraps (section 3). -/
theorem test_ldu64_wraps :
    (match exec (.ldu64 2 1) (small [(1, 0xFFFFFFFFFFFFFFF9#64)] []) with | .fault e => e == .addressWrap | _ => false) =
      true := by decide +kernel

theorem test_ldb_seven : gives (.ldb 3 1 2) (small [(1, 0x400), (2, 7)] loadBytes) 3 0x0017161514131211#64 = true := by
  decide +kernel

theorem test_ldb_unsupported : gives (.ldb 3 1 2) (small [(1, 0x400), (2, 9)] loadBytes) 3 0 = true := by decide +kernel

theorem test_stu32 :
    ends (.stu32 1 3) (storeState 0) (fun t => t.mem.readBytes 0x400 8 == 0xEEEEEEEE55667788) = true := by decide +kernel

theorem test_stu64 :
    ends (.stu64 1 3) (storeState 0) (fun t => t.mem.readBytes 0x400 10 == 0xEEEE1122334455667788) = true := by
  decide +kernel

theorem test_stb_five :
    ends (.stb 1 2 3) (storeState 5) (fun t => t.mem.readBytes 0x400 8 == 0xEEEEEE4455667788) = true := by decide +kernel

theorem test_stb_unsupported :
    ends (.stb 1 2 3) (storeState 9) (fun t => t.mem == (storeState 9).mem) = true := by decide +kernel

/-! ### The 64-bit-with-overflow codec (section 4) -/

theorem test_adwsb : gives (.adwsb 2 1) (small [(1, 100000)] []) 2 1592 = true := by decide +kernel

theorem test_admob :
    gives (.admob 2 1) (small [(1, 100000)] []) 2 101592 = true ∧
      refuses (.admob 2 1) (small [(1, 0xFFFFFFFFFFFFFFFF#64)] []) .sizeOverflow = true := by decide +kernel

theorem test_adsetup :
    ends (.adsetup 4) (small [(4, 0x8000)] []) (fun t => t.adr == ⟨true, 0x8000, 0, 0, 0⟩) = true := by decide +kernel

/-- A packing run with some bits pending. -/
def packing (acc : Word) (cnt : BitVec 6) (regs : List (Reg × Word)) (bytes : List (Nat × List Byte)) : State :=
  { small regs bytes with adr := ⟨true, 0x2000, 0, acc, cnt⟩ }

/-- Word 3 of section 4.2. -/
theorem test_adrd8_ambiguous :
    ends (.adrd8 2 1) (packing 1 2 [(1, 0x1000)] [(0x1000, List.replicate 8 0xFF)])
      (fun t => t.reg 2 == 0x7FFFFFFFFFFFFFFF#64 && t.adr == ⟨true, 0x2000, 0, 5, 3⟩) = true := by decide +kernel

/-- Word 62 of section 4.3: the 63rd bit writes an auxiliary word. -/
theorem test_adrd8_flushes :
    ends (.adrd8 2 1) (packing 0x1555555555555555#64 62 [(1, 0x1000)] [(0x1000, [0x3E, 0, 0, 0, 0xFF, 0xFF, 0xFF, 0xFF])])
      (fun t => t.reg 2 == 0x7FFFFFFF0000003E#64 && t.adr == ⟨true, 0x2000, 1, 0, 0⟩ &&
        t.mem.readBytes 0x2000 8 == 0x5555555555555555) = true := by decide +kernel

theorem test_adrdf_tail :
    gives (.adrdf 3 1 2) (packing 0 0 [(1, 0x1000), (2, 3)] [(0x1000, [0xAA, 0xBB, 0xCC])]) 3 0xCCBBAA = true ∧
      refuses (.adrdf 3 1 2) (packing 0 0 [(1, 0x1000), (2, 8)] []) .tailTooLong = true := by decide +kernel

theorem test_adflush_residual :
    ends (.adflush 5) (packing 0xD 5 [] [(0x2000, List.replicate 9 0xCC)])
      (fun t => t.reg 5 == 1 && !t.adr.active && t.mem.readBytes 0x2000 9 == 0xCC000000000000000D) = true := by
  decide +kernel

/-! ### The 61-bit codecs (sections 5 and 6) -/

theorem test_wwneed :
    gives (.wwneed 2 1) (small [(1, 9)] []) 2 69 = true ∧ gives (.wwneed 2 1) (small [(1, 64)] []) 2 488 = true := by
  decide +kernel

theorem test_wwbegin :
    ends (.wwbegin 1) (small [(1, 0x100)] []) (fun t => t.ww == ⟨true, 0x100, 0x100, 0, 0, false⟩) = true := by decide +kernel

/-- A WordWriter run after the first word of section 5.2's row 4. -/
def writing : State :=
  { small [(4, 0x1FEDCBA987654321#64)] [] with ww := ⟨true, 0x100, 0x100, 0x0123456789ABCDEF#64, 61, false⟩ }

theorem test_wwwrite_writes_word :
    ends (.wwwrite 4) writing
      (fun t => t.ww == ⟨true, 0x100, 0x108, 0x03FDB97530ECA864#64, 58, false⟩ &&
        t.mem.readBytes 0x100 8 == 0x2123456789ABCDEF) = true := by decide +kernel

theorem test_wwwrite_too_wide :
    refuses (.wwwrite 4) { writing with regs := writing.regs.set 4 0x2000000000000000#64 } .wordTooWide = true := by
  decide +kernel

theorem test_wwflush_trailing :
    ends (.wwflush 5) { small [] [(0x110, List.replicate 8 0xEE)] with ww := ⟨true, 0x100, 0x110, 0x2AAAAAAAAAAAAA#64, 55, false⟩ }
      (fun t => t.reg 5 == 23 && !t.ww.active && t.mem.readBytes 0x110 8 == 0xEE2AAAAAAAAAAAAA) = true := by
  decide +kernel

theorem test_wrcount :
    gives (.wrcount 2 1) (small [(1, 23)] []) 2 3 = true ∧ gives (.wrcount 2 1) (small [(1, 15)] []) 2 1 = true := by
  decide +kernel

theorem test_wrbegin :
    ends (.wrbegin 1 2) (small [(1, 0x100), (2, 23)] []) (fun t => t.wr == ⟨true, 0x100, 23, 0, false⟩) = true := by
  decide +kernel

/-- The 23-byte stream of R177's example at 0x100. -/
def stream23 : List (Nat × List Byte) :=
  [(0x100, [0xEF, 0xCD, 0xAB, 0x89, 0x67, 0x45, 0x23, 0x21, 0x64, 0xA8, 0xEC, 0x30, 0x75, 0xB9, 0xFD, 0xAB,
    0xAA, 0xAA, 0xAA, 0xAA, 0xAA, 0xAA, 0x2A])]

theorem test_wrread_second_word :
    ends (.wrread 8) { small [] stream23 with wr := ⟨true, 0x100, 23, 61, false⟩ }
      (fun t => t.reg 8 == 0x1FEDCBA987654321#64 && t.wr.pos == 122) = true := by decide +kernel

theorem test_wrread_past_end :
    refuses (.wrread 8) { small [] stream23 with wr := ⟨true, 0x100, 23, 183, false⟩ } .readPastEnd = true := by decide +kernel

theorem test_bwmax : gives (.bwmax 2 1) (small [(1, 100000)] []) 2 762500 = true := by decide +kernel

theorem test_bwbegin :
    ends (.bwbegin 1) (small [(1, 0x300)] []) (fun t => t.bw == ⟨true, 0x300, 0x300, 0, 0, false⟩) = true := by decide +kernel

/-- R194's example: M60 after 5 is appended with width 60. -/
theorem test_bwwrite_escape :
    ends (.bwwrite 6) { small [(6, 0x0FFFFFFFFFFFFFFF#64)] [] with bw := ⟨true, 0x300, 0x300, 5, 61, false⟩ }
      (fun t => t.bw == ⟨true, 0x300, 0x308, 0x01FFFFFFFFFFFFFF#64, 57, false⟩ &&
        t.mem.readBytes 0x300 8 == 0xE000000000000005) = true := by decide +kernel

theorem test_bwflush_total :
    ends (.bwflush 5) { small [] [] with bw := ⟨true, 0x300, 0x308, 0x00FFFFFFFFFFFFFF#64, 56, false⟩ }
      (fun t => t.reg 5 == 15 && !t.bw.active && t.mem.readBytes 0x308 8 == 0x00FFFFFFFFFFFFFF) = true := by
  decide +kernel

theorem test_brmax : gives (.brmax 2 1) (small [(1, 100000)] []) 2 13334 = true := by decide +kernel

theorem test_brbegin_clears_empty :
    ends (.brbegin 1 2) ((small [(1, 0x200), (2, 9)] []).setEmpty true)
      (fun t => t.br == ⟨true, 0x200, 9, 0, false⟩ && !t.st.empty) = true := by decide +kernel

/-- Scenario S5 of section 1.2: steps 2 and 3. -/
theorem test_brread_escape_and_padding :
    ends (.brread 6) { small [] [(0x200, List.replicate 8 0xFF)] with br := ⟨true, 0x200, 9, 0, false⟩ }
        (fun t => t.reg 6 == 0x0FFFFFFFFFFFFFFF#64 && t.br.pos == 60) = true ∧
      ends (.brread 6) { small [] [(0x200, List.replicate 8 0xFF)] with br := ⟨true, 0x200, 9, 60, false⟩ }
        (fun t => t.reg 6 == 0xF && t.br.pos == 121 && !t.st.empty) = true := by decide +kernel

/-- Scenario S5, step 4. -/
theorem test_brread_empty :
    ends (.brread 6) { small [(6, 5)] [] with br := ⟨true, 0x200, 9, 121, false⟩ }
      (fun t => t.reg 6 == 0 && t.br.pos == 121 && t.st.empty) = true := by decide +kernel

/-- R31, R198: the read of the last data bit of 2^64 − 1 bytes takes the position to 2^67 + 52, and the next is Empty. -/
theorem test_brread_at_the_top :
    ends (.brread 6) { small [] [] with br := ⟨true, 0, 0xFFFFFFFFFFFFFFFF#64, 0x7FFFFFFFFFFFFFFF7#67, false⟩ }
        (fun t => t.br == ⟨true, 0, 0xFFFFFFFFFFFFFFFF#64, 52, true⟩ && !t.st.empty) = true ∧
      ends (.brread 6) { small [] [] with br := ⟨true, 0, 0xFFFFFFFFFFFFFFFF#64, 52, true⟩ }
        (fun t => t.reg 6 == 0 && t.br.pos == 52 && t.st.empty) = true := by decide +kernel

/-! ### The region engine (section 7) -/

/-- The start state of rows M1 to M7, with the first three output words given. -/
def regionState (k o0 o1 o2 : Word) : State :=
  small [(1, 0x1000), (2, 11), (3, k), (4, 0x2000), (5, 0x3000)]
    [(0x1000, [0x01, 0x00, 0x00, 0x00, 0xFF, 0xFF, 0xFF, 0xFF, 0xAA, 0xBB, 0xCC]), (0x2000, List.replicate 8 0xCC),
      (0x3000, (List.range 8).map fun i => (o0 >>> (8 * i)).setWidth 8),
      (0x3008, (List.range 8).map fun i => (o1 >>> (8 * i)).setWidth 8),
      (0x3010, (List.range 8).map fun i => (o2 >>> (8 * i)).setWidth 8), (0x3018, List.replicate 8 0xEE)]

/-- The return value, the output words and the workspace after a region command. -/
def regionGives (i : Instr) (s : State) (v o0 o1 o2 w : Nat) : Bool :=
  ends i s fun t => (t.reg 0).toNat == v && t.mem.readBytes 0x3000 8 == o0 && t.mem.readBytes 0x3008 8 == o1 &&
    t.mem.readBytes 0x3010 8 == o2 && t.mem.readBytes 0x3018 8 == 0xEEEEEEEEEEEEEEEE && t.mem.readBytes 0x2000 8 == w

/-- Row M4. -/
theorem test_mulrgn_general :
    regionGives (.mulrgn 0 1 2 3 4 5) (regionState 3 7 7 7) 24 0x7FFFFFFE00000002 0x26632FE 3 1 = true := by
  decide +kernel

/-- Row M3: the copy shortcut. -/
theorem test_mulrgn_copy :
    regionGives (.mulrgn 0 1 2 3 4 5) (regionState 1 7 7 7) 16 0xFFFFFFFF00000001 0xCCBBAA 7 0xCCCCCCCCCCCCCCCC = true := by
  decide +kernel

/-- Row M5. -/
theorem test_madrgn_general :
    regionGives (.madrgn 0 1 2 3 4 5) (regionState 2 5 0xFFFFFFFF00000000#64 0xFFFFFFFFFFFFFFFF#64) 24
      0xFFFFFFFE00000007 0xFFFFFFFF01997754 0x100000000 1 = true := by decide +kernel

/-- Row M7: no copy shortcut; and the refused output address 0x1008. -/
theorem test_madrgn_one_and_overlap :
    regionGives (.madrgn 0 1 2 3 4 5) (regionState 1 5 0xFFFFFFFF00000000#64 0xFFFFFFFFFFFFFFFF#64) 24
        0x7FFFFFFF00000006 0xFFFFFFFF00CCBBAA 0xFFFFFFFF 1 = true ∧
      refuses (.madrgn 0 1 2 3 4 5) ((regionState 1 5 5 5).setReg 5 0x1008) .regionOverlap = true := by decide +kernel

/-! ### Steps (section 8.3, program P6) -/

/-- The reset state with a host's input. -/
def issued (ins : List HostInput) : State := { State.reset with input := ins }

/-- A test of the state after a step; false where it stops. -/
def stepEnds (s : State) (p : State → Bool) : Bool :=
  match step s with
  | .next t => p t
  | _ => false

/-- An illegal word: ST = 0x12, response code 1, the index stays. -/
theorem test_step_illegal_word :
    stepEnds (issued (asInput [0x00021303#32]))
      (fun t => t.st.word == 0x12 && t.response == some ⟨1, false, 0⟩ && t.index == 0 && t.input == []) = true := by
  decide +kernel

/-- A halted core answers Halted and a reset brings it back. -/
theorem test_step_halted_then_reset :
    stepEnds { issued (asInput [0x00000311#32]) with st := ⟨false, true, 1⟩ }
        (fun t => t.response == some ⟨2, false, 0⟩ && t.reg 3 == 0 && t.st.halt) = true ∧
      stepEnds { issued [.reset] with st := ⟨false, true, 1⟩ } (fun t => t == State.reset) = true := by decide +kernel

/-- SETI of three words as the first command after reset. -/
theorem test_step_seti :
    stepEnds (issued (asInput [0x00000110#32, 0x00000005#32, 0x00000000#32]))
      (fun t => t.reg 1 == 5 && t.index == 1 && t.input == []) = true := by decide +kernel

/-- A SETI whose words have not all come waits; a reset between its words has no meaning (log entry 6). -/
theorem test_step_waits :
    stepEnds (issued (asInput [0x00000110#32])) (fun t => t == issued (asInput [0x00000110#32])) = true ∧
      (match step (issued [.word 0x00000110#32, .reset]) with | .refused e => e == .brokenCommand | _ => false) = true := by
  decide +kernel

/-- A host store between a SETI's words happens, and the SETI runs after it (R256: a SETI uses no byte). -/
theorem test_step_host_store_between_words :
    stepEnds (issued [.word 0x00000110#32, .word 5, .hostStore 0x400 7, .word 0])
        (fun t => t.mem.byte 0x400 == 7 && t.input == asInput [0x00000110#32, 5, 0] && t.index == 0) = true ∧
      stepEnds (issued (asInput [0x00000110#32, 5, 0])) (fun t => t.reg 1 == 5) = true := by decide +kernel

/-- The host's fixed names: a table word decodes, and runs as the next command. -/
theorem test_with_fetch_word :
    decodeTableWord 32 0x00021301 = some (.fadd 3 1 2) ∧
      decodeTableWord 96 0xFFFFFFFF0000000100000110 = some (.seti 1 0xFFFFFFFF00000001#64) ∧
      stepEnds (State.reset.withFetchWord 32 0x00000110) (fun t => t.index == 1 && t.input == []) = true := by
  decide +kernel

/-! ### Witnesses: for each statement with hypotheses, a state and operands that meet them all; for a statement of
several clauses one for each, at a boundary -/

/-- A passed `ends` names the next state it speaks of. -/
theorem ends_next {i : Instr} {s : State} {p : State → Bool} (h : ends i s p = true) :
    ∃ t, exec i s = .next t ∧ p t = true := by
  unfold ends at h
  split at h
  · exact ⟨_, by assumption, h⟩
  · cases h

/-- A passed `stepEnds` likewise. -/
theorem stepEnds_next {s : State} {p : State → Bool} (h : stepEnds s p = true) : ∃ t, step s = .next t ∧ p t = true := by
  unfold stepEnds at h
  split at h
  · exact ⟨_, by assumption, h⟩
  · cases h

theorem witness_EncodeDecode : decode [0xE3DB9740#32] = .ok (.mulrgn 7 9 11 13 3 14) := by decide

theorem witness_DecodeAcceptsOpcodeMap :
    ∃ r q, r ∈ opcodeMap ∧ q ∈ opcodeMap ∧ r.selects 0x0000073E#32 = true ∧ q.selects 0x0000073E#32 = true :=
  ⟨⟨"BRREAD", 0x0000003E#32, 0xFFFFF0FF#32, 1⟩, ⟨"BRREAD", 0x0000003E#32, 0xFFFFF0FF#32, 1⟩, by decide⟩

/-- A SETI, its words followed by another command's. -/
def fetching : State := issued (asInput [0x00000110#32, 0x00000005#32, 0x00000000#32] ++ [.word 0x00000311#32])

theorem witness_StepRunsDecodedCommand :
    fetching.st.halt = false ∧
      fetching.input = asInput [0x00000110#32, 0x00000005#32, 0x00000000#32] ++ [.word 0x00000311#32] ∧
      decode [0x00000110#32, 0x00000005#32, 0x00000000#32] = .ok (.seti 1 5) := by decide

/-- Both clauses: running, and halted. -/
theorem witness_IllegalCommandHalts :
    (issued (asInput [0x00021303#32])).input = asInput [0x00021303#32] ++ [] ∧
      [0x00021303#32].length = commandLength 0x00021303#32 ∧ (issued (asInput [0x00021303#32])).st.halt = false ∧
      decode [0x00021303#32] = .error .unusedFieldNotZero ∧
      { issued (asInput [0x00021303#32]) with st := ⟨true, true, 1⟩ }.st.halt = true := by decide

theorem witness_HaltedUntilReset :
    ∃ t, step { fetching with st := ⟨true, true, 1⟩ } = .next t ∧ (t.input == [.word 0x00000311#32]) = true :=
  stepEnds_next (by decide +kernel)

theorem witness_ResetTransaction : (issued [.reset, .word 0#32]).input = .reset :: [.word 0#32] := by decide

/-- A store to the last byte of memory after two of SETI's three words, and after none; a reset after two. -/
theorem witness_HostStoreResult :
    [0x00000110#32, 5].length < commandLength 0x00000110#32 ∧
      (issued [.word 0x00000110#32, .word 5, .hostStore 0xFFFFFFFFFFFFFFFF 7]).input =
        asInput [0x00000110#32, 5] ++ .hostStore 0xFFFFFFFFFFFFFFFF 7 :: [] ∧
      (issued [.hostStore 0xFFFFFFFFFFFFFFFF 7]).input = asInput [] ++ .hostStore 0xFFFFFFFFFFFFFFFF 7 :: [] ∧
      State.reset.mem.wf = true ∧ State.reset.mem.accessible 0xFFFFFFFFFFFFFFFF 1 = true ∧
      (issued [.word 0x00000110#32, .word 5, .reset]).input = asInput [0x00000110#32, 5] ++ .reset :: [] := by decide

/-- A command with a destination, and one without: also for the frame statements over all commands. -/
theorem witness_CompletedCommandNeverFaults :
    (∃ t, exec (.ldu64 2 1) (small [(1, 0x401)] loadBytes) = .next t ∧ true = true) ∧
      (∃ t, exec (.stu64 1 3) (storeState 0) = .next t ∧ true = true) ∧
      destination (.ldu64 2 1) = some 2 ∧ destination (.stu64 1 3) = none :=
  ⟨ends_next (by decide +kernel), ends_next (by decide +kernel), by decide, by decide⟩

theorem witness_OnlyDestinationWritten :
    (∃ t, exec (.ldu64 2 1) (small [(1, 0x401)] loadBytes) = .next t ∧ true = true) ∧
      destination (.ldu64 2 1) ≠ some 1 :=
  ⟨ends_next (by decide +kernel), by decide⟩

theorem witness_OnlyNamedRegistersRead : (2 : Reg) ∉ sources (.ldu64 2 1) ∧ (3 : Reg) ∉ sources (.ldu64 2 1) := by
  decide

theorem witness_OnlyByteReaderWritesStatus :
    (∃ t, exec (.stu64 1 3) (storeState 0) = .next t ∧ true = true) ∧ writesEmpty (.stu64 1 3) = false :=
  ⟨ends_next (by decide +kernel), by decide⟩

theorem witness_ContextsOwnedByTheirCodec :
    (∃ t, exec (.adsetup 4) writing = .next t ∧ true = true) ∧ writesWw (.adsetup 4) = false ∧
      writesWr (.adsetup 4) = false ∧ writesBw (.adsetup 4) = false ∧ writesBr (.adsetup 4) = false ∧
      (∃ t, exec (.wwbegin 4) writing = .next t ∧ true = true) ∧ writesAdr (.wwbegin 4) = false :=
  ⟨ends_next (by decide +kernel), by decide, by decide, by decide, by decide, ends_next (by decide +kernel), by decide⟩

theorem witness_OnlyStoringCommandsWriteMemory :
    (∃ t, exec (.ldu64 2 1) (small [(1, 0x401)] loadBytes) = .next t ∧ true = true) ∧
      writesMemory (.ldu64 2 1) = false ∧
      ∃ t, step (issued [.hostStore 0x400 5]) = .next t ∧ (t.mem.byte 0x400 == 5) = true :=
  ⟨ends_next (by decide +kernel), by decide, stepEnds_next (by decide +kernel)⟩

/-- A state that meets the invariant with work in every context, and a WWWRITE as its next command. -/
def working : State :=
  { writing with
    mem := (small [] stream23).mem
    adr := ⟨true, 0x2000, 1, 5, 3⟩
    wr := ⟨true, 0x100, 23, 61, false⟩
    bw := ⟨true, 0x300, 0x308, 1, 57, false⟩
    br := ⟨true, 0x200, 9, 121, false⟩
    input := asInput [0x00004032#32] }

theorem working_inv : Inv working where
  memory := by decide +kernel
  status := by unfold statusLegal; decide +kernel
  adr := by unfold adrLegal; decide +kernel
  ww := by unfold writerLegal; decide +kernel
  wr := by unfold wordReaderLegal; decide +kernel
  bw := by unfold writerLegal; decide +kernel
  br := by unfold byteReaderLegal; decide +kernel

theorem witness_StepKeepsInvariant : Inv working ∧ ∃ t, step working = .next t ∧ (t.ww.ptr == 0x108) = true :=
  ⟨working_inv, stepEnds_next (by decide +kernel)⟩

/-- A state whose r1 is an address and r2 a count. -/
def counted (a n : Word) : State := small [(1, a), (2, n)] []

/-- A memory of two spans with a gap, and the last 16 bytes of the address space. -/
def gapped : Memory := { cells := [], map := [⟨0x100, 8⟩, ⟨0x110, 8⟩, ⟨0xFFFFFFFFFFFFFFF0, 16⟩] }

theorem witness_LoadAfterStore :
    gapped.wf = true ∧ gapped.store 0xFFFFFFFFFFFFFFF8 8 7 = .next (gapped.writeBytes 0xFFFFFFFFFFFFFFF8 8 7) :=
  ⟨by decide, store_eq_next.mpr ⟨by decide, rfl⟩⟩

/-- Its three clauses where they meet: one byte past the end, the same place with no byte past it, one byte in a gap. -/
theorem witness_AccessStops :
    (∃ i, i < 8 ∧ 2 ^ 64 ≤ 0xFFFFFFFFFFFFFFF9 + i) ∧
      ((∀ i, i < 8 → 0x101 + i < 2 ^ 64) ∧ ∃ i, i < 8 ∧ gapped.backed (0x101 + i) = false) ∧
      (∀ i, i < 8 → 0xFFFFFFFFFFFFFFF8 + i < 2 ^ 64 ∧ gapped.backed (0xFFFFFFFFFFFFFFF8 + i) = true) ∧
      ∀ i, i < 8 → 0x100 + i < 2 ^ 64 ∧ gapped.backed (0x100 + i) = true :=
  ⟨⟨7, by decide⟩, ⟨by decide, 7, by decide⟩, by decide, by decide⟩

/-- Both clauses at their boundary: the last byte at 2^64, and the only byte of an LDB in a gap. -/
theorem witness_InaccessibleOperandStops :
    (operandBytes (counted 0xFFFFFFFFFFFFFFF9#64 8) (.ldu64 3 1) = some (0xFFFFFFFFFFFFFFF9, 8) ∧
        contextInUse (counted 0xFFFFFFFFFFFFFFF9#64 8) (.ldu64 3 1) ≠ some false ∧
        2 ^ 64 < 0xFFFFFFFFFFFFFFF9 + 8) ∧
      (operandBytes { counted 0x108 1 with mem := gapped } (.ldb 3 1 2) = some (0x108, 1) ∧
        contextInUse { counted 0x108 1 with mem := gapped } (.ldb 3 1 2) ≠ some false ∧
        { counted 0x108 1 with mem := gapped }.mem.backed (0x108 + 0) = false) := by decide +kernel

/-- The two clauses: p itself is congruent to 0, p − 1 is not. -/
theorem witness_FinvResult :
    ((small [(1, Config.pWord)] []).reg 1).toNat % Config.p = 0 ∧
      ((small [(1, 0xFFFFFFFF00000000#64)] []).reg 1).toNat % Config.p ≠ 0 := by decide +kernel

theorem witness_FieldLaws : canon 0xFFFFFFFF00000002#64 ≠ 0 := by decide

/-- The last addresses a load of 4 and of 8 bytes may use. -/
theorem witness_FixedLoadResult :
    State.reset.mem.accessible ((small [(1, 0xFFFFFFFFFFFFFFFC#64)] []).reg 1).toNat 4 = true ∧
      State.reset.mem.accessible ((small [(1, 0xFFFFFFFFFFFFFFF8#64)] []).reg 1).toNat 8 = true := by decide +kernel

/-- Counts 1 and 8 at the last address that admits them; 0 and 9. -/
theorem witness_LdbResult :
    (1 ≤ ((counted 0xFFFFFFFFFFFFFFFF#64 1).reg 2).toNat ∧ ((counted 0xFFFFFFFFFFFFFFFF#64 1).reg 2).toNat ≤ 8 ∧
        (counted 0xFFFFFFFFFFFFFFFF#64 1).mem.accessible ((counted 0xFFFFFFFFFFFFFFFF#64 1).reg 1).toNat
          ((counted 0xFFFFFFFFFFFFFFFF#64 1).reg 2).toNat = true) ∧
      (1 ≤ ((counted 0xFFFFFFFFFFFFFFF8#64 8).reg 2).toNat ∧ ((counted 0xFFFFFFFFFFFFFFF8#64 8).reg 2).toNat ≤ 8 ∧
        (counted 0xFFFFFFFFFFFFFFF8#64 8).mem.accessible ((counted 0xFFFFFFFFFFFFFFF8#64 8).reg 1).toNat
          ((counted 0xFFFFFFFFFFFFFFF8#64 8).reg 2).toNat = true) ∧
      ((counted 0 0).reg 2).toNat = 0 ∧ 8 < ((counted 0 9).reg 2).toNat := by decide +kernel

theorem witness_FixedStoreResult :
    (counted 0xFFFFFFFFFFFFFFFC#64 0).mem.wf = true ∧
      (counted 0xFFFFFFFFFFFFFFFC#64 0).mem.accessible ((counted 0xFFFFFFFFFFFFFFFC#64 0).reg 1).toNat 4 = true ∧
      (counted 0xFFFFFFFFFFFFFFF8#64 0).mem.accessible ((counted 0xFFFFFFFFFFFFFFF8#64 0).reg 1).toNat 8 = true := by
  decide +kernel

/-- The memory of the counted states is in canonical form; the rest as for LDB. -/
theorem witness_StbResult :
    (counted 0xFFFFFFFFFFFFFFF8#64 8).mem.wf = true ∧ ((counted 0xFFFFFFFFFFFFFFF8#64 8).reg 2).toNat = 8 ∧
      (counted 0xFFFFFFFFFFFFFFF8#64 8).mem.accessible ((counted 0xFFFFFFFFFFFFFFF8#64 8).reg 1).toNat 8 = true ∧
      ((counted 0xFFFFFFFFFFFFFFFF#64 1).reg 2).toNat = 1 ∧
      (counted 0xFFFFFFFFFFFFFFFF#64 1).mem.accessible ((counted 0xFFFFFFFFFFFFFFFF#64 1).reg 1).toNat 1 = true ∧
      ((counted 0 0).reg 2).toNat = 0 ∧ 8 < ((counted 0 9).reg 2).toNat := by decide +kernel

/-- The hypotheses hold of every count by `ceilDiv`; here both sides of the limit of WWNEED and BWMAX, and of ADMOB. -/
theorem witness_PartialSizingHelpers :
    (∀ n, IsCeil n 8 (ceilDiv n 8) ∧ IsCeil (n / 8) 63 (ceilDiv (n / 8) 63) ∧ IsCeil (61 * n) 8 (ceilDiv (61 * n) 8)) ∧
      ceilDiv (61 * 0x2192E29F79B47581) 8 < 2 ^ 64 ∧ 2 ^ 64 ≤ ceilDiv (61 * 0x2192E29F79B47582) 8 ∧
      8 * ceilDiv 0xFBFFFFFFFFFFFFF8 8 + 8 * ceilDiv (0xFBFFFFFFFFFFFFF8 / 8) 63 < 2 ^ 64 ∧
      2 ^ 64 ≤ 8 * ceilDiv 0xFBFFFFFFFFFFFFF9 8 + 8 * ceilDiv (0xFBFFFFFFFFFFFFF9 / 8) 63 :=
  ⟨fun n => ⟨isCeil_ceilDiv n (by decide), isCeil_ceilDiv (n / 8) (by decide), isCeil_ceilDiv (61 * n) (by decide)⟩,
    by decide +kernel⟩

theorem witness_IdleContextRefused :
    contextInUse State.reset (.adrd8 2 1) = some false ∧ contextInUse State.reset (.wwflush 2) = some false ∧
      contextInUse State.reset (.wrread 2) = some false ∧ contextInUse State.reset (.bwwrite 2) = some false ∧
      contextInUse State.reset (.brread 2) = some false := by decide

/-- The clauses: idle; not ambiguous; ambiguous with 61 bits pending; ambiguous with 62, at the top of memory. -/
theorem witness_Adrd8Result :
    State.reset.adr.active = false ∧ working.mem.wf = true ∧ adrLegal working.adr ∧ working.adr.active = true ∧
      working.mem.accessible (working.reg 1).toNat 8 = true ∧ ¬ambiguousNat (working.mem.readBytes (working.reg 1).toNat 8) ∧
      (ambiguousNat ((packing 0 61 [(1, 0x1000)] [(0x1000, List.replicate 8 0xFF)]).mem.readBytes 0x1000 8) ∧
        adrLegal (packing 0 61 [] []).adr ∧ (packing 0 61 [] []).adr.cnt.toNat < 62) ∧
      (adrLegal ⟨true, 0xFFFFFFFFFFFFFFF0#64, 1, 0, 62⟩ ∧ (62#6 : BitVec 6).toNat = 62 ∧
        State.reset.mem.accessible ((0xFFFFFFFFFFFFFFF0#64 : Word).toNat + 8 * (1#64 : Word).toNat) 8 = true) := by
  simp only [adrLegal, ambiguousNat]
  decide +kernel

theorem witness_PackedWordsAreCanonical :
    ∃ t, exec (.adrd8 2 1) (packing 1 2 [(1, 0x1000)] [(0x1000, List.replicate 8 0xFF)]) = .next t ∧
      (t.reg 2 == 0x7FFFFFFFFFFFFFFF#64) = true :=
  ends_next (by decide +kernel)

/-- Idle; eight bytes; seven bytes; and no byte, at an address nothing could be read from. -/
theorem witness_AdrdfResult :
    State.reset.adr.active = false ∧ 7 < ((packing 0 0 [(2, 8)] []).reg 2).toNat ∧
    (packing 0 0 [(1, 0x1000), (2, 7)] []).adr.active = true ∧ ((packing 0 0 [(1, 0x1000), (2, 7)] []).reg 2).toNat = 7 ∧
      (packing 0 0 [(1, 0x1000), (2, 7)] []).mem.accessible ((packing 0 0 [(1, 0x1000), (2, 7)] []).reg 1).toNat 7 = true ∧
      ((packing 0 0 [(1, 0xFFFFFFFFFFFFFFFF#64)] []).reg 2).toNat = 0 := by decide +kernel

/-- Idle; no bit pending; one. -/
theorem witness_AdflushResult :
    State.reset.adr.active = false ∧
    (packing 0 0 [] []).mem.wf = true ∧ (packing 0 0 [] []).adr.active = true ∧ (packing 0 0 [] []).adr.cnt = 0 ∧
      (packing 1 1 [] []).mem.wf = true ∧ (packing 1 1 [] []).adr.active = true ∧ (packing 1 1 [] []).adr.cnt ≠ 0 ∧
      (packing 1 1 [] []).mem.accessible
        ((packing 1 1 [] []).adr.auxBase.toNat + 8 * (packing 1 1 [] []).adr.auxWords.toNat) 8 = true := by decide +kernel

/-- A state whose two writers hold `cnt` bits, with v in r4, at the last whole word of memory. -/
def buffering (cnt : BitVec 6) (v : Word) : State :=
  { small [(4, v)] [] with
    ww := ⟨true, 0, 0xFFFFFFFFFFFFFFF8, 0, cnt, false⟩
    bw := ⟨true, 0, 0xFFFFFFFFFFFFFFF8, 0, cnt, false⟩ }

/-- The same writers after a word that ended at 2^64. -/
def overrun (cnt : BitVec 6) : State :=
  { small [(4, 1)] [] with ww := ⟨true, 8, 0, 0, cnt, true⟩, bw := ⟨true, 8, 0, 0, cnt, true⟩ }

/-- A word that ends at 2^64 is written and PTR comes round to 0; the next word stops (R28, R58). -/
theorem test_wwwrite_at_the_top :
    ends (.wwwrite 4) (buffering 3 5)
        (fun t => t.ww.ptr == 0 && t.ww.past && t.mem.readBytes 0xFFFFFFFFFFFFFFF8 8 == 40) = true ∧
      (match exec (.wwwrite 4) (overrun 3) with | .fault e => e == .addressWrap | _ => false) = true := by decide +kernel

/-- Idle; the least value too wide; 2 buffered bits are the most that stay below 64 with 61 more, 3 the least that do not. -/
theorem witness_WwwriteResult :
    State.reset.ww.active = false ∧ 2 ^ 61 ≤ ((buffering 2 0x2000000000000000#64).reg 4).toNat ∧
    (buffering 2 5).mem.wf = true ∧ writerLegal (buffering 2 5).ww ∧ (buffering 2 5).ww.active = true ∧
      ((buffering 2 5).reg 4).toNat < 2 ^ 61 ∧ (buffering 2 5).ww.cnt.toNat + 61 < 64 ∧
      (writerLegal (overrun 3).ww ∧ (overrun 3).ww.past = true ∧ 64 ≤ (overrun 3).ww.cnt.toNat + 61) ∧
      (writerLegal (buffering 3 5).ww ∧ 64 ≤ (buffering 3 5).ww.cnt.toNat + 61 ∧ (buffering 3 5).ww.past = false ∧
        (buffering 3 5).mem.accessible (buffering 3 5).ww.ptr.toNat 8 = true) := by
  simp only [writerLegal]
  decide +kernel

/-- The same for an escaped word, whose limit is one bit higher. -/
theorem witness_BwwriteResult :
    State.reset.bw.active = false ∧ 2 ^ 61 ≤ ((buffering 2 0x2000000000000000#64).reg 4).toNat ∧
    (buffering 3 0x0FFFFFFFFFFFFFFF#64).mem.wf = true ∧ writerLegal (buffering 3 0x0FFFFFFFFFFFFFFF#64).bw ∧
      (buffering 3 0x0FFFFFFFFFFFFFFF#64).bw.active = true ∧
      ((buffering 3 0x0FFFFFFFFFFFFFFF#64).reg 4).toNat = 2 ^ 60 - 1 ∧
      (buffering 3 0x0FFFFFFFFFFFFFFF#64).bw.cnt.toNat + 60 < 64 ∧
      (writerLegal (overrun 3).bw ∧ (overrun 3).bw.past = true ∧ 64 ≤ (overrun 3).bw.cnt.toNat + 61) ∧
      (buffering 4 0x0FFFFFFFFFFFFFFF#64).bw.past = false ∧
      (writerLegal (buffering 4 0x0FFFFFFFFFFFFFFF#64).bw ∧ 64 ≤ (buffering 4 0x0FFFFFFFFFFFFFFF#64).bw.cnt.toNat + 60 ∧
        (buffering 4 0).mem.accessible (buffering 4 0).bw.ptr.toNat 8 = true) ∧
      ((buffering 3 5).reg 4).toNat ≠ 2 ^ 60 - 1 ∧ 64 ≤ (buffering 3 5).bw.cnt.toNat + 61 := by
  simp only [writerLegal]
  decide +kernel

/-- Idle; nothing buffered; 63 bits, which need all of the last 8 bytes of memory and end a stream
of 2^64 bytes; one bit after a stream that has
reached 2^64. -/
theorem witness_WwflushResult :
    IsCeil (buffering 63 0).ww.cnt.toNat 8 8 ∧ IsCeil (buffering 0 0).ww.cnt.toNat 8 0 ∧
      IsCeil (overrun 1).ww.cnt.toNat 8 1 ∧ State.reset.ww.active = false ∧ (buffering 63 0).mem.wf = true ∧
      (buffering 63 0).ww.active = true ∧ (buffering 63 0).ww.past = false ∧
      (buffering 63 0).mem.accessible (buffering 63 0).ww.ptr.toNat 8 = true ∧ (buffering 0 0).ww.active = true ∧
      (overrun 1).mem.wf = true ∧ (overrun 1).ww.active = true ∧ (overrun 1).ww.past = true ∧
      ((buffering 63 0).ww.base = 0 ∧ (buffering 63 0).ww.address + 8 = 2 ^ 64) ∧
      ¬((buffering 0 0).ww.base = 0 ∧ (buffering 0 0).ww.address + 0 = 2 ^ 64) :=
  ⟨isCeil_ceilDiv 63 (by decide), isCeil_ceilDiv 0 (by decide), isCeil_ceilDiv 1 (by decide), by decide +kernel⟩

theorem witness_BwflushResult :
    IsCeil (buffering 63 0).bw.cnt.toNat 8 8 ∧ IsCeil (buffering 0 0).bw.cnt.toNat 8 0 ∧
      IsCeil (overrun 1).bw.cnt.toNat 8 1 ∧ State.reset.bw.active = false ∧ (buffering 63 0).mem.wf = true ∧
      (buffering 63 0).bw.active = true ∧ (buffering 63 0).bw.past = false ∧
      (buffering 63 0).mem.accessible (buffering 63 0).bw.ptr.toNat 8 = true ∧ (buffering 0 0).bw.active = true ∧
      (overrun 1).mem.wf = true ∧ (overrun 1).bw.active = true ∧ (overrun 1).bw.past = true ∧
      ((buffering 63 0).bw.base = 0 ∧ (buffering 63 0).bw.address + 8 = 2 ^ 64) ∧
      ¬((buffering 0 0).bw.base = 0 ∧ (buffering 0 0).bw.address + 0 = 2 ^ 64) :=
  ⟨isCeil_ceilDiv 63 (by decide), isCeil_ceilDiv 0 (by decide), isCeil_ceilDiv 1 (by decide), by decide +kernel⟩

/-- Both readers on a buffer of 61 bytes that ends the address space. -/
def reading (pos : BitVec 67) : State :=
  { State.reset with wr := ⟨true, 0xFFFFFFFFFFFFFFC3#64, 61, pos, false⟩, br := ⟨true, 0xFFFFFFFFFFFFFFC3#64, 61, pos, false⟩ }

/-- Idle; one bit too few left; the last word of the 61 bytes. -/
theorem witness_WrreadResult :
    State.reset.wr.active = false ∧ 8 * (reading 428).wr.len.toNat < (reading 428).wr.position + 61 ∧
    (reading 427).wr.active = true ∧ (reading 427).wr.position + 61 ≤ 8 * (reading 427).wr.len.toNat ∧
      (reading 427).mem.accessible ((reading 427).wr.base.toNat + (reading 427).wr.position / 8)
        (((reading 427).wr.position + 60) / 8 + 1 - (reading 427).wr.position / 8) = true := by decide +kernel

/-- Idle; no data bit left; one. -/
theorem witness_BrreadResult :
    State.reset.br.active = false ∧ (reading 488).br.active = true ∧
      8 * (reading 488).br.len.toNat ≤ (reading 488).br.position ∧
      (reading 487).br.active = true ∧ (reading 487).br.position < 8 * (reading 487).br.len.toNat ∧
      (reading 487).mem.accessible ((reading 487).br.base.toNat + (reading 487).br.position / 8)
        (min ((reading 487).br.len.toNat - 1) (((reading 487).br.position + 60) / 8) + 1 - (reading 487).br.position / 8) = true := by
  decide +kernel

/-- Coefficient p; p − 1 with the least size that is too big; p − 1 with one address shared. -/
theorem witness_RegionRefusals :
    Config.p ≤ (regionOperands (regionState Config.pWord 0 0 0) 1 2 3 4 5).coeff.toNat ∧
      ((regionState 0xFFFFFFFF00000000#64 0 0 0).reg 3).toNat < Config.p ∧
      2 ^ 64 ≤ maxOutputBytes (regionOperands ((regionState 3 0 0 0).setReg 2 0xFBFFFFFFFFFFFFF9#64) 1 2 3 4 5).size ∧
      maxOutputBytes (regionOperands ((regionState 3 0 0 0).setReg 5 0x100A) 1 2 3 4 5).size < 2 ^ 64 ∧
      (0x1000 ≤ 0x100A ∧ 0x100A < 0x1000 + 11 ∧
        (regionOperands ((regionState 3 0 0 0).setReg 5 0x100A) 1 2 3 4 5).out = 0x100A) := by decide +kernel

/-- Both coefficients, on 11 bytes. -/
theorem witness_MulrgnShortcuts :
    IsCeil 11 8 2 ∧ (regionState 0 7 7 7).mem.wf = true ∧
      maxOutputBytes (regionOperands (regionState 0 7 7 7) 1 2 3 4 5).size < 2 ^ 64 ∧
      (regionOperands (regionState 0 7 7 7) 1 2 3 4 5).disjoint = true ∧
      (regionState 0 7 7 7).mem.accessible (regionOperands (regionState 0 7 7 7) 1 2 3 4 5).out 16 = true ∧
      (regionOperands (regionState 0 7 7 7) 1 2 3 4 5).coeff = 0 ∧
      (regionOperands (regionState 1 7 7 7) 1 2 3 4 5).coeff = 1 ∧
      (regionState 1 7 7 7).mem.accessible (regionOperands (regionState 1 7 7 7) 1 2 3 4 5).data 11 = true :=
  ⟨isCeil_ceilDiv 11 (by decide), by decide +kernel⟩

theorem witness_MadrgnZeroResult :
    IsCeil (regionOperands (regionState 0 7 7 7) 1 2 3 4 5).size 8 2 ∧
      maxOutputBytes (regionOperands (regionState 0 7 7 7) 1 2 3 4 5).size < 2 ^ 64 ∧
      (regionOperands (regionState 0 7 7 7) 1 2 3 4 5).disjoint = true ∧
      (regionOperands (regionState 0 7 7 7) 1 2 3 4 5).coeff = 0 :=
  ⟨isCeil_ceilDiv 11 (by decide), by decide +kernel⟩

/-- Eleven bytes with an ambiguous word, hence one auxiliary word; coefficient p − 1, and 1 for MADRGN. -/
theorem witness_RegionGeneralResult :
    IsCeil 1 63 1 ∧ (regionState 0xFFFFFFFF00000000#64 7 7 7).mem.wf = true ∧
      ((regionState 0xFFFFFFFF00000000#64 7 7 7).reg 3).toNat < Config.p ∧
      ((regionState 0xFFFFFFFF00000000#64 7 7 7).reg 3 ≠ 0 ∧ (regionState 0xFFFFFFFF00000000#64 7 7 7).reg 3 ≠ 1) ∧
      (regionState 1 7 7 7).reg 3 ≠ 0 ∧
      maxOutputBytes (regionOperands (regionState 3 7 7 7) 1 2 3 4 5).size < 2 ^ 64 ∧
      (regionOperands (regionState 3 7 7 7) 1 2 3 4 5).disjoint = true ∧
      (regionState 3 7 7 7).mem.accessible 0x1000 11 = true ∧
      (regionState 3 7 7 7).mem.accessible 0x2000 (8 * 1) = true ∧
      (regionState 3 7 7 7).mem.accessible 0x3000 (roundedLength 11 + 8 * 1) = true ∧
      (overflowBitsOf (regionState 3 7 7 7).mem (regionOperands (regionState 3 7 7 7) 1 2 3 4 5)).length = 1 :=
  ⟨isCeil_ceilDiv 1 (Nat.zero_lt_succ 62), by decide +kernel⟩

/-- The memory a successful result leaves. -/
def answers {α : Type} (r : Result α) (p : α → Bool) : Bool :=
  match r with
  | .next a => p a
  | _ => false

/-- Two words, one of them the largest. -/
theorem witness_WordCodecRoundTrip :
    State.reset.mem.wf = true ∧ (∀ v, v ∈ [0x1FFFFFFFFFFFFFFF#64, 1] → v.toNat < 2 ^ 61) ∧
      answers (writeWords State.reset.mem (writerBegin 0x100) [0x1FFFFFFFFFFFFFFF#64, 1]) (fun r =>
        answers (writerFlush r.1 r.2) fun m => m.readBytes 0x100 16 == 0x3FFFFFFFFFFFFFFF && r.2.total 0 == 16) = true :=
  ⟨by decide, by simp, by decide +kernel⟩

/-- Nine bytes 0xFF … 0xFF 0x00: the escape of 60 bits, then a word of 12 data bits with zeros above. -/
theorem witness_ByteCodecRoundTrip :
    ByteWords (small [] [(0x200, List.replicate 8 0xFF)]).mem 0x200 9 0
        [chunkWord 0x1FFFFFFFFFFFFFFF, chunkWord 0xF] ∧
      answers (writeEscaped State.reset.mem (writerBegin 0x300) [chunkWord 0x1FFFFFFFFFFFFFFF, chunkWord 0xF]) (fun r =>
        answers (writerFlush r.1 r.2) fun m => m.readBytes 0x300 9 == 0xFFFFFFFFFFFFFFFF && r.2.total 0 == 16) = true :=
  ⟨.word (by decide +kernel) (streamBits_eq_next.mpr (by decide +kernel))
      (.word (by decide +kernel) (streamBits_eq_next.mpr (by decide +kernel)) (.empty (by decide +kernel))),
    by decide +kernel⟩

end Sys2Proof.Tests
end

section
/-! The state (spec/10_state.md R20 to R33): what every step and every command does to it. First what the input amounts to
and what `step` does then; then the memory a command can leave; then what a command changes before it responds
(`CommandEffect`), from which the frames and the invariant follow. -/

namespace Sys2Proof.Machine

/-! ### Steps, by what the input amounts to -/

theorem step_of_waiting {s : State} (h : nextIssue s.input = .waiting) : step s = .next s := by
  simp only [step, h]

theorem step_of_broken {s : State} (h : nextIssue s.input = .broken) : step s = .refused .brokenCommand := by
  simp only [step, h]

theorem step_of_reset {s : State} {rest : List HostInput} (h : nextIssue s.input = .reset rest) :
    step s = .next { s with input := rest }.hostReset := by
  simp only [step, h]

theorem step_of_hostStore {s : State} {a : Nat} {b : Byte} {rest : List HostInput}
    (h : nextIssue s.input = .hostStore a b rest) : step s = { s with input := rest }.storeFromHost a b := by
  simp only [step, h]

/-- A halted core answers a command and does nothing (R233 step 1). -/
theorem step_of_halted {s : State} {ws : List CommandWord} {rest : List HostInput}
    (h : nextIssue s.input = .command ws rest) (hs : s.st.halt = true) :
    step s = .next { s with input := rest }.answerHalted := by
  simp only [step, h, hs, if_true]

theorem step_of_decoded {s : State} {ws : List CommandWord} {rest : List HostInput} {i : Instr}
    (h : nextIssue s.input = .command ws rest) (hs : s.st.halt = false) (hi : decode ws = .ok i) :
    step s = exec i { s with input := rest } := by
  simp only [step, h, hs, hi, Bool.false_eq_true, if_false]

theorem step_of_illegal {s : State} {ws : List CommandWord} {rest : List HostInput} {e : Reject}
    (h : nextIssue s.input = .command ws rest) (hs : s.st.halt = false) (hi : decode ws = .error e) :
    step s = .next { s with input := rest }.illegalCommand := by
  simp only [step, h, hs, hi, Bool.false_eq_true, if_false]

/-! ### What the input amounts to -/

/-- Words that decode are exactly as many as the first word's opcode asks for (R70). -/
theorem length_of_decode {ws : List CommandWord} {i : Instr} (h : decode ws = .ok i) :
    ∃ w vs, ws = w :: vs ∧ vs.length = commandLength w - 1 := by
  unfold decode at h
  split at h
  · cases h
  · split at h
    · cases h
    · rename_i w hw
      exact ⟨w, [], rfl, by simp [commandLength, hw]⟩
  · split at h
    · rename_i w lo hi hw
      exact ⟨w, [lo, hi], rfl, by simp [commandLength, hw]⟩
    · cases h
  · cases h

/-- Words that decode, first in the input, are taken as one command. -/
theorem nextIssue_of_decode {ws : List CommandWord} {i : Instr} (h : decode ws = .ok i) (rest : List HostInput) :
    nextIssue (asInput ws ++ rest) = .command ws rest := by
  obtain ⟨w, vs, rfl, hl⟩ := length_of_decode h
  have := takeWords_words [w] vs rest
  rwa [hl] at this

/-- A host store before the last word of a command, or before any word, comes first; the words stay. -/
theorem nextIssue_hostStore {ws : List CommandWord} (h : ∀ w vs, ws = w :: vs → ws.length < commandLength w)
    (a : Nat) (b : Byte) (rest : List HostInput) :
    nextIssue (asInput ws ++ .hostStore a b :: rest) = .hostStore a b (asInput ws ++ rest) := by
  cases ws with
  | nil => rfl
  | cons w vs => exact takeWords_hostStore (Nat.lt_sub_of_add_lt (h w vs rfl)) [w] a b rest

/-- A reset between the words of a command breaks it (R250). -/
theorem nextIssue_reset_between {w : CommandWord} {vs : List CommandWord} (h : (w :: vs).length < commandLength w)
    (rest : List HostInput) : nextIssue (asInput (w :: vs) ++ .reset :: rest) = .broken :=
  takeWords_reset (Nat.lt_sub_of_add_lt h) [w] rest

/-! ### Memory: one store, and several -/

/-- A write of usable bytes is a store in the sense of the claims (R51). -/
theorem stored_of_writeBytes {s t : State} {a n v : Nat} (hm : s.mem.wf = true) (ha : s.mem.accessible a n = true)
    (ht : t.mem = s.mem.writeBytes a n v) : Stored s t a n v where
  inside i hi := by rw [ht, byte_writeBytes_inside hm v hi (accessible_iff.mp ha).1]
  outside x hx := by rw [ht, byte_writeBytes_outside _ v hx]
  map := by rw [ht, writeBytes_map]

theorem storeFromHost_eq_next {s t : State} {a : Nat} {b : Byte} :
    s.storeFromHost a b = .next t ↔
      s.mem.accessible a 1 = true ∧ t = { s with mem := s.mem.writeBytes a 1 b.toNat } := by
  unfold State.storeFromHost
  rw [andThen_eq_next]
  constructor
  · rintro ⟨m, hm, ht⟩
    obtain ⟨ha, rfl⟩ := store_eq_next.mp hm
    injection ht with ht
    exact ⟨ha, ht.symm⟩
  · rintro ⟨ha, rfl⟩
    exact ⟨_, store_eq_next.mpr ⟨ha, rfl⟩, rfl⟩

/-- One memory comes from another by stores that answered, any number of them. -/
def StoresTo : Memory → Memory → Prop := Relation.ReflTransGen fun m m' => ∃ a n v, m.store a n v = .next m'

theorem StoresTo.refl (m : Memory) : StoresTo m m := Relation.ReflTransGen.refl

theorem StoresTo.tail {m m' m'' : Memory} {a n v : Nat} (h : StoresTo m m') (hs : m'.store a n v = .next m'') :
    StoresTo m m'' := Relation.ReflTransGen.tail h ⟨a, n, v, hs⟩

theorem StoresTo.writeBytes {m : Memory} {a n : Nat} (ha : m.accessible a n = true) (v : Nat) :
    StoresTo m (m.writeBytes a n v) := (StoresTo.refl m).tail (store_eq_next.mpr ⟨ha, rfl⟩)

theorem StoresTo.keeps_wf {m m' : Memory} (h : StoresTo m m') (hm : m.wf = true) : m'.wf = true := by
  induction h with
  | refl => exact hm
  | tail _ hs ih =>
    obtain ⟨a, n, v, hs⟩ := hs
    exact store_keeps_wf ih hs

/-! ### What a command does to the context of its codec, and to memory through it -/

/-- ADSETUP, ADRD8, ADFLUSH on memory and ADR (R155, R156, R158). -/
inductive PackerStep (m : Memory) (c : AdrContext) : Memory → AdrContext → Prop where
  | setup (base : Word) : PackerStep m c m (packerSetup base)
  | read {a : Nat} {r : Memory × AdrContext × Word} (h : packerRead m c a = .next r) : PackerStep m c r.1 r.2.1
  | flush {r : Memory × AdrContext} (h : packerFlush m c = .next r) : PackerStep m c r.1 { r.2 with active := false }

/-- The begin, write and flush commands of WW and BW on memory and their context (R172 to R174, R193 to R195). -/
inductive WriterStep (m : Memory) (c : WriterContext) : Memory → WriterContext → Prop where
  | begin (base : Word) : WriterStep m c m (writerBegin base)
  | append {v : Word} {width : Nat} {r : Memory × WriterContext} (hv : v.toNat < 2 ^ width) (hw : width ≤ 61)
      (h : writerAppend m c v width = .next r) : WriterStep m c r.1 r.2
  | flush {m' : Memory} (h : writerFlush m c = .next m') : WriterStep m c m' { c with active := false }

/-- WRBEGIN and WRREAD on WR (R176, R177). -/
inductive WordReaderStep (c : ReaderContext) : ReaderContext → Prop where
  | begin (base len : Word) : WordReaderStep c (readerBegin base len)
  | read (h : c.position + 61 ≤ 8 * c.len.toNat) : WordReaderStep c (c.advance 61)

/-- BRBEGIN and BRREAD on BR (R197, R198). -/
inductive ByteReaderStep (c : ReaderContext) : ReaderContext → Prop where
  | begin (base len : Word) : ByteReaderStep c (readerBegin base len)
  | empty : ByteReaderStep c c
  | read {width : Nat} (h : c.position < 8 * c.len.toNat) (hw : width ≤ 61) : ByteReaderStep c (c.advance width)

theorem PackerStep.storesTo {m m' : Memory} {c c' : AdrContext} (h : PackerStep m c m' c') : StoresTo m m' := by
  cases h with
  | setup => exact .refl m
  | read h => exact packerRead_keeps (P := StoresTo m) StoresTo.tail (.refl m) h
  | flush h => exact packerFlush_keeps (P := StoresTo m) StoresTo.tail (.refl m) h

theorem WriterStep.storesTo {m m' : Memory} {c c' : WriterContext} (h : WriterStep m c m' c') : StoresTo m m' := by
  cases h with
  | begin => exact .refl m
  | append _ _ h =>
    obtain ⟨-, rfl⟩ | ⟨-, ha, rfl⟩ := writerAppend_cases h
    · exact .refl m
    · exact .writeBytes ha _
  | flush h =>
    obtain ⟨h0 | ha, rfl⟩ := writerFlush_eq_next.mp h
    · rw [h0]
      exact .refl m
    · exact .writeBytes ha _

/-! ### What a command does before it responds -/

/-- Complete a command: deliver v to its destination, or respond without one. -/
def State.finish (u : State) (d : Option Reg) (v : Word) : State :=
  match d with
  | some rd => u.deliver rd v
  | none => u.complete

@[simp] theorem State.finish_some (u : State) (rd : Reg) (v : Word) : u.finish (some rd) v = u.deliver rd v := rfl
@[simp] theorem State.finish_none (u : State) (v : Word) : u.finish none v = u.complete := rfl

/-- The states in which a command can be when it has done all but respond: at most memory, or memory and the context of
its codec, or BR and EMPTY have changed. -/
inductive CommandEffect (s : State) (i : Instr) : State → Prop where
  | register : CommandEffect s i s
  | store {m : Memory} (hi : writesMemory i = true) (h : StoresTo s.mem m) : CommandEffect s i { s with mem := m }
  | adr {m : Memory} {c : AdrContext} (hi : writesAdr i = true) (h : PackerStep s.mem s.adr m c) :
      CommandEffect s i { s with mem := m, adr := c }
  | ww {m : Memory} {c : WriterContext} (hi : writesWw i = true) (h : WriterStep s.mem s.ww m c) :
      CommandEffect s i { s with mem := m, ww := c }
  | wr {c : ReaderContext} (hi : writesWr i = true) (h : WordReaderStep s.wr c) : CommandEffect s i { s with wr := c }
  | bw {m : Memory} {c : WriterContext} (hi : writesBw i = true) (h : WriterStep s.mem s.bw m c) :
      CommandEffect s i { s with mem := m, bw := c }
  | br {c : ReaderContext} (hi : writesBr i = true) (h : ByteReaderStep s.br c) (b : Bool) :
      CommandEffect s i ({ s with br := c }.setEmpty b)

/-- `t` is a state in which command `i` completes from `s`. -/
def Completes (i : Instr) (s t : State) : Prop := ∃ u v, CommandEffect s i u ∧ t = u.finish (destination i) v

theorem CommandEffect.delivers {i : Instr} {s u t : State} {rd : Reg} {v : Word} (hu : CommandEffect s i u)
    (hd : destination i = some rd) (h : (.next (u.deliver rd v) : Result State) = .next t) : Completes i s t := by
  injection h with h
  exact ⟨u, v, hu, by rw [hd, ← h, State.finish_some]⟩

theorem CommandEffect.completes {i : Instr} {s u t : State} (hu : CommandEffect s i u)
    (hd : destination i = none) (h : (.next u.complete : Result State) = .next t) : Completes i s t := by
  injection h with h
  exact ⟨u, 0, hu, by rw [hd, ← h, State.finish_none]⟩

theorem completes_of_loadInto {i : Instr} {s t : State} {rd : Reg} {a n : Nat} (hd : destination i = some rd)
    (h : loadInto rd a n s = .next t) : Completes i s t := by
  obtain ⟨-, rfl⟩ := loadInto_eq_next.mp h
  exact CommandEffect.register.delivers hd rfl

theorem completes_of_deliverSize {i : Instr} {s t : State} {rd : Reg} {v : Nat} (hd : destination i = some rd)
    (h : deliverSize rd v s = .next t) : Completes i s t := by
  obtain ⟨-, rfl⟩ := deliverSize_eq_next.mp h
  exact CommandEffect.register.delivers hd rfl

theorem completes_of_storeFrom {i : Instr} {s t : State} {a n : Nat} {v : Word} (hi : writesMemory i = true)
    (hd : destination i = none) (h : storeFrom a n v s = .next t) : Completes i s t := by
  obtain ⟨ha, rfl⟩ := storeFrom_eq_next.mp h
  exact (CommandEffect.store hi (.writeBytes ha _)).completes hd rfl

/-- A value that BWWRITE admits fits the width it is appended with. -/
theorem lt_two_pow_escapedWidth {v : Word} (h : v.toNat < 2 ^ 61) : v.toNat < 2 ^ escapedWidth v := by
  unfold escapedWidth
  split
  · rename_i hv
    rw [hv]
    decide
  · exact h

theorem escapedWidth_le (v : Word) : escapedWidth v ≤ 61 := by
  unfold escapedWidth
  split <;> decide

theorem chunkWidth_le (c : Nat) : chunkWidth c ≤ 61 := by
  unfold chunkWidth
  split <;> decide

theorem not_exhausted_iff {c : ReaderContext} : c.exhausted = false ↔ c.position < 8 * c.len.toNat := by
  simp [ReaderContext.exhausted]

/-- All that a command can do when it goes on. -/
theorem completes_of_exec {i : Instr} {s t : State} (h : exec i s = .next t) : Completes i s t := by
  cases i with
  | fadd | fsub | fneg | fmul | fpred | ffin | finv | seti | rdst | adwsb | wrcount | brmax =>
    exact CommandEffect.register.delivers rfl h
  | ldu32 | ldu64 => exact completes_of_loadInto rfl h
  | wwneed | bwmax => exact completes_of_deliverSize rfl h
  | stu32 | stu64 => exact completes_of_storeFrom rfl rfl h
  | ldb rd ra rb =>
    simp only [exec, execLdb] at h
    split at h
    · exact completes_of_loadInto rfl h
    · exact CommandEffect.register.delivers rfl h
  | stb ra rb rc =>
    simp only [exec, execStb] at h
    split at h
    · exact completes_of_storeFrom rfl rfl h
    · exact CommandEffect.register.completes rfl h
  | admob rd ra =>
    obtain ⟨_, -, h⟩ := andThen_eq_next.mp h
    exact CommandEffect.register.delivers rfl h
  | adrdf rd ra rb =>
    obtain ⟨_, -, h⟩ := andThen_eq_next.mp h
    obtain ⟨_, -, h⟩ := andThen_eq_next.mp h
    obtain ⟨w, -, h⟩ := andThen_eq_next.mp h
    exact CommandEffect.register.delivers rfl h
  | adsetup ra => exact (CommandEffect.adr rfl (.setup _)).completes rfl h
  | adrd8 rd ra =>
    obtain ⟨_, -, h⟩ := andThen_eq_next.mp h
    obtain ⟨r, hr, h⟩ := andThen_eq_next.mp h
    exact (CommandEffect.adr rfl (.read hr)).delivers rfl h
  | adflush rd =>
    obtain ⟨_, -, h⟩ := andThen_eq_next.mp h
    obtain ⟨r, hr, h⟩ := andThen_eq_next.mp h
    exact (CommandEffect.adr rfl (.flush hr)).delivers rfl h
  | wwbegin ra => exact (CommandEffect.ww rfl (.begin _)).completes rfl h
  | wwwrite ra =>
    obtain ⟨_, hc, h⟩ := andThen_eq_next.mp h
    obtain ⟨r, hr, h⟩ := andThen_eq_next.mp h
    obtain ⟨-, hv⟩ := writerCheck_eq_next.mp hc
    exact (CommandEffect.ww rfl (.append hv le_rfl hr)).completes rfl h
  | wwflush rd =>
    obtain ⟨_, -, h⟩ := andThen_eq_next.mp h
    obtain ⟨m, hm, h⟩ := andThen_eq_next.mp h
    exact (CommandEffect.ww rfl (.flush hm)).delivers rfl h
  | wrbegin ra rb => exact (CommandEffect.wr rfl (.begin _ _)).completes rfl h
  | wrread rd =>
    obtain ⟨_, -, h⟩ := andThen_eq_next.mp h
    obtain ⟨_, hp, h⟩ := andThen_eq_next.mp h
    obtain ⟨v, -, h⟩ := andThen_eq_next.mp h
    have hp := Nat.not_lt.mp (of_decide_eq_false (refuseIf_eq_next.mp hp))
    exact (CommandEffect.wr rfl (.read hp)).delivers rfl h
  | bwbegin ra => exact (CommandEffect.bw rfl (.begin _)).completes rfl h
  | bwwrite ra =>
    obtain ⟨_, hc, h⟩ := andThen_eq_next.mp h
    obtain ⟨r, hr, h⟩ := andThen_eq_next.mp h
    obtain ⟨-, hv⟩ := writerCheck_eq_next.mp hc
    exact (CommandEffect.bw rfl (.append (lt_two_pow_escapedWidth hv) (escapedWidth_le _) hr)).completes rfl h
  | bwflush rd =>
    obtain ⟨_, -, h⟩ := andThen_eq_next.mp h
    obtain ⟨m, hm, h⟩ := andThen_eq_next.mp h
    exact (CommandEffect.bw rfl (.flush hm)).delivers rfl h
  | brbegin ra rb => exact (CommandEffect.br rfl (.begin _ _) false).completes rfl h
  | brread rd =>
    obtain ⟨_, -, h⟩ := andThen_eq_next.mp h
    split at h
    · exact (CommandEffect.br rfl .empty true).delivers rfl h
    · rename_i he
      obtain ⟨c, -, h⟩ := andThen_eq_next.mp h
      have hp := not_exhausted_iff.mp (Bool.eq_false_iff.mpr he)
      exact (CommandEffect.br rfl (.read hp (chunkWidth_le c)) false).delivers rfl h
  | mulrgn rd ra rb rc re rf =>
    obtain ⟨r, hr, h⟩ := andThen_eq_next.mp h
    have hm := multiplyRegion_keeps (P := StoresTo s.mem) StoresTo.tail (.refl s.mem) hr
    exact (CommandEffect.store rfl hm).delivers rfl h
  | madrgn rd ra rb rc re rf =>
    obtain ⟨r, hr, h⟩ := andThen_eq_next.mp h
    have hm := multiplyAddRegion_keeps (P := StoresTo s.mem) StoresTo.tail (.refl s.mem) hr
    exact (CommandEffect.store rfl hm).delivers rfl h

/-! ### Frames of all commands at once -/

theorem CommandEffect.registers {i : Instr} {s u : State} (h : CommandEffect s i u) (r : Reg) :
    u.reg r = s.reg r ∧ u.holdsValue r = s.holdsValue r := by
  cases h <;> exact ⟨rfl, rfl⟩

theorem State.finish_registers (u : State) {d : Option Reg} {r : Reg} (v : Word) (h : d ≠ some r) :
    (u.finish d v).reg r = u.reg r ∧ (u.finish d v).holdsValue r = u.holdsValue r := by
  cases d with
  | none => exact ⟨rfl, rfl⟩
  | some rd =>
    have hr : r ≠ rd := fun e => h (e ▸ rfl)
    exact ⟨State.reg_deliver_of_ne u v hr, State.holdsValue_deliver_of_ne u v hr⟩

/-- The two notions of a command that writes the byte reader's state (R25, R31) are one. -/
theorem writesBr_eq_writesEmpty (i : Instr) : writesBr i = writesEmpty i := by
  cases i <;> rfl

theorem CommandEffect.status {i : Instr} {s u : State} (h : CommandEffect s i u) (hi : writesEmpty i = false) :
    u.st = s.st := by
  cases h with
  | register | store | adr | ww | wr | bw => rfl
  | br hb => exact absurd (writesBr_eq_writesEmpty i ▸ hb) (by simp [hi])

theorem CommandEffect.contexts {i : Instr} {s u : State} (h : CommandEffect s i u) :
    (writesAdr i = false → u.adr = s.adr) ∧ (writesWw i = false → u.ww = s.ww) ∧ (writesWr i = false → u.wr = s.wr) ∧
      (writesBw i = false → u.bw = s.bw) ∧ (writesBr i = false → u.br = s.br) := by
  cases h with
  | register | store => simp
  | adr hi | ww hi | wr hi | bw hi | br hi => simp [hi]

@[simp] theorem State.finish_st (u : State) (d : Option Reg) (v : Word) : (u.finish d v).st = u.st := by cases d <;> rfl
@[simp] theorem State.finish_adr (u : State) (d : Option Reg) (v : Word) : (u.finish d v).adr = u.adr := by cases d <;> rfl
@[simp] theorem State.finish_ww (u : State) (d : Option Reg) (v : Word) : (u.finish d v).ww = u.ww := by cases d <;> rfl
@[simp] theorem State.finish_wr (u : State) (d : Option Reg) (v : Word) : (u.finish d v).wr = u.wr := by cases d <;> rfl
@[simp] theorem State.finish_bw (u : State) (d : Option Reg) (v : Word) : (u.finish d v).bw = u.bw := by cases d <;> rfl
@[simp] theorem State.finish_br (u : State) (d : Option Reg) (v : Word) : (u.finish d v).br = u.br := by cases d <;> rfl
@[simp] theorem State.finish_mem (u : State) (d : Option Reg) (v : Word) : (u.finish d v).mem = u.mem := by cases d <;> rfl

end Sys2Proof.Machine
end

section
/-! The invariant (spec/10_state.md R26 to R31): each context keeps its bounds under the commands of its codec, so every
command keeps the invariant, and so does every step. -/

namespace Sys2Proof.Machine

/-! ### Bits put above buffered bits -/

/-- A value shifted above the bits of another is added to it. -/
theorem or_shiftLeft_eq_add {a n : Nat} (v : Nat) (ha : a < 2 ^ n) : a ||| v <<< n = a + v * 2 ^ n := by
  rw [Nat.lor_comm, ← Nat.shiftLeft_add_eq_or_of_lt ha, Nat.shiftLeft_eq, Nat.add_comm]

/-- Bits below position n and `w` bits above them make a number of `n + w` bits. -/
theorem add_mul_two_pow_lt {a v n w : Nat} (ha : a < 2 ^ n) (hv : v < 2 ^ w) : a + v * 2 ^ n < 2 ^ (n + w) := by
  calc a + v * 2 ^ n < 2 ^ n + v * 2 ^ n := Nat.add_lt_add_right ha _
    _ = (v + 1) * 2 ^ n := by rw [Nat.add_mul, Nat.one_mul, Nat.add_comm]
    _ ≤ 2 ^ w * 2 ^ n := Nat.mul_le_mul_right _ hv
    _ = 2 ^ (n + w) := by rw [← Nat.pow_add, Nat.add_comm]

/-- The temporary A of R173 and R194 as an integer: v above the CNT buffered bits. -/
theorem writerAccWith_toNat {c : WriterContext} {v : Word} (hc : c.acc.toNat < 2 ^ c.cnt.toNat)
    (hv : v.toNat < 2 ^ 61) : (c.accWith v).toNat = c.acc.toNat + v.toNat * 2 ^ c.cnt.toNat := by
  have hn : c.cnt.toNat ≤ 63 := Nat.le_of_lt_succ c.cnt.isLt
  have hs : v.toNat <<< c.cnt.toNat < 2 ^ 125 := by
    rw [Nat.shiftLeft_eq]
    calc v.toNat * 2 ^ c.cnt.toNat ≤ v.toNat * 2 ^ 63 := Nat.mul_le_mul_left _ (Nat.pow_le_pow_right (by decide) hn)
      _ < 2 ^ 125 := by omega
  have ha : c.acc.toNat < 2 ^ 125 := Nat.lt_trans c.acc.isLt (by decide)
  rw [← or_shiftLeft_eq_add _ hc, WriterContext.accWith, BitVec.toNat_or, BitVec.toNat_shiftLeft,
    BitVec.toNat_setWidth, BitVec.toNat_setWidth, Nat.mod_eq_of_lt ha,
    Nat.mod_eq_of_lt (Nat.lt_trans hv (by decide)), Nat.mod_eq_of_lt hs]

/-- ACC with one more bit at CNT, as an integer (R159). -/
theorem packerAccWith_toNat {c : AdrContext} (hc : c.acc.toNat < 2 ^ c.cnt.toNat) (hn : c.cnt.toNat ≤ 62)
    (bit : Bool) : (c.accWith bit).toNat = c.acc.toNat + bit.toNat * 2 ^ c.cnt.toNat := by
  have hb : bit.toNat ≤ 1 := Bool.toNat_le bit
  have hs : bit.toNat <<< c.cnt.toNat < 2 ^ 64 := by
    rw [Nat.shiftLeft_eq]
    calc bit.toNat * 2 ^ c.cnt.toNat ≤ 1 * 2 ^ 62 :=
          Nat.mul_le_mul hb (Nat.pow_le_pow_right (by decide) hn)
      _ < 2 ^ 64 := by decide
  rw [← or_shiftLeft_eq_add _ hc, AdrContext.accWith, BitVec.toNat_or, BitVec.toNat_shiftLeft,
    BitVec.toNat_setWidth, BitVec.toNat_ofBool, Nat.mod_eq_of_lt (Nat.lt_of_le_of_lt hb (by decide)),
    Nat.mod_eq_of_lt hs]

/-- A count below 64 is held whole by the six bits of CNT. -/
theorem cnt_ofNat_toNat {n : Nat} (h : n < 64) : (BitVec.ofNat 6 n).toNat = n := by
  rw [BitVec.toNat_ofNat, Nat.mod_eq_of_lt h]

/-! ### The packer -/

/-- The next auxiliary address after a word that was stored: no field wraps (R58). -/
theorem auxAddress_next {c : AdrContext} (h : c.auxAddress + 8 ≤ Config.addressSpace) :
    ({ c with auxWords := c.auxWords + 1, acc := 0, cnt := 0 } : AdrContext).auxAddress = c.auxAddress + 8 := by
  simp only [AdrContext.auxAddress, Config.addressSpace] at *
  rw [BitVec.toNat_add, show (1 : Word).toNat = 1 from rfl]
  omega

/-- ADR is legal again after an auxiliary word (R159), whatever it held above the words already written. -/
theorem adrLegal_of_flushed {c : AdrContext} (h : c.auxAddress + 8 ≤ Config.addressSpace) :
    adrLegal { c with auxWords := c.auxWords + 1, acc := 0, cnt := 0 } :=
  ⟨Nat.zero_le 62, Nat.one_pos, (auxAddress_next h).trans_le h⟩

theorem packerAppend_keeps_legal {m : Memory} {c : AdrContext} {bit : Bool} {r : Memory × AdrContext}
    (hc : adrLegal c) (h : packerAppend m c bit = .next r) : adrLegal r.2 := by
  obtain ⟨hn, hacc, haux⟩ := hc
  obtain ⟨hlt, rfl⟩ | ⟨-, ha, rfl⟩ := packerAppend_cases h
  · have hcnt : (BitVec.ofNat 6 (c.cnt.toNat + 1)).toNat = c.cnt.toNat + 1 := cnt_ofNat_toNat (by omega)
    refine ⟨?_, ?_, haux⟩
    · show (BitVec.ofNat 6 (c.cnt.toNat + 1)).toNat ≤ 62
      omega
    · show (c.accWith bit).toNat < 2 ^ (BitVec.ofNat 6 (c.cnt.toNat + 1)).toNat
      rw [hcnt, packerAccWith_toNat hacc hn]
      exact add_mul_two_pow_lt hacc bit.toNat_lt
  · exact adrLegal_of_flushed (accessible_iff.mp ha).1

theorem PackerStep.keeps_legal {m m' : Memory} {c c' : AdrContext} (hc : adrLegal c) (h : PackerStep m c m' c') :
    adrLegal c' := by
  cases h with
  | setup base => exact ⟨Nat.zero_le 62, Nat.one_pos, Nat.le_of_lt base.isLt⟩
  | read h =>
    obtain ⟨-, ⟨-, rfl⟩ | ⟨-, q, hq, rfl⟩⟩ := packerRead_cases h
    · exact hc
    · exact packerAppend_keeps_legal hc hq
  | flush h =>
    obtain ⟨-, rfl⟩ | ⟨-, hf⟩ := packerFlush_cases h
    · exact hc
    · obtain ⟨ha, rfl⟩ := packerFlushWord_eq_next.mp hf
      exact adrLegal_of_flushed (accessible_iff.mp ha).1

/-! ### The writers -/

/-- The next address of a writer after a stored word: `past` makes up for PTR coming round (log entry 8). -/
theorem writerAddress_next {c : WriterContext} (h : c.address + 8 ≤ Config.addressSpace) (acc : Word) (cnt : BitVec 6) :
    ({ c with ptr := c.ptr + 8, past := decide (Config.addressSpace ≤ c.address + 8), acc := acc, cnt := cnt } :
      WriterContext).address = c.address + 8 := by
  have hp : c.address = c.ptr.toNat := writerAddress_of_not_past (Bool.eq_false_iff.mpr fun hp => by
    have := writerAddress_of_past hp
    omega)
  show (c.ptr + 8).toNat + (if decide (Config.addressSpace ≤ c.address + 8) then _ else 0) = _
  have hlt := c.ptr.isLt
  rw [BitVec.toNat_add, show (8 : Word).toNat = 8 from rfl]
  simp only [hp, decide_eq_true_eq, Config.addressSpace] at *
  split <;> omega

theorem writerAppend_keeps_legal {m : Memory} {c : WriterContext} {v : Word} {width : Nat}
    {r : Memory × WriterContext} (hc : writerLegal c) (hv : v.toNat < 2 ^ width) (hw : width ≤ 61)
    (h : writerAppend m c v width = .next r) : writerLegal r.2 := by
  obtain ⟨hbase, hdvd, hend, hacc⟩ := hc
  have hA : (c.accWith v).toNat < 2 ^ (c.cnt.toNat + width) := by
    rw [writerAccWith_toNat hacc (Nat.lt_of_lt_of_le hv (Nat.pow_le_pow_right (by decide) hw))]
    exact add_mul_two_pow_lt hacc hv
  obtain ⟨hlt, rfl⟩ | ⟨hge, ha, rfl⟩ := writerAppend_cases h
  · refine ⟨hbase, hdvd, hend, ?_⟩
    show ((c.accWith v).setWidth 64).toNat < 2 ^ (BitVec.ofNat 6 (c.cnt.toNat + width)).toNat
    rw [cnt_ofNat_toNat hlt, BitVec.toNat_setWidth]
    exact Nat.lt_of_le_of_lt (Nat.mod_le _ _) hA
  · have hspace := (accessible_iff.mp ha).1
    have haddr := writerAddress_next hspace ((c.accWith v >>> 64).setWidth 64)
      (BitVec.ofNat 6 (c.cnt.toNat + width - 64))
    have hcnt : c.cnt.toNat + width - 64 < 64 := by
      have := c.cnt.isLt
      omega
    refine ⟨?_, ?_, haddr.trans_le hspace, ?_⟩
    · show c.base.toNat ≤ WriterContext.address _
      rw [haddr]
      exact Nat.le_add_right_of_le hbase
    · show 8 ∣ WriterContext.address _ - c.base.toNat
      rw [haddr]
      omega
    · show ((c.accWith v >>> 64).setWidth 64).toNat < 2 ^ (BitVec.ofNat 6 (c.cnt.toNat + width - 64)).toNat
      rw [cnt_ofNat_toNat hcnt, BitVec.toNat_setWidth, BitVec.toNat_ushiftRight, Nat.shiftRight_eq_div_pow]
      refine Nat.lt_of_le_of_lt (Nat.mod_le _ _) (Nat.div_lt_of_lt_mul ?_)
      rwa [← Nat.pow_add, Nat.add_sub_cancel' hge]

theorem WriterStep.keeps_legal {m m' : Memory} {c c' : WriterContext} (hc : writerLegal c) (h : WriterStep m c m' c') :
    writerLegal c' := by
  cases h with
  | begin base =>
    have hdvd : 8 ∣ base.toNat - base.toNat := by simp
    exact ⟨le_rfl, hdvd, Nat.le_of_lt base.isLt, Nat.one_pos⟩
  | append hv hw h => exact writerAppend_keeps_legal hc hv hw h
  | flush => exact hc

/-! ### The readers -/

theorem WordReaderStep.keeps_legal {c c' : ReaderContext} (hc : wordReaderLegal c) (h : WordReaderStep c c') :
    wordReaderLegal c' := by
  cases h with
  | begin => exact ⟨Nat.dvd_zero 61, Nat.zero_le _⟩
  | read h =>
    obtain ⟨hdvd, -⟩ := hc
    obtain ⟨hpos, -⟩ := readerAdvance (Nat.lt_of_add_right_lt (Nat.lt_of_lt_of_le (Nat.lt_add_one _) h)) (le_refl 61)
    exact ⟨hpos ▸ Nat.dvd_add hdvd (Nat.dvd_refl 61), hpos.trans_le h⟩

theorem ByteReaderStep.keeps_legal {c c' : ReaderContext} (hc : byteReaderLegal c) (h : ByteReaderStep c c') :
    byteReaderLegal c' := by
  cases h with
  | begin => exact Nat.zero_le _
  | empty => exact hc
  | read h hw =>
    obtain ⟨hpos, -⟩ := readerAdvance h hw
    show ReaderContext.position _ ≤ 8 * c.len.toNat + 60
    omega

/-! ### Commands and steps -/

theorem CommandEffect.keeps_inv {i : Instr} {s u : State} (hs : Inv s) (h : CommandEffect s i u) : Inv u := by
  cases h with
  | register => exact hs
  | store _ h => exact { hs with memory := h.keeps_wf hs.memory }
  | adr _ h => exact { hs with memory := h.storesTo.keeps_wf hs.memory, adr := h.keeps_legal hs.adr }
  | ww _ h => exact { hs with memory := h.storesTo.keeps_wf hs.memory, ww := h.keeps_legal hs.ww }
  | wr _ h => exact { hs with wr := h.keeps_legal hs.wr }
  | bw _ h => exact { hs with memory := h.storesTo.keeps_wf hs.memory, bw := h.keeps_legal hs.bw }
  | br _ h => exact { hs with br := h.keeps_legal hs.br }

theorem State.finish_keeps_inv {u : State} (hu : Inv u) (d : Option Reg) (v : Word) : Inv (u.finish d v) := by
  cases d with
  | none => exact { hu with }
  | some rd => exact { hu with }

theorem exec_keeps_inv {i : Instr} {s t : State} (hs : Inv s) (h : exec i s = .next t) : Inv t := by
  obtain ⟨u, v, hu, rfl⟩ := completes_of_exec h
  exact State.finish_keeps_inv (hu.keeps_inv hs) _ v

/-- Taking input changes nothing the invariant names. -/
theorem Inv.with_input {s : State} (hs : Inv s) (rest : List HostInput) : Inv { s with input := rest } := { hs with }

theorem reset_inv : Inv State.reset where
  memory := reset_memory_wf
  status := ⟨fun _ => rfl, nofun⟩
  adr := ⟨Nat.zero_le 62, Nat.one_pos, Nat.zero_le _⟩
  ww := ⟨le_rfl, Nat.dvd_zero 8, Nat.zero_le _, Nat.one_pos⟩
  wr := ⟨Nat.dvd_zero 61, le_rfl⟩
  bw := ⟨le_rfl, Nat.dvd_zero 8, Nat.zero_le _, Nat.one_pos⟩
  br := Nat.zero_le _

theorem hostReset_keeps_inv {s : State} (hs : Inv s) : Inv s.hostReset := { reset_inv with memory := hs.memory }

theorem answerHalted_keeps_inv {s : State} (hs : Inv s) : Inv s.answerHalted := { hs with }

theorem illegalCommand_keeps_inv {s : State} (hs : Inv s) : Inv s.illegalCommand :=
  { hs with status := ⟨nofun, fun _ => rfl⟩ }

theorem storeFromHost_keeps_inv {s t : State} {a : Nat} {b : Byte} (hs : Inv s) (h : s.storeFromHost a b = .next t) :
    Inv t := by
  obtain ⟨ha, rfl⟩ := storeFromHost_eq_next.mp h
  exact { hs with memory := (StoresTo.writeBytes ha _).keeps_wf hs.memory }

theorem step_keeps_inv {s t : State} (hs : Inv s) (h : step s = .next t) : Inv t := by
  cases hn : nextIssue s.input with
  | waiting =>
    rw [step_of_waiting hn] at h
    injection h with h
    exact h ▸ hs
  | broken =>
    rw [step_of_broken hn] at h
    cases h
  | reset rest =>
    rw [step_of_reset hn] at h
    injection h with h
    exact h ▸ hostReset_keeps_inv (hs.with_input rest)
  | hostStore a b rest =>
    rw [step_of_hostStore hn] at h
    exact storeFromHost_keeps_inv (hs.with_input rest) h
  | command ws rest =>
    cases hh : s.st.halt with
    | true =>
      rw [step_of_halted hn hh] at h
      injection h with h
      exact h ▸ answerHalted_keeps_inv (hs.with_input rest)
    | false =>
      cases hd : decode ws with
      | ok i =>
        rw [step_of_decoded hn hh hd] at h
        exact exec_keeps_inv (hs.with_input rest) h
      | error e =>
        rw [step_of_illegal hn hh hd] at h
        injection h with h
        exact h ▸ illegalCommand_keeps_inv (hs.with_input rest)

/-- Settles O17: a case split on what the input amounts to; for a command, the effect it has before it responds keeps
the invariant (`CommandEffect.keeps_inv`) and the response touches nothing the invariant names. -/
theorem stepKeepsInvariant : Obligations.StepKeepsInvariant := fun _ _ => step_keeps_inv

/-- Settles O18: the reset state of the invariant (log entry 2 for the fields R33 gives no value). -/
theorem resetHasInvariant : Obligations.ResetHasInvariant := reset_inv

end Sys2Proof.Machine
end

section
/-! Which registers a command writes and reads (spec/10_state.md R22), and what else no command but its codec's changes
(R25, R27 to R31). -/

namespace Sys2Proof.Machine

/-- Settles O12: a command changes no register before it responds, and the response writes its destination only. -/
theorem onlyDestinationWritten : Obligations.OnlyDestinationWritten := by
  intro i s t h r hr
  obtain ⟨u, v, hu, rfl⟩ := completes_of_exec h
  obtain ⟨hreg, hheld⟩ := hu.registers r
  obtain ⟨hreg', hheld'⟩ := u.finish_registers v hr
  exact ⟨hreg'.trans hreg, hheld'.trans hheld⟩

/-- Settles O14: EMPTY is written together with BR, by BRBEGIN and BRREAD. -/
theorem onlyByteReaderWritesStatus : Obligations.OnlyByteReaderWritesStatus := by
  intro i s t h hi
  obtain ⟨u, v, hu, rfl⟩ := completes_of_exec h
  exact (u.finish_st _ v).trans (hu.status hi)

/-- Settles O15, from the contexts that a command's effect may name. -/
theorem contextsOwnedByTheirCodec : Obligations.ContextsOwnedByTheirCodec := by
  intro i s t h
  obtain ⟨u, v, hu, rfl⟩ := completes_of_exec h
  simpa using hu.contexts

/-! ### Two runs that differ in one register -/

/-- `s` with another value in register r, whose mark of holding a value stays. -/
def State.withValue (s : State) (r : Reg) (v : Word) : State := { s with regs := s.regs.set r v }

theorem State.reg_withValue_of_ne (s : State) {r q : Reg} (v : Word) (h : q ≠ r) : (s.withValue r v).reg q = s.reg q :=
  State.reg_setReg_of_ne s v h

/-- Delivering to the register hides the other value. -/
theorem State.deliver_withValue_self (u : State) (r : Reg) (v w : Word) :
    (u.withValue r v).deliver r w = u.deliver r w := by
  simp [State.withValue, State.deliver, State.setReg, State.respond]

/-- Delivering to another register leaves it in place. -/
theorem State.deliver_withValue_of_ne (u : State) {r rd : Reg} (v w : Word) (h : rd ≠ r) :
    (u.withValue r v).deliver rd w = (u.deliver rd w).withValue r v := by
  have hv : (r : Nat) ≠ rd := fun e => h (Fin.ext e.symm)
  simp [State.withValue, State.deliver, State.setReg, State.respond, Vector.set_comm _ _ hv]

/-- The run `x'` of a command with destination d, started with v in register r, ends as the run `x` did: with the same
fault or refusal, or in the same state but for r, which holds v unless it is d. -/
def SameBut (r : Reg) (v : Word) (d : Option Reg) (x x' : Result State) : Prop :=
  x' = andThen x fun t => .next (if d = some r then t else t.withValue r v)

section SameBut

variable {r : Reg} {v : Word} {d : Option Reg}

theorem SameBut.deliver {u : State} {rd : Reg} {w : Word} :
    SameBut r v (some rd) (.next (u.deliver rd w)) (.next ((u.withValue r v).deliver rd w)) := by
  by_cases h : rd = r
  · subst h
    simp [SameBut, State.deliver_withValue_self]
  · simp [SameBut, State.deliver_withValue_of_ne u v w h, h]

theorem SameBut.complete {u : State} : SameBut r v none (.next u.complete) (.next (u.withValue r v).complete) := rfl

/-- Going on from the same answer in both runs. -/
theorem SameBut.andThen {α : Type} {x : Result α} {f f' : α → Result State} (h : ∀ a, SameBut r v d (f a) (f' a)) :
    SameBut r v d (andThen x f) (andThen x f') := by
  cases x with
  | next a => exact h a
  | fault e => rfl
  | refused e => rfl

/-- Taking the same branch in both runs. -/
theorem SameBut.ite {c : Prop} [Decidable c] {x x' y y' : Result State} (hx : SameBut r v d x x')
    (hy : SameBut r v d y y') : SameBut r v d (if c then x else y) (if c then x' else y') := by
  split
  · exact hx
  · exact hy

theorem SameBut.loadInto {s : State} {rd : Reg} {a n : Nat} :
    SameBut r v (some rd) (loadInto rd a n s) (loadInto rd a n (s.withValue r v)) := .andThen fun _ => .deliver

theorem SameBut.deliverSize {s : State} {rd : Reg} {n : Nat} :
    SameBut r v (some rd) (deliverSize rd n s) (deliverSize rd n (s.withValue r v)) := .andThen fun _ => .deliver

theorem SameBut.storeFrom {s : State} {a n : Nat} {w : Word} :
    SameBut r v none (storeFrom a n w s) (storeFrom a n w (s.withValue r v)) :=
  .andThen fun m => .complete (u := { s with mem := m })

end SameBut

/-- A command that reads registers with the same values runs alike: every use of a register in a command's meaning is by
`State.reg` of one of its source fields. -/
theorem exec_sameBut {i : Instr} {r : Reg} (h : r ∉ sources i) (s : State) (v : Word) :
    SameBut r v (destination i) (exec i s) (exec i (s.withValue r v)) := by
  have hr : ∀ q ∈ sources i, (s.withValue r v).reg q = s.reg q := fun q hq =>
    State.reg_withValue_of_ne s v fun e => h (e ▸ hq)
  clear h
  cases i with simp only [sources, List.forall_mem_cons] at hr
  | seti | rdst => exact .deliver
  | fadd | fsub | fmul | fneg | fpred | ffin | finv | adwsb | wrcount | brmax =>
    simp only [exec, execFadd, execFsub, execFmul, execFneg, execFpred, execFfin, execFinv, execAdwsb, execWrcount,
      execBrmax, State.count, hr]
    exact .deliver
  | ldu32 | ldu64 =>
    simp only [exec, execLdu32, execLdu64, State.address, hr]
    exact .loadInto
  | ldb rd ra rb =>
    simp only [exec, execLdb, State.address, State.count, hr]
    exact .ite .loadInto .deliver
  | stu32 | stu64 =>
    simp only [exec, execStu32, execStu64, State.address, hr]
    exact .storeFrom
  | stb ra rb rc =>
    simp only [exec, execStb, State.address, State.count, hr]
    exact .ite .storeFrom .complete
  | wwneed | bwmax =>
    simp only [exec, execWwneed, execBwmax, State.count, hr]
    exact .deliverSize
  | admob rd ra =>
    simp only [exec, execAdmob, State.count, hr]
    exact .andThen fun _ => .deliver
  | adsetup ra =>
    simp only [exec, execAdsetup, hr]
    exact .complete (u := { s with adr := _ })
  | adrd8 rd ra =>
    simp only [exec, execAdrd8, State.address, hr]
    exact .andThen fun _ => .andThen fun _ => .deliver (u := { s with mem := _, adr := _ })
  | adrdf rd ra rb =>
    simp only [exec, execAdrdf, State.address, State.count, hr]
    exact .andThen fun _ => .andThen fun _ => .andThen fun _ => .deliver
  | adflush rd => exact .andThen fun _ => .andThen fun _ => .deliver (u := { s with mem := _, adr := _ })
  | wwbegin ra =>
    simp only [exec, execWwbegin, hr]
    exact .complete (u := { s with ww := _ })
  | wwwrite ra =>
    simp only [exec, execWwwrite, hr]
    exact .andThen fun _ => .andThen fun _ => .complete (u := { s with mem := _, ww := _ })
  | wwflush rd => exact .andThen fun _ => .andThen fun _ => .deliver (u := { s with mem := _, ww := _ })
  | wrbegin ra rb =>
    simp only [exec, execWrbegin, hr]
    exact .complete (u := { s with wr := _ })
  | wrread rd => exact .andThen fun _ => .andThen fun _ => .andThen fun _ => .deliver (u := { s with wr := _ })
  | bwbegin ra =>
    simp only [exec, execBwbegin, hr]
    exact .complete (u := { s with bw := _ })
  | bwwrite ra =>
    simp only [exec, execBwwrite, hr]
    exact .andThen fun _ => .andThen fun _ => .complete (u := { s with mem := _, bw := _ })
  | bwflush rd => exact .andThen fun _ => .andThen fun _ => .deliver (u := { s with mem := _, bw := _ })
  | brbegin ra rb =>
    simp only [exec, execBrbegin, hr]
    exact .complete (u := { s with br := _ }.setEmpty false)
  | brread rd =>
    exact .andThen fun _ => .ite (.deliver (u := s.setEmpty true)) <|
      .andThen fun _ => .deliver (u := { s with br := _ }.setEmpty false)
  | mulrgn rd ra rb rc re rf | madrgn rd ra rb rc re rf =>
    simp only [exec, execMulrgn, execMadrgn, regionOperands, State.address, State.count, hr]
    exact .andThen fun _ => .deliver (u := { s with mem := _ })

/-- Settles O13. -/
theorem onlyNamedRegistersRead : Obligations.OnlyNamedRegistersRead := fun _ s _ v h => exec_sameBut h s v

end Sys2Proof.Machine
end

section
/-! Steps of the host and of the core (spec/10_state.md R20, R21, R33, R250). -/

namespace Sys2Proof.Machine

/-- Settles O57: among the words of an unfinished command a host store comes first, and a reset breaks the command. -/
theorem hostStoreResult : Obligations.HostStoreResult := by
  intro s ws rest hws
  refine ⟨fun a b hin hwf ha => ?_, fun hne hin => ?_⟩
  · have hn := nextIssue_hostStore hws a b rest
    rw [← hin] at hn
    refine ⟨{ s with input := asInput ws ++ rest, mem := s.mem.writeBytes a 1 b.toNat }, ?_,
      stored_of_writeBytes hwf ha rfl, rfl, rfl, fun _ => ⟨rfl, rfl⟩, ⟨rfl, rfl, rfl, rfl, rfl⟩, rfl, rfl⟩
    rw [step_of_hostStore hn]
    exact storeFromHost_eq_next.mpr ⟨ha, rfl⟩
  · obtain ⟨w, vs, rfl⟩ := List.exists_cons_of_ne_nil hne
    have hn := nextIssue_reset_between (hws w vs rfl) rest
    rw [← hin] at hn
    exact step_of_broken hn

/-- Settles O6: words that decode are taken as one command, whole. -/
theorem stepRunsDecodedCommand : Obligations.StepRunsDecodedCommand := by
  intro s ws rest i hs hin hi
  have hn := nextIssue_of_decode hi rest
  rw [← hin] at hn
  exact step_of_decoded hn hs hi

/-- Settles O10: the values of R33, field by field. -/
theorem resetState : Obligations.ResetState :=
  ⟨rfl, fun r => (State.reg_reset r).2, rfl, rfl, rfl, rfl, rfl, rfl⟩

/-- Settles O9: the host's reset takes the core to the values of R33 and leaves what is the host's. -/
theorem resetTransaction : Obligations.ResetTransaction := by
  intro s rest hin
  have hn : nextIssue s.input = .reset rest := by rw [hin, nextIssue]
  obtain ⟨hst, hheld, hadr, hww, hwr, hbw, hbr, hindex⟩ := resetState
  exact ⟨_, step_of_reset hn, hst, hheld, hadr, hww, hwr, hbw, hbr, ⟨fun _ => rfl, rfl⟩, hindex, rfl⟩

end Sys2Proof.Machine
end

section
/-! The memory (spec/20_memory.md R51 to R58): what an access answers and reads, which accesses stop, and which commands
and steps leave memory or MEMMAP alone. -/

namespace Sys2Proof.Machine

/-! ### Reads, byte by byte -/

/-- A number cut at its lowest byte: the low byte and the n bytes above it. -/
theorem mod_two_pow_byte_succ (w n : Nat) :
    w % 2 ^ (8 * (n + 1)) = w % 2 ^ 8 + 2 ^ 8 * (w / 2 ^ 8 % 2 ^ (8 * n)) := by
  rw [show 8 * (n + 1) = 8 + 8 * n by omega, Nat.pow_add, Nat.mod_mul]

/-- Byte i + 1 of a number is byte i of what stands above its lowest byte. -/
theorem div_two_pow_byte_succ (w i : Nat) : w / 2 ^ (8 * (i + 1)) = w / 2 ^ 8 / 2 ^ (8 * i) := by
  rw [show 8 * (i + 1) = 8 + 8 * i by omega, Nat.pow_add, Nat.div_div_eq_div_mul]

/-- Byte i of what is read is the byte at a + i (R51). -/
theorem readBytes_div_mod (m : Memory) {a k i : Nat} (hi : i < k) :
    m.readBytes a k / 2 ^ (8 * i) % 2 ^ 8 = (m.byte (a + i)).toNat := by
  induction k generalizing a i with
  | zero => omega
  | succ k ih =>
    have hb : (m.byte a).toNat < 2 ^ 8 := (m.byte a).isLt
    rw [Memory.readBytes]
    cases i with
    | zero => rw [Nat.mul_zero, Nat.pow_zero, Nat.div_one, Nat.add_mul_mod_self_left, Nat.mod_eq_of_lt hb, Nat.add_zero]
    | succ i =>
      rw [div_two_pow_byte_succ, Nat.add_mul_div_left _ _ (by decide), Nat.div_eq_of_lt hb, Nat.zero_add,
        ih (Nat.lt_of_succ_lt_succ hi), Nat.add_right_comm, Nat.add_assoc]

/-- What is read is determined by its bytes: where the k bytes from a hold those of w, the read gives w below 2^(8k). -/
theorem readBytes_eq_mod {m : Memory} {a k w : Nat}
    (h : ∀ i, i < k → m.byte (a + i) = BitVec.ofNat 8 (w / 2 ^ (8 * i))) : m.readBytes a k = w % 2 ^ (8 * k) := by
  induction k generalizing a w with
  | zero => rw [Memory.readBytes, Nat.mul_zero, Nat.pow_zero, Nat.mod_one]
  | succ k ih =>
    have hlow : m.byte a = BitVec.ofNat 8 w := by simpa using h 0 k.succ_pos
    have hrest : m.readBytes (a + 1) k = w / 2 ^ 8 % 2 ^ (8 * k) := ih fun i hi => by
      rw [← div_two_pow_byte_succ, ← h (i + 1) (Nat.succ_lt_succ hi), Nat.add_right_comm, Nat.add_assoc]
    rw [Memory.readBytes, hlow, hrest, BitVec.toNat_ofNat, mod_two_pow_byte_succ]

/-- Reading k of the n bytes written, from offset i on, gives bits 8i to 8(i + k) − 1 of the value. -/
theorem readBytes_writeBytes {m : Memory} (hm : m.wf = true) {a n i k : Nat} (v : Nat) (hk : i + k ≤ n)
    (ha : a + n ≤ Config.addressSpace) :
    (m.writeBytes a n v).readBytes (a + i) k = v / 2 ^ (8 * i) % 2 ^ (8 * k) :=
  readBytes_eq_mod fun j hj => by
    rw [Nat.add_assoc, byte_writeBytes_inside hm v (by omega) ha, Nat.mul_add, Nat.pow_add, Nat.div_div_eq_div_mul]

/-- Settles O19: a store that answers is a write of bytes below 2^64, and what a read gives is determined by its bytes. -/
theorem loadAfterStore : Obligations.LoadAfterStore := by
  refine ⟨fun m a k => ⟨readBytes_lt m a k, fun i hi => readBytes_div_mod m hi⟩, fun m m' a n v hm h => ?_⟩
  have hwf : m'.wf = true := store_keeps_wf hm h
  obtain ⟨ha, rfl⟩ := store_eq_next.mp h
  obtain ⟨hspace, -⟩ := accessible_iff.mp ha
  exact ⟨fun i hi => byte_writeBytes_inside hm v hi hspace, fun x hx => byte_writeBytes_outside m v hx,
    fun i k hk => readBytes_writeBytes hm v hk hspace, hwf⟩

/-! ### Accesses that stop -/

theorem backedRange_eq_true {m : Memory} {a n : Nat} :
    m.backedRange a n = true ↔ ∀ i, i < n → m.backed (a + i) = true := by
  induction n generalizing a with
  | zero => simp [Memory.backedRange]
  | succ n ih =>
    rw [Memory.backedRange, Bool.and_eq_true, ih, Nat.forall_lt_succ_left]
    simp only [Nat.add_zero, Nat.add_assoc, Nat.add_comm 1]

/-- A byte past the address space stops an access, whatever MEMMAP is (R58, log entry 11). -/
theorem checkAccess_of_wrap {m : Memory} {a n : Nat} (h : Config.addressSpace < a + n) :
    m.checkAccess a n = .fault .addressWrap := if_pos h

/-- A byte outside MEMMAP stops an access that stays below 2^64 (R56). -/
theorem checkAccess_of_unbacked {m : Memory} {a n i : Nat} (h : a + n ≤ Config.addressSpace) (hi : i < n)
    (hb : m.backed (a + i) = false) : m.checkAccess a n = .fault .unbackedAccess := by
  have hr : ¬m.backedRange a n = true := fun hr => by
    rw [backedRange_eq_true.mp hr i hi] at hb
    cases hb
  rw [Memory.checkAccess, if_neg (Nat.not_lt.mpr h), if_neg hr]

theorem load_of_checkAccess_fault {m : Memory} {a n : Nat} {e : Fault} (h : m.checkAccess a n = .fault e) :
    m.load a n = .fault e := by rw [Memory.load, h, andThen_fault]

theorem store_of_checkAccess_fault {m : Memory} {a n : Nat} {e : Fault} (v : Nat) (h : m.checkAccess a n = .fault e) :
    m.store a n v = .fault e := by rw [Memory.store, h, andThen_fault]

/-- Settles O20: a load and a store begin with the same check, whose three outcomes are those of the statement. -/
theorem accessStops : Obligations.AccessStops := by
  refine fun m a n v hn => ⟨fun ⟨i, hi, hwrap⟩ => ?_, fun hspace ⟨i, hi, hb⟩ => ?_, fun hall => ?_⟩
  · have h : m.checkAccess a n = .fault .addressWrap :=
      checkAccess_of_wrap (Nat.lt_of_le_of_lt hwrap (Nat.add_lt_add_left hi a))
    exact ⟨load_of_checkAccess_fault h, store_of_checkAccess_fault v h⟩
  · have hlast := hspace (n - 1) (by omega)
    have h : m.checkAccess a n = .fault .unbackedAccess :=
      checkAccess_of_unbacked (show a + n ≤ 2 ^ 64 by omega) hi hb
    exact ⟨load_of_checkAccess_fault h, store_of_checkAccess_fault v h⟩
  · obtain ⟨hlast, -⟩ := hall (n - 1) (by omega)
    have ha : m.accessible a n = true :=
      accessible_iff.mpr ⟨show a + n ≤ 2 ^ 64 by omega, backedRange_eq_true.mpr fun i hi => (hall i hi).2⟩
    exact ⟨⟨_, load_eq_next.mpr ⟨ha, rfl⟩⟩, _, store_eq_next.mpr ⟨ha, rfl⟩⟩

theorem loadInto_of_checkAccess_fault {s : State} {a n : Nat} {e : Fault} (rd : Reg)
    (h : s.mem.checkAccess a n = .fault e) : loadInto rd a n s = .fault e := by
  rw [loadInto, load_of_checkAccess_fault h, andThen_fault]

theorem storeFrom_of_checkAccess_fault {s : State} {a n : Nat} {e : Fault} (v : Word)
    (h : s.mem.checkAccess a n = .fault e) : storeFrom a n v s = .fault e := by
  rw [storeFrom, store_of_checkAccess_fault _ h, andThen_fault]

theorem packerRead_of_checkAccess_fault {m : Memory} {a : Nat} {e : Fault} (c : AdrContext)
    (h : m.checkAccess a 8 = .fault e) : packerRead m c a = .fault e := by
  rw [packerRead, load_of_checkAccess_fault h, andThen_fault]

theorem packerTail_of_checkAccess_fault {m : Memory} {a n : Nat} {e : Fault} (hn : 0 < n)
    (h : m.checkAccess a n = .fault e) : packerTail m a n = .fault e := by
  rw [packerTail, if_neg hn.ne', load_of_checkAccess_fault h, andThen_fault]

theorem countSupported_of_le {n : Nat} (hn : 0 < n) (h : n ≤ 8) : countSupported n = true := by
  simpa [countSupported] using ⟨hn, h⟩

/-- A command stops as the check of the bytes that its operands name stops: on a context in use that check is the first
thing it does with memory. -/
theorem exec_of_operand_fault {i : Instr} {s : State} {a n : Nat} {e : Fault} (ho : operandBytes s i = some (a, n))
    (hc : contextInUse s i ≠ some false) (hn : 0 < n) (h : s.mem.checkAccess a n = .fault e) : exec i s = .fault e := by
  cases i with simp only [operandBytes, reduceCtorEq, Option.ite_none_right_eq_some, Option.some.injEq,
    Prod.mk.injEq] at ho
  | ldu32 rd ra | ldu64 rd ra =>
    obtain ⟨rfl, rfl⟩ := ho
    exact loadInto_of_checkAccess_fault rd h
  | stu32 ra rb | stu64 ra rb =>
    obtain ⟨rfl, rfl⟩ := ho
    exact storeFrom_of_checkAccess_fault (s.reg rb) h
  | ldb rd ra rb =>
    obtain ⟨hle, rfl, rfl⟩ := ho
    rw [exec, execLdb, if_pos (countSupported_of_le hn hle)]
    exact loadInto_of_checkAccess_fault rd h
  | stb ra rb rc =>
    obtain ⟨hle, rfl, rfl⟩ := ho
    rw [exec, execStb, if_pos (countSupported_of_le hn hle)]
    exact storeFrom_of_checkAccess_fault (s.reg rc) h
  | adrd8 rd ra =>
    obtain ⟨rfl, rfl⟩ := ho
    have hactive : s.adr.active = true := by simpa [contextInUse] using hc
    rw [exec, execAdrd8, hactive, packerRead_of_checkAccess_fault s.adr h]
    rfl
  | adrdf rd ra rb =>
    obtain ⟨hle, rfl, rfl⟩ := ho
    have hactive : s.adr.active = true := by simpa [contextInUse] using hc
    rw [exec, execAdrdf, hactive, decide_eq_false (Nat.not_lt.mpr hle), packerTail_of_checkAccess_fault hn h]
    rfl

/-- Settles O21. -/
theorem inaccessibleOperandStops : Obligations.InaccessibleOperandStops := fun _ _ _ _ ho hc hn =>
  ⟨fun hwrap => exec_of_operand_fault ho hc hn (checkAccess_of_wrap hwrap),
    fun hspace ⟨_, hk, hb⟩ => exec_of_operand_fault ho hc hn (checkAccess_of_unbacked hspace hk hb)⟩

/-! ### What commands and steps do to memory -/

theorem StoresTo.map {m m' : Memory} (h : StoresTo m m') : m'.map = m.map := by
  induction h with
  | refl => rfl
  | tail _ hs ih =>
    obtain ⟨a, n, v, hs⟩ := hs
    exact (store_map hs).trans ih

/-- A command changes memory by stores alone. -/
theorem CommandEffect.storesTo {i : Instr} {s u : State} (h : CommandEffect s i u) : StoresTo s.mem u.mem := by
  cases h with
  | register | wr | br => exact .refl s.mem
  | store _ h => exact h
  | adr _ h | ww _ h | bw _ h => exact h.storesTo

theorem exec_storesTo {i : Instr} {s t : State} (h : exec i s = .next t) : StoresTo s.mem t.mem := by
  obtain ⟨u, v, hu, rfl⟩ := completes_of_exec h
  rw [State.finish_mem]
  exact hu.storesTo

/-- Only a store, or work on a context that writes to memory, changes memory. -/
theorem CommandEffect.mem {i : Instr} {s u : State} (h : CommandEffect s i u) (hm : writesMemory i = false)
    (hadr : writesAdr i = false) (hww : writesWw i = false) (hbw : writesBw i = false) : u.mem = s.mem := by
  cases h with
  | register | wr | br => rfl
  | store hi => simp [hm] at hi
  | adr hi => simp [hadr] at hi
  | ww hi => simp [hww] at hi
  | bw hi => simp [hbw] at hi

/-- A command that R54 gives no writes keeps memory: it begins a context, or works on none that writes to memory. -/
theorem exec_mem {i : Instr} {s t : State} (h : exec i s = .next t) (hi : writesMemory i = false) : t.mem = s.mem := by
  cases i with
  | stu32 | stu64 | stb | adrd8 | adflush | wwwrite | wwflush | bwwrite | bwflush | mulrgn | madrgn => cases hi
  | adsetup | wwbegin | bwbegin =>
    injection h with h
    exact h ▸ rfl
  | _ =>
    obtain ⟨u, v, hu, rfl⟩ := completes_of_exec h
    rw [State.finish_mem]
    exact hu.mem rfl rfl rfl rfl

/-- All that a step can do when it goes on (R233). -/
inductive StepsTo (s : State) : State → Prop where
  | waiting (hn : nextIssue s.input = .waiting) : StepsTo s s
  | reset {rest : List HostInput} (hn : nextIssue s.input = .reset rest) : StepsTo s { s with input := rest }.hostReset
  | hostStore {a : Nat} {b : Byte} {rest : List HostInput} (hn : nextIssue s.input = .hostStore a b rest)
      (ha : s.mem.accessible a 1 = true) : StepsTo s { s with input := rest, mem := s.mem.writeBytes a 1 b.toNat }
  | halted {ws : List CommandWord} {rest : List HostInput} (hn : nextIssue s.input = .command ws rest)
      (hs : s.st.halt = true) : StepsTo s { s with input := rest }.answerHalted
  | illegal {ws : List CommandWord} {rest : List HostInput} {e : Reject} (hn : nextIssue s.input = .command ws rest)
      (hs : s.st.halt = false) (hd : decode ws = .error e) : StepsTo s { s with input := rest }.illegalCommand
  | command {ws : List CommandWord} {rest : List HostInput} {i : Instr} {t : State}
      (hn : nextIssue s.input = .command ws rest) (hs : s.st.halt = false) (hd : decode ws = .ok i)
      (h : exec i { s with input := rest } = .next t) : StepsTo s t

theorem stepsTo_of_step {s t : State} (h : step s = .next t) : StepsTo s t := by
  cases hn : nextIssue s.input with
  | waiting =>
    cases (step_of_waiting hn).symm.trans h
    exact .waiting hn
  | broken => cases (step_of_broken hn).symm.trans h
  | reset rest =>
    cases (step_of_reset hn).symm.trans h
    exact .reset hn
  | hostStore a b rest =>
    obtain ⟨ha, rfl⟩ := storeFromHost_eq_next.mp ((step_of_hostStore hn).symm.trans h)
    exact .hostStore hn ha
  | command ws rest =>
    cases hs : s.st.halt with
    | true =>
      cases (step_of_halted hn hs).symm.trans h
      exact .halted hn hs
    | false =>
      cases hd : decode ws with
      | ok i => exact .command hn hs hd ((step_of_decoded hn hs hd).symm.trans h)
      | error e =>
        cases (step_of_illegal hn hs hd).symm.trans h
        exact .illegal hn hs hd

/-- A step changes memory by stores alone. -/
theorem step_storesTo {s t : State} (h : step s = .next t) : StoresTo s.mem t.mem := by
  cases stepsTo_of_step h with
  | waiting | reset | halted | illegal => exact .refl s.mem
  | hostStore _ ha => exact .writeBytes ha _
  | command _ _ _ h =>
    have hst := exec_storesTo h
    exact hst

/-- Settles O16: a store is all that changes memory, and no store changes MEMMAP. -/
theorem onlyStoringCommandsWriteMemory : Obligations.OnlyStoringCommandsWriteMemory :=
  ⟨fun _ _ _ => exec_mem, fun _ _ h => (step_storesTo h).map⟩

end Sys2Proof.Machine
end

section
/-! The encoding (spec/30_encoding.md R70 to R75, R78): decoder, encoder and opcode map agree. A first word is its opcode
and its six register fields; each operand shape is described once by them, and the opcodes are gone through once for the
decoder (against the map and the encoder) and once for the instructions. -/

namespace Sys2Proof

/-! ### A first word is its fields (R71) -/

theorem opcodeOf_lt (w : CommandWord) : opcodeOf w < 256 := Nat.mod_lt _ (by decide)

theorem firstWord_fields (w : CommandWord) :
    firstWord (opcodeOf w) (fieldRd w) (fieldRa w) (fieldRb w) (fieldRc w) (fieldRe w) (fieldRf w) = w := by
  apply BitVec.eq_of_toNat_eq
  rw [firstWord_toNat (opcodeOf_lt w)]
  simp only [opcodeOf, fieldRd, fieldRa, fieldRb, fieldRc, fieldRe, fieldRf, regField_val]
  have := w.isLt
  omega

theorem eq_firstWord_iff {op : Nat} (h : op < 256) {w : CommandWord} {rd ra rb rc re rf : Reg} :
    w = firstWord op rd ra rb rc re rf ↔
      opcodeOf w = op ∧ fieldRd w = rd ∧ fieldRa w = ra ∧ fieldRb w = rb ∧ fieldRc w = rc ∧ fieldRe w = re ∧
        fieldRf w = rf := by
  constructor
  · rintro rfl
    exact ⟨opcodeOf_firstWord h .., fieldRd_firstWord h .., fieldRa_firstWord h .., fieldRb_firstWord h ..,
      fieldRc_firstWord h .., fieldRe_firstWord h .., fieldRf_firstWord h ..⟩
  · rintro ⟨rfl, rfl, rfl, rfl, rfl, rfl, rfl⟩
    exact (firstWord_fields w).symm

/-! Nothing above a bit: the fields from there on are 0. -/

theorem div_eq_zero_iff_24 {w : CommandWord} : w.toNat / 2 ^ 24 = 0 ↔ fieldRe w = 0 ∧ fieldRf w = 0 := by
  have := w.isLt
  simp only [Fin.ext_iff, fieldRe, fieldRf, regField_val, Fin.val_zero]
  omega

theorem div_eq_zero_iff_20 {w : CommandWord} :
    w.toNat / 2 ^ 20 = 0 ↔ fieldRc w = 0 ∧ fieldRe w = 0 ∧ fieldRf w = 0 := by
  rw [← div_eq_zero_iff_24]
  simp only [Fin.ext_iff, fieldRc, regField_val, Fin.val_zero]
  omega

theorem div_eq_zero_iff_16 {w : CommandWord} :
    w.toNat / 2 ^ 16 = 0 ↔ fieldRb w = 0 ∧ fieldRc w = 0 ∧ fieldRe w = 0 ∧ fieldRf w = 0 := by
  rw [← div_eq_zero_iff_20]
  simp only [Fin.ext_iff, fieldRb, regField_val, Fin.val_zero]
  omega

theorem div_eq_zero_iff_12 {w : CommandWord} :
    w.toNat / 2 ^ 12 = 0 ↔ fieldRa w = 0 ∧ fieldRb w = 0 ∧ fieldRc w = 0 ∧ fieldRe w = 0 ∧ fieldRf w = 0 := by
  rw [← div_eq_zero_iff_16]
  simp only [Fin.ext_iff, fieldRa, regField_val, Fin.val_zero]
  omega

/-! ### What each operand shape accepts, and as what (R74) -/

theorem shape_eq_ok {b : Bool} {i j : Instr} : shape b i = .ok j ↔ b = true ∧ i = j := by
  cases b <;> simp [shape]

theorem shapeDAB_eq_ok {w : CommandWord} {k : Reg → Reg → Reg → Instr} {i : Instr} :
    shapeDAB w k = .ok i ↔
      (fieldRc w = 0 ∧ fieldRe w = 0 ∧ fieldRf w = 0) ∧ k (fieldRd w) (fieldRa w) (fieldRb w) = i := by
  rw [shapeDAB, shape_eq_ok, beq_iff_eq, div_eq_zero_iff_20]

theorem shapeDA_eq_ok {w : CommandWord} {k : Reg → Reg → Instr} {i : Instr} :
    shapeDA w k = .ok i ↔
      (fieldRb w = 0 ∧ fieldRc w = 0 ∧ fieldRe w = 0 ∧ fieldRf w = 0) ∧ k (fieldRd w) (fieldRa w) = i := by
  rw [shapeDA, shape_eq_ok, beq_iff_eq, div_eq_zero_iff_16]

theorem shapeD_eq_ok {w : CommandWord} {k : Reg → Instr} {i : Instr} :
    shapeD w k = .ok i ↔
      (fieldRa w = 0 ∧ fieldRb w = 0 ∧ fieldRc w = 0 ∧ fieldRe w = 0 ∧ fieldRf w = 0) ∧ k (fieldRd w) = i := by
  rw [shapeD, shape_eq_ok, beq_iff_eq, div_eq_zero_iff_12]

theorem shapeA_eq_ok {w : CommandWord} {k : Reg → Instr} {i : Instr} :
    shapeA w k = .ok i ↔
      (fieldRd w = 0 ∧ fieldRb w = 0 ∧ fieldRc w = 0 ∧ fieldRe w = 0 ∧ fieldRf w = 0) ∧ k (fieldRa w) = i := by
  rw [shapeA, shape_eq_ok, Bool.and_eq_true, beq_iff_eq, beq_iff_eq, div_eq_zero_iff_16]

theorem shapeAB_eq_ok {w : CommandWord} {k : Reg → Reg → Instr} {i : Instr} :
    shapeAB w k = .ok i ↔
      (fieldRd w = 0 ∧ fieldRc w = 0 ∧ fieldRe w = 0 ∧ fieldRf w = 0) ∧ k (fieldRa w) (fieldRb w) = i := by
  rw [shapeAB, shape_eq_ok, Bool.and_eq_true, beq_iff_eq, beq_iff_eq, div_eq_zero_iff_20]

theorem shapeABC_eq_ok {w : CommandWord} {k : Reg → Reg → Reg → Instr} {i : Instr} :
    shapeABC w k = .ok i ↔
      (fieldRd w = 0 ∧ fieldRe w = 0 ∧ fieldRf w = 0) ∧ k (fieldRa w) (fieldRb w) (fieldRc w) = i := by
  rw [shapeABC, shape_eq_ok, Bool.and_eq_true, beq_iff_eq, beq_iff_eq, div_eq_zero_iff_24]

theorem shapeAll_eq_ok {w : CommandWord} {k : Reg → Reg → Reg → Reg → Reg → Reg → Instr} {i : Instr} :
    shapeAll w k = .ok i ↔
      k (fieldRd w) (fieldRa w) (fieldRb w) (fieldRc w) (fieldRe w) (fieldRf w) = i := by
  rw [shapeAll, shape_eq_ok, eq_self, true_and]

/-! ### Decoding what was encoded -/

section DecodeEncoded

variable {op : Nat} (h : op < 256) (hs : op ≠ 0x10)
include h hs

/-- A one-word command is decoded by the shape of its opcode, from its fields. -/
theorem decode_firstWord {rd ra rb rc re rf : Reg} {f : CommandWord → Except Reject Instr} {i : Instr}
    (hop : ∀ w, opcodeOf w = op → decodeFormatR w = f w)
    (hi : ∀ w, fieldRd w = rd → fieldRa w = ra → fieldRb w = rb → fieldRc w = rc → fieldRe w = re → fieldRf w = rf →
      f w = .ok i) :
    decode [firstWord op rd ra rb rc re rf] = .ok i := by
  obtain ⟨ho, hd, ha, hb, hc, he, hf⟩ := (eq_firstWord_iff h).mp (Eq.refl (firstWord op rd ra rb rc re rf))
  rw [decode, ho, if_neg hs, hop _ ho]
  exact hi _ hd ha hb hc he hf

theorem decode_wordDAB {k : Reg → Reg → Reg → Instr} (hk : ∀ w, opcodeOf w = op → decodeFormatR w = shapeDAB w k)
    (rd ra rb : Reg) : decode (wordDAB op rd ra rb) = .ok (k rd ra rb) :=
  decode_firstWord h hs hk fun _ hd ha hb hc he hf => shapeDAB_eq_ok.mpr ⟨⟨hc, he, hf⟩, by rw [hd, ha, hb]⟩

theorem decode_wordDA {k : Reg → Reg → Instr} (hk : ∀ w, opcodeOf w = op → decodeFormatR w = shapeDA w k)
    (rd ra : Reg) : decode (wordDA op rd ra) = .ok (k rd ra) :=
  decode_firstWord h hs hk fun _ hd ha hb hc he hf => shapeDA_eq_ok.mpr ⟨⟨hb, hc, he, hf⟩, by rw [hd, ha]⟩

theorem decode_wordD {k : Reg → Instr} (hk : ∀ w, opcodeOf w = op → decodeFormatR w = shapeD w k)
    (rd : Reg) : decode (wordD op rd) = .ok (k rd) :=
  decode_firstWord h hs hk fun _ hd ha hb hc he hf => shapeD_eq_ok.mpr ⟨⟨ha, hb, hc, he, hf⟩, by rw [hd]⟩

theorem decode_wordA {k : Reg → Instr} (hk : ∀ w, opcodeOf w = op → decodeFormatR w = shapeA w k)
    (ra : Reg) : decode (wordA op ra) = .ok (k ra) :=
  decode_firstWord h hs hk fun _ hd ha hb hc he hf => shapeA_eq_ok.mpr ⟨⟨hd, hb, hc, he, hf⟩, by rw [ha]⟩

theorem decode_wordAB {k : Reg → Reg → Instr} (hk : ∀ w, opcodeOf w = op → decodeFormatR w = shapeAB w k)
    (ra rb : Reg) : decode (wordAB op ra rb) = .ok (k ra rb) :=
  decode_firstWord h hs hk fun _ hd ha hb hc he hf => shapeAB_eq_ok.mpr ⟨⟨hd, hc, he, hf⟩, by rw [ha, hb]⟩

theorem decode_firstWord_shapeABC {k : Reg → Reg → Reg → Instr}
    (hk : ∀ w, opcodeOf w = op → decodeFormatR w = shapeABC w k) (ra rb rc : Reg) :
    decode [firstWord op 0 ra rb rc 0 0] = .ok (k ra rb rc) :=
  decode_firstWord h hs hk fun _ hd ha hb hc he hf => shapeABC_eq_ok.mpr ⟨⟨hd, he, hf⟩, by rw [ha, hb, hc]⟩

theorem decode_firstWord_shapeAll {k : Reg → Reg → Reg → Reg → Reg → Reg → Instr}
    (hk : ∀ w, opcodeOf w = op → decodeFormatR w = shapeAll w k) (rd ra rb rc re rf : Reg) :
    decode [firstWord op rd ra rb rc re rf] = .ok (k rd ra rb rc re rf) :=
  decode_firstWord h hs hk fun _ hd ha hb hc he hf => shapeAll_eq_ok.mpr (by rw [hd, ha, hb, hc, he, hf])

end DecodeEncoded

/-! ### The immediate of SETI (R72) -/

theorem immediate_toNat (lo hi : CommandWord) : (immediate lo hi).toNat = hi.toNat * 2 ^ 32 + lo.toNat := by
  have hlo := lo.isLt
  have hhi := hi.isLt
  rw [immediate, BitVec.toNat_ofNat]
  omega

theorem immediate_split (imm : Word) : immediate (imm.setWidth 32) ((imm >>> 32).setWidth 32) = imm := by
  apply BitVec.eq_of_toNat_eq
  have := imm.isLt
  rw [immediate_toNat, BitVec.toNat_setWidth, BitVec.toNat_setWidth, BitVec.toNat_ushiftRight, Nat.shiftRight_eq_div_pow]
  omega

theorem setWidth_immediate (lo hi : CommandWord) : (immediate lo hi).setWidth 32 = lo := by
  apply BitVec.eq_of_toNat_eq
  have := lo.isLt
  rw [BitVec.toNat_setWidth, immediate_toNat]
  omega

theorem setWidth_immediate_shiftRight (lo hi : CommandWord) : (immediate lo hi >>> 32).setWidth 32 = hi := by
  apply BitVec.eq_of_toNat_eq
  have hlo := lo.isLt
  have hhi := hi.isLt
  rw [BitVec.toNat_setWidth, BitVec.toNat_ushiftRight, immediate_toNat, Nat.shiftRight_eq_div_pow]
  omega

theorem decode_encode_seti (rd : Reg) (imm : Word) : decode (encode (.seti rd imm)) = .ok (.seti rd imm) := by
  have h : 0x10 < 256 := by decide
  rw [encode, decode, opcodeOf_firstWord h, if_pos rfl, decodeFormatI, shapeD_eq_ok]
  simp only [fieldRd_firstWord h, fieldRa_firstWord h, fieldRb_firstWord h, fieldRc_firstWord h, fieldRe_firstWord h,
    fieldRf_firstWord h, immediate_split, and_self]

/-- Settles O2: instruction by instruction, by the operand shape of its opcode. -/
theorem decodeEncode : Obligations.DecodeEncode := by
  intro i
  cases i with
  | seti rd imm => exact decode_encode_seti rd imm
  | fadd | fsub | fmul | ldb | adrdf =>
    exact decode_wordDAB (by decide) (by decide) (fun w h => by simp only [decodeFormatR, h]) _ _ _
  | fneg | fpred | ffin | finv | ldu32 | ldu64 | adwsb | admob | adrd8 | wwneed | wrcount | bwmax | brmax =>
    exact decode_wordDA (by decide) (by decide) (fun w h => by simp only [decodeFormatR, h]) _ _
  | rdst | adflush | wwflush | wrread | bwflush | brread =>
    exact decode_wordD (by decide) (by decide) (fun w h => by simp only [decodeFormatR, h]) _
  | adsetup | wwbegin | wwwrite | bwbegin | bwwrite =>
    exact decode_wordA (by decide) (by decide) (fun w h => by simp only [decodeFormatR, h]) _
  | stu32 | stu64 | wrbegin | brbegin =>
    exact decode_wordAB (by decide) (by decide) (fun w h => by simp only [decodeFormatR, h]) _ _
  | stb => exact decode_firstWord_shapeABC (by decide) (by decide) (fun w h => by simp only [decodeFormatR, h]) _ _ _
  | mulrgn | madrgn =>
    exact decode_firstWord_shapeAll (by decide) (by decide) (fun w h => by simp only [decodeFormatR, h]) _ _ _ _ _ _

/-! ### Masks, field by field (R73) -/

theorem opcodeOf_and (w m : CommandWord) : opcodeOf (w &&& m) = opcodeOf w &&& opcodeOf m := by
  rw [opcodeOf, BitVec.toNat_and, Nat.and_mod_two_pow]
  rfl

theorem opcodeOf_and_255 (w : CommandWord) : opcodeOf w &&& 0xFF = opcodeOf w := by
  rw [Nat.and_two_pow_sub_one_eq_mod _ 8]
  exact Nat.mod_eq_of_lt (opcodeOf_lt w)

theorem regField_and (w m : CommandWord) (lo : Nat) : regField (w &&& m) lo = regField w lo &&& regField m lo := by
  apply Fin.ext
  rw [Fin.and_val, regField_val, BitVec.toNat_and, Nat.and_div_two_pow]
  exact Nat.and_mod_two_pow (n := 4)

theorem reg_and_fifteen (r : Reg) : r &&& 15 = r := by
  revert r
  decide

theorem reg_and_zero (r : Reg) : r &&& 0 = 0 := by
  revert r
  decide

/-- A mask whose opcode bits are all set tests the opcode and, field by field, that the masked bits are 0. -/
theorem and_mask_eq_iff {op : Nat} (h : op < 256) {w : CommandWord} {md ma mb mc me mf : Reg} :
    w &&& firstWord 0xFF md ma mb mc me mf = firstWord op 0 0 0 0 0 0 ↔
      opcodeOf w = op ∧ fieldRd w &&& md = 0 ∧ fieldRa w &&& ma = 0 ∧ fieldRb w &&& mb = 0 ∧ fieldRc w &&& mc = 0 ∧
        fieldRe w &&& me = 0 ∧ fieldRf w &&& mf = 0 := by
  obtain ⟨ho, hd, ha, hb, hc, he, hf⟩ :=
    (eq_firstWord_iff (by decide)).mp (Eq.refl (firstWord 0xFF md ma mb mc me mf))
  rw [eq_firstWord_iff h, opcodeOf_and, ho, opcodeOf_and_255]
  simp only [fieldRd, fieldRa, fieldRb, fieldRc, fieldRe, fieldRf] at hd ha hb hc he hf ⊢
  simp only [regField_and, hd, ha, hb, hc, he, hf]

/-! ### The rows of the map (R73, R75) -/

/-- Every mask tests all of the opcode. -/
theorem opcodeOf_mask : ∀ r ∈ opcodeMap, opcodeOf r.mask = 0xFF := by decide

theorem pattern_eq : ∀ r ∈ opcodeMap, r.pattern = firstWord (opcodeOf r.pattern) 0 0 0 0 0 0 := by decide

/-- The assigned opcodes, in the order of R73. -/
theorem opcodes_eq : (opcodeMap.map fun r => opcodeOf r.pattern) =
    [0x01, 0x02, 0x03, 0x04, 0x05, 0x06, 0x07,
     0x10, 0x11, 0x12, 0x13, 0x14, 0x15, 0x16, 0x17,
     0x20, 0x21, 0x22, 0x23, 0x24, 0x25,
     0x30, 0x31, 0x32, 0x33, 0x34, 0x35, 0x36, 0x38, 0x39, 0x3A, 0x3B, 0x3C, 0x3D, 0x3E,
     0x40, 0x41] := by decide

theorem nodup_opcodes : (opcodeMap.map fun r => opcodeOf r.pattern).Nodup := by
  rw [opcodes_eq]
  decide

/-- A row has as many words as its opcode asks for (R70). -/
theorem words_eq : ∀ r ∈ opcodeMap, r.words = commandLength r.pattern := by decide

theorem opcodeOf_pattern {r : Row} (hr : r ∈ opcodeMap) {w : CommandWord} (hw : r.selects w = true) :
    opcodeOf r.pattern = opcodeOf w := by
  rw [← eq_of_beq hw, opcodeOf_and, opcodeOf_mask r hr, opcodeOf_and_255]

theorem words_of_selects {r : Row} (hr : r ∈ opcodeMap) {w : CommandWord} (hw : r.selects w = true) :
    r.words = commandLength w := by
  rw [words_eq r hr, commandLength, opcodeOf_pattern hr hw, commandLength]

theorem and_opcode_of_selects {r : Row} (hr : r ∈ opcodeMap) {w : CommandWord} (hw : r.selects w = true) :
    w &&& 0xFF#32 = r.pattern := by
  have hp := pattern_eq r hr
  rw [opcodeOf_pattern hr hw] at hp
  rw [hp]
  exact (and_mask_eq_iff (md := 0) (ma := 0) (mb := 0) (mc := 0) (me := 0) (mf := 0) (opcodeOf_lt w)).mpr
    ⟨rfl, reg_and_zero _, reg_and_zero _, reg_and_zero _, reg_and_zero _, reg_and_zero _, reg_and_zero _⟩

theorem row_eq_of_opcode {r q : Row} (hr : r ∈ opcodeMap) (hq : q ∈ opcodeMap)
    (h : opcodeOf r.pattern = opcodeOf q.pattern) : r = q :=
  List.inj_on_of_nodup_map nodup_opcodes hr hq h

theorem unusedFieldsZero_iff {w : CommandWord} :
    WellFormed.unusedFieldsZero w = true ↔ ∃ r ∈ opcodeMap, r.selects w = true := List.any_eq_true

/-- The row of a word's opcode decides whether any row selects the word. -/
theorem unusedFieldsZero_iff_selects {r : Row} (hr : r ∈ opcodeMap) {w : CommandWord}
    (hw : opcodeOf r.pattern = opcodeOf w) : WellFormed.unusedFieldsZero w = true ↔ r.selects w = true := by
  rw [unusedFieldsZero_iff]
  constructor
  · rintro ⟨q, hq, hsel⟩
    rwa [row_eq_of_opcode hr hq (hw.trans (opcodeOf_pattern hq hsel).symm)]
  · exact fun hsel => ⟨r, hr, hsel⟩

/-- The three checks come to two: the first follows from the second, and the opcode alone gives the length. -/
theorem wellFormed_cons_iff {w : CommandWord} {vs : List CommandWord} :
    WellFormed (w :: vs) = true ↔ WellFormed.unusedFieldsZero w = true ∧ (w :: vs).length = commandLength w := by
  simp only [WellFormed, WellFormed.lengthRight, Bool.and_eq_true]
  constructor
  · rintro ⟨⟨-, hsel⟩, hlen⟩
    obtain ⟨r, hr, hrw⟩ := unusedFieldsZero_iff.mp hsel
    have hlen := List.all_eq_true.mp hlen r hr
    simp only [hrw, Bool.not_true, Bool.false_or, beq_iff_eq] at hlen
    exact ⟨hsel, hlen.trans (words_of_selects hr hrw)⟩
  · rintro ⟨hsel, hlen⟩
    obtain ⟨r, hr, hrw⟩ := unusedFieldsZero_iff.mp hsel
    refine ⟨⟨List.any_eq_true.mpr ⟨r, hr, beq_iff_eq.mpr (and_opcode_of_selects hr hrw)⟩, hsel⟩, ?_⟩
    refine List.all_eq_true.mpr fun q hq => ?_
    cases hqw : q.selects w with
    | false => rfl
    | true => simpa [words_of_selects hq hqw] using hlen

/-! ### The decoder against the map and the encoder -/

/-- A reading `x` of the words `w :: vs` agrees with the encoder in what it reads and with the map in what it accepts. -/
structure AgreesWithMap (w : CommandWord) (vs : List CommandWord) (x : Except Reject Instr) : Prop where
  encodes : ∀ i, x = .ok i → encode i = w :: vs
  accepts : (∃ i, x = .ok i) ↔ WellFormed.unusedFieldsZero w = true

/-- The map has a row with this opcode whose mask tests these bits of the fields. -/
abbrev Listed (op : Nat) (md ma mb mc me mf : Reg) : Prop :=
  ∃ r ∈ opcodeMap, r.pattern = firstWord op 0 0 0 0 0 0 ∧ r.mask = firstWord 0xFF md ma mb mc me mf

section Agrees

variable {w : CommandWord} {vs : List CommandWord} {op : Nat} (hw : opcodeOf w = op)
include hw

theorem unusedFieldsZero_iff_of_listed {md ma mb mc me mf : Reg} (hrow : Listed op md ma mb mc me mf) :
    WellFormed.unusedFieldsZero w = true ↔
      fieldRd w &&& md = 0 ∧ fieldRa w &&& ma = 0 ∧ fieldRb w &&& mb = 0 ∧ fieldRc w &&& mc = 0 ∧
        fieldRe w &&& me = 0 ∧ fieldRf w &&& mf = 0 := by
  obtain ⟨r, hr, hpat, hmask⟩ := hrow
  have hop : op < 256 := hw ▸ opcodeOf_lt w
  have hopcode : opcodeOf r.pattern = opcodeOf w := by rw [hpat, opcodeOf_firstWord hop, hw]
  rw [unusedFieldsZero_iff_selects hr hopcode, Row.selects, beq_iff_eq, hpat, hmask, and_mask_eq_iff hop,
    and_iff_right hw]

/-- Agreement of a shape that answers `i` when `Unused` holds. -/
theorem agrees_of_eq_ok {x : Except Reject Instr} {i : Instr} {Unused : Prop} {rd ra rb rc re rf md ma mb mc me mf : Reg}
    (hx : ∀ j, x = .ok j ↔ Unused ∧ i = j) (hk : encode i = firstWord op rd ra rb rc re rf :: vs)
    (hfields : Unused → fieldRd w = rd ∧ fieldRa w = ra ∧ fieldRb w = rb ∧ fieldRc w = rc ∧ fieldRe w = re ∧
      fieldRf w = rf)
    (hrow : Listed op md ma mb mc me mf)
    (hmask : Unused ↔ fieldRd w &&& md = 0 ∧ fieldRa w &&& ma = 0 ∧ fieldRb w &&& mb = 0 ∧ fieldRc w &&& mc = 0 ∧
      fieldRe w &&& me = 0 ∧ fieldRf w &&& mf = 0) :
    AgreesWithMap w vs x where
  encodes j hj := by
    obtain ⟨hunused, rfl⟩ := (hx j).mp hj
    rw [hk, ← (eq_firstWord_iff (hw ▸ opcodeOf_lt w)).mpr ⟨hw, hfields hunused⟩]
  accepts := by
    rw [unusedFieldsZero_iff_of_listed hw hrow, ← hmask]
    exact ⟨fun ⟨j, hj⟩ => ((hx j).mp hj).1, fun hunused => ⟨i, (hx i).mpr ⟨hunused, rfl⟩⟩⟩

theorem agrees_shapeDAB {k : Reg → Reg → Reg → Instr} (hrow : Listed op 0 0 0 15 15 15)
    (hk : ∀ rd ra rb, encode (k rd ra rb) = firstWord op rd ra rb 0 0 0 :: vs) :
    AgreesWithMap w vs (shapeDAB w k) :=
  agrees_of_eq_ok hw (fun _ => shapeDAB_eq_ok) (hk _ _ _) (fun ⟨hc, he, hf⟩ => ⟨rfl, rfl, rfl, hc, he, hf⟩) hrow
    (by simp only [reg_and_zero, reg_and_fifteen, true_and])

theorem agrees_shapeDA {k : Reg → Reg → Instr} (hrow : Listed op 0 0 15 15 15 15)
    (hk : ∀ rd ra, encode (k rd ra) = firstWord op rd ra 0 0 0 0 :: vs) : AgreesWithMap w vs (shapeDA w k) :=
  agrees_of_eq_ok hw (fun _ => shapeDA_eq_ok) (hk _ _) (fun ⟨hb, hc, he, hf⟩ => ⟨rfl, rfl, hb, hc, he, hf⟩) hrow
    (by simp only [reg_and_zero, reg_and_fifteen, true_and])

theorem agrees_shapeD {k : Reg → Instr} (hrow : Listed op 0 15 15 15 15 15)
    (hk : ∀ rd, encode (k rd) = firstWord op rd 0 0 0 0 0 :: vs) : AgreesWithMap w vs (shapeD w k) :=
  agrees_of_eq_ok hw (fun _ => shapeD_eq_ok) (hk _) (fun ⟨ha, hb, hc, he, hf⟩ => ⟨rfl, ha, hb, hc, he, hf⟩) hrow
    (by simp only [reg_and_zero, reg_and_fifteen, true_and])

theorem agrees_shapeA {k : Reg → Instr} (hrow : Listed op 15 0 15 15 15 15)
    (hk : ∀ ra, encode (k ra) = firstWord op 0 ra 0 0 0 0 :: vs) : AgreesWithMap w vs (shapeA w k) :=
  agrees_of_eq_ok hw (fun _ => shapeA_eq_ok) (hk _) (fun ⟨hd, hb, hc, he, hf⟩ => ⟨hd, rfl, hb, hc, he, hf⟩) hrow
    (by simp only [reg_and_zero, reg_and_fifteen, true_and])

theorem agrees_shapeAB {k : Reg → Reg → Instr} (hrow : Listed op 15 0 0 15 15 15)
    (hk : ∀ ra rb, encode (k ra rb) = firstWord op 0 ra rb 0 0 0 :: vs) : AgreesWithMap w vs (shapeAB w k) :=
  agrees_of_eq_ok hw (fun _ => shapeAB_eq_ok) (hk _ _) (fun ⟨hd, hc, he, hf⟩ => ⟨hd, rfl, rfl, hc, he, hf⟩) hrow
    (by simp only [reg_and_zero, reg_and_fifteen, true_and])

theorem agrees_shapeABC {k : Reg → Reg → Reg → Instr} (hrow : Listed op 15 0 0 0 15 15)
    (hk : ∀ ra rb rc, encode (k ra rb rc) = firstWord op 0 ra rb rc 0 0 :: vs) :
    AgreesWithMap w vs (shapeABC w k) :=
  agrees_of_eq_ok hw (fun _ => shapeABC_eq_ok) (hk _ _ _) (fun ⟨hd, he, hf⟩ => ⟨hd, rfl, rfl, rfl, he, hf⟩) hrow
    (by simp only [reg_and_zero, reg_and_fifteen, true_and])

theorem agrees_shapeAll {k : Reg → Reg → Reg → Reg → Reg → Reg → Instr} (hrow : Listed op 0 0 0 0 0 0)
    (hk : ∀ rd ra rb rc re rf, encode (k rd ra rb rc re rf) = firstWord op rd ra rb rc re rf :: vs) :
    AgreesWithMap w vs (shapeAll w k) :=
  agrees_of_eq_ok (Unused := True) hw (fun _ => by rw [shapeAll_eq_ok, true_and]) (hk _ _ _ _ _ _)
    (fun _ => ⟨rfl, rfl, rfl, rfl, rfl, rfl⟩) hrow (by simp only [reg_and_zero, and_self])

end Agrees

/-- No row selects a word whose opcode is no row's. -/
theorem agrees_unassigned {w : CommandWord} {vs : List CommandWord} {e : Reject}
    (hw : opcodeOf w ∉ opcodeMap.map fun r => opcodeOf r.pattern) : AgreesWithMap w vs (.error e) where
  encodes _ h := by cases h
  accepts := by
    rw [unusedFieldsZero_iff]
    constructor
    · rintro ⟨_, h⟩
      cases h
    · rintro ⟨r, hr, hsel⟩
      exact absurd (List.mem_map.mpr ⟨r, hr, opcodeOf_pattern hr hsel⟩) hw

theorem decodeFormatI_agrees {w : CommandWord} (hw : opcodeOf w = 0x10) (lo hi : CommandWord) :
    AgreesWithMap w [lo, hi] (decodeFormatI w lo hi) :=
  agrees_shapeD hw (by decide) fun rd => by
    rw [encode, setWidth_immediate, setWidth_immediate_shiftRight]

/-- Opcode by opcode, in the groups of the operand shapes; `h_1` to `h_36` are the opcodes in the order of
`decodeFormatR`, which leaves out SETI's. -/
theorem decodeFormatR_agrees {w : CommandWord} (hw : opcodeOf w ≠ 0x10) : AgreesWithMap w [] (decodeFormatR w) := by
  unfold decodeFormatR
  split
  case h_1 | h_2 | h_4 | h_11 | h_19 => exact agrees_shapeDAB ‹opcodeOf w = _› (by decide) fun _ _ _ => rfl
  case h_3 | h_5 | h_6 | h_7 | h_9 | h_10 | h_15 | h_16 | h_18 | h_21 | h_25 | h_28 | h_32 =>
    exact agrees_shapeDA ‹opcodeOf w = _› (by decide) fun _ _ => rfl
  case h_8 | h_20 | h_24 | h_27 | h_31 | h_34 => exact agrees_shapeD ‹opcodeOf w = _› (by decide) fun _ => rfl
  case h_17 | h_22 | h_23 | h_29 | h_30 => exact agrees_shapeA ‹opcodeOf w = _› (by decide) fun _ => rfl
  case h_12 | h_13 | h_26 | h_33 => exact agrees_shapeAB ‹opcodeOf w = _› (by decide) fun _ _ => rfl
  case h_14 => exact agrees_shapeABC ‹opcodeOf w = _› (by decide) fun _ _ _ => rfl
  case h_35 | h_36 => exact agrees_shapeAll ‹opcodeOf w = _› (by decide) fun _ _ _ _ _ _ => rfl
  case h_37 =>
    refine agrees_unassigned ?_
    simp only [opcodes_eq, List.mem_cons, List.not_mem_nil, or_false, not_or]
    and_intros <;> assumption

/-- What is read at all: one word of format R, or three of format I (R70). -/
theorem decode_eq_ok_iff {ws : List CommandWord} {i : Instr} :
    decode ws = .ok i ↔
      (∃ w, ws = [w] ∧ opcodeOf w ≠ 0x10 ∧ decodeFormatR w = .ok i) ∨
        ∃ w lo hi, ws = [w, lo, hi] ∧ opcodeOf w = 0x10 ∧ decodeFormatI w lo hi = .ok i := by
  constructor
  · intro h
    unfold decode at h
    split at h
    case h_1 | h_4 => cases h
    case h_2 w =>
      split at h
      · cases h
      · exact .inl ⟨w, rfl, ‹_›, h⟩
    case h_3 w lo hi =>
      split at h
      · exact .inr ⟨w, lo, hi, rfl, ‹_›, h⟩
      · cases h
  · rintro (⟨w, rfl, hop, h⟩ | ⟨w, lo, hi, rfl, hop, h⟩)
    · rwa [decode, if_neg hop]
    · rwa [decode, if_pos hop]

/-- Settles O3: in either format the reading agrees with the encoder. -/
theorem encodeDecode : Obligations.EncodeDecode := by
  intro ws i h
  obtain ⟨w, rfl, hop, h⟩ | ⟨w, lo, hi, rfl, hop, h⟩ := decode_eq_ok_iff.mp h
  · exact (decodeFormatR_agrees hop).encodes i h
  · exact (decodeFormatI_agrees hop lo hi).encodes i h

theorem exists_decode_iff_wellFormed (ws : List CommandWord) : (∃ i, decode ws = .ok i) ↔ WellFormed ws = true := by
  constructor
  · rintro ⟨i, h⟩
    obtain ⟨w, rfl, hop, h⟩ | ⟨w, lo, hi, rfl, hop, h⟩ := decode_eq_ok_iff.mp h
    · exact wellFormed_cons_iff.mpr ⟨(decodeFormatR_agrees hop).accepts.mp ⟨i, h⟩, by simp [commandLength, hop]⟩
    · exact wellFormed_cons_iff.mpr ⟨(decodeFormatI_agrees hop lo hi).accepts.mp ⟨i, h⟩, by simp [commandLength, hop]⟩
  · cases ws with
    | nil => exact fun h => nomatch h
    | cons w vs =>
      rw [wellFormed_cons_iff]
      rintro ⟨hsel, hlen⟩
      by_cases hop : opcodeOf w = 0x10
      · rw [commandLength, if_pos hop, List.length_cons] at hlen
        obtain ⟨lo, hi, rfl⟩ := List.length_eq_two.mp (Nat.succ.inj hlen)
        obtain ⟨i, h⟩ := (decodeFormatI_agrees hop lo hi).accepts.mpr hsel
        exact ⟨i, decode_eq_ok_iff.mpr (.inr ⟨w, lo, hi, rfl, hop, h⟩)⟩
      · rw [commandLength, if_neg hop, List.length_cons] at hlen
        obtain rfl := List.eq_nil_of_length_eq_zero (Nat.succ.inj hlen)
        obtain ⟨i, h⟩ := (decodeFormatR_agrees hop).accepts.mpr hsel
        exact ⟨i, decode_eq_ok_iff.mpr (.inl ⟨w, rfl, hop, h⟩)⟩

/-- Settles O4: the rows exclude one another because their opcodes differ. -/
theorem decodeAcceptsOpcodeMap : Obligations.DecodeAcceptsOpcodeMap :=
  ⟨exists_decode_iff_wellFormed, fun _ _ _ hr hq hrw hqw =>
    row_eq_of_opcode hr hq ((opcodeOf_pattern hr hrw).trans (opcodeOf_pattern hq hqw).symm)⟩

/-! ### Stored bytes (R78) -/

theorem wordOfBytes_bytesOfWord (w : CommandWord) :
    wordOfBytes (w.setWidth 8) ((w >>> 8).setWidth 8) ((w >>> 16).setWidth 8) ((w >>> 24).setWidth 8) = w := by
  apply BitVec.eq_of_toNat_eq
  have := w.isLt
  simp only [wordOfBytes, BitVec.toNat_ofNat, BitVec.toNat_setWidth, BitVec.toNat_ushiftRight, Nat.shiftRight_eq_div_pow]
  omega

/-- Words stored as bytes are read back, and no byte is left over. -/
theorem wordsOfBytes_bytesOfWord (ws : List CommandWord) : wordsOfBytes (ws.flatMap bytesOfWord) = (ws, []) := by
  induction ws with
  | nil => rfl
  | cons w ws ih =>
    rw [List.flatMap_cons, bytesOfWord]
    simp only [List.cons_append, List.nil_append, wordsOfBytes, ih, wordOfBytes_bytesOfWord]

theorem commandLength_pos (w : CommandWord) : 0 < commandLength w := by
  unfold commandLength
  split <;> decide

/-- Settles O5: the bytes give back the words of the encoding, and the first of them asks for all. -/
theorem decodeStoredBytes : Obligations.DecodeStoredBytes := by
  intro i
  obtain ⟨w, vs, hws, hlen⟩ := Machine.length_of_decode (decodeEncode i)
  have hall : commandLength w = (w :: vs).length := by
    have := commandLength_pos w
    rw [List.length_cons]
    omega
  have hdec : decode (w :: vs) = .ok i := hws ▸ decodeEncode i
  rw [decodeBytes, encodeBytes, wordsOfBytes_bytesOfWord, hws]
  simp only [hall, List.take_length, List.drop_length, hdec]

/-! ### Fixed words -/

/-- Settles O1: the decoder run on each of the eleven. -/
theorem specWordsDecode : Obligations.SpecWordsDecode := by
  unfold Obligations.SpecWordsDecode
  decide

end Sys2Proof
end

section
/-! The field commands (spec/40_field_arithmetic.md R100 to R109, R111, R112). Each function is first the spec's rule over
the integers, which differs from what it stands for by a multiple of p; then it is the operation of ZMod p on the elements
that words stand for, from which the laws follow. The inverse needs that p is prime. -/

namespace Sys2Proof.Machine

/-! ### Completion (R100) -/

/-- A command that only delivers a value changes nothing else. -/
theorem registerOnly_deliver (s : State) (rd : Reg) (v : Word) : RegisterOnly s (s.deliver rd v) rd v where
  left :=
    { value := State.reg_deliver s rd v
      held := State.holdsValue_deliver s rd v
      others := fun _ hr => ⟨State.reg_deliver_of_ne s v hr, State.holdsValue_deliver_of_ne s v hr⟩
      response := rfl
      index := rfl
      input := rfl }
  right := ⟨rfl, ⟨rfl, rfl, rfl, rfl, rfl⟩, ⟨fun _ => rfl, rfl⟩⟩

/-! ### The functions over the integers: 2^64 = p + c, so a folded carry takes p away and a folded borrow adds it -/

theorem addc64_sum (a b : Word) : (addc64 a b).1.toNat = (a.toNat + b.toNat) % 2 ^ 64 := BitVec.toNat_add a b

theorem addc64_carry_iff {a b : Word} : (addc64 a b).2 = true ↔ 2 ^ 64 ≤ a.toNat + b.toNat := decide_eq_true_iff

theorem subb64_difference (a b : Word) : (subb64 a b).1.toNat = (2 ^ 64 - b.toNat + a.toNat) % 2 ^ 64 :=
  BitVec.toNat_sub a b

theorem subb64_borrow_iff {a b : Word} : (subb64 a b).2 = true ↔ a.toNat < b.toNat := decide_eq_true_iff

theorem c_toNat : Config.c.toNat = 2 ^ 32 - 1 := rfl

theorem pWord_toNat : Config.pWord.toNat = Config.p := rfl

theorem add_c_toNat (a : Word) : (a + Config.c).toNat = (a.toNat + (2 ^ 32 - 1)) % 2 ^ 64 := by
  rw [BitVec.toNat_add, c_toNat]

theorem sub_c_toNat (a : Word) : (a - Config.c).toNat = (2 ^ 64 - (2 ^ 32 - 1) + a.toNat) % 2 ^ 64 := by
  rw [BitVec.toNat_sub, c_toNat]

/-! The branches of each function are those of its rule; within a branch both sides are linear. -/

theorem fieldAdd_toNat (x y : Word) : (fieldAdd x y).toNat = addRule x.toNat y.toNat := by
  simp only [fieldAdd, addRule, addc64_carry_iff, addc64_sum, c_toNat]
  split_ifs
  all_goals simp only [add_c_toNat, addc64_sum, c_toNat]
  all_goals omega

theorem fieldSub_toNat (x y : Word) : (fieldSub x y).toNat = subRule x.toNat y.toNat := by
  simp only [fieldSub, subRule, subb64_borrow_iff, subb64_difference, c_toNat]
  split_ifs
  all_goals simp only [sub_c_toNat, subb64_difference, c_toNat]
  all_goals omega

theorem canon_toNat (v : Word) : (canon v).toNat = v.toNat % Config.p := by
  have := v.isLt
  unfold canon
  split <;> rename_i hv
  · rw [Nat.mod_eq_of_lt hv]
  · rw [BitVec.toNat_sub, pWord_toNat]
    simp only [Config.p] at *
    omega

theorem canon_eq_zero_iff {v : Word} : canon v = 0 ↔ v.toNat % Config.p = 0 := by
  rw [← canon_toNat, ← BitVec.toNat_inj]
  rfl

theorem fieldNeg_toNat (x : Word) :
    (fieldNeg x).toNat = if x.toNat % Config.p = 0 then 0 else Config.p - x.toNat % Config.p := by
  have hle : (canon x).toNat ≤ Config.pWord.toNat := by
    rw [canon_toNat, pWord_toNat]
    exact (Nat.mod_lt _ (by decide)).le
  simp only [fieldNeg, canon_eq_zero_iff]
  split
  · rfl
  · rw [BitVec.toNat_sub_of_le hle, canon_toNat, pWord_toNat]

theorem mul128_toNat (x y : Word) :
    (mul128 x y).1.toNat = x.toNat * y.toNat / 2 ^ 64 ∧ (mul128 x y).2.toNat = x.toNat * y.toNat % 2 ^ 64 := by
  have hxy : x.toNat * y.toNat < 2 ^ 64 * 2 ^ 64 := Nat.mul_lt_mul'' x.isLt y.isLt
  simp only [mul128, BitVec.toNat_ofNat, and_true]
  exact Nat.mod_eq_of_lt (Nat.div_lt_of_lt_mul hxy)

/-- The product a2·c of R105 loses nothing: a2 has 32 bits. -/
theorem low_mul_c_toNat (hi : Word) :
    ((hi.setWidth 32).setWidth 64 * Config.c : Word).toNat = hi.toNat % 2 ^ 32 * (2 ^ 32 - 1) := by
  have hlow : ((hi.setWidth 32).setWidth 64 : Word).toNat = hi.toNat % 2 ^ 32 := by
    rw [BitVec.toNat_setWidth_of_le (by decide), BitVec.toNat_setWidth]
  rw [BitVec.toNat_mul, hlow, c_toNat]
  omega

theorem high_toNat (hi : Word) : (hi >>> 32).toNat = hi.toNat / 2 ^ 32 := by
  rw [BitVec.toNat_ushiftRight, Nat.shiftRight_eq_div_pow]

theorem fieldMul_toNat (x y : Word) : (fieldMul x y).toNat = mulRule x.toNat y.toNat := by
  obtain ⟨hhi, hlo⟩ := mul128_toNat x y
  simp only [fieldMul, mulRule, addc64_carry_iff, subb64_borrow_iff, low_mul_c_toNat, high_toNat, ← hhi, ← hlo]
  split_ifs
  all_goals simp only [add_c_toNat, sub_c_toNat, addc64_sum, subb64_difference, low_mul_c_toNat, high_toNat] at *
  all_goals omega

/-! ### How far the integers are from the sum, the difference and the product -/

theorem addRule_add_multiple (x y : Nat) : ∃ k, addRule x y + k * Config.p = x + y := by
  simp only [addRule, Config.p]
  split_ifs
  · exact ⟨0, by omega⟩
  · exact ⟨1, by omega⟩
  · exact ⟨2, by omega⟩

theorem subRule_add_eq_add_multiple (x : Nat) {y : Nat} (hy : y < 2 ^ 64) :
    ∃ k, subRule x y + y = x + k * Config.p := by
  simp only [subRule, Config.p]
  split_ifs
  · exact ⟨0, by omega⟩
  · exact ⟨1, by omega⟩
  · exact ⟨2, by omega⟩

/-- Of a3·2^96 + a2·2^64 + lo the rule keeps lo + a2·c − a3, as 2^64 = p + c and 2^96 = (2^32 + 1)·p − 1. -/
theorem mulRule_add_multiple {x y : Nat} (hx : x < 2 ^ 64) (hy : y < 2 ^ 64) :
    ∃ k, mulRule x y + k * Config.p = x * y := by
  have hxy : x * y < 2 ^ 64 * 2 ^ 64 := Nat.mul_lt_mul'' hx hy
  simp only [mulRule, Config.p]
  generalize x * y = n at *
  have hsplit : n = n / 2 ^ 64 / 2 ^ 32 * 2 ^ 96 + n / 2 ^ 64 % 2 ^ 32 * 2 ^ 64 + n % 2 ^ 64 := by omega
  generalize n / 2 ^ 64 / 2 ^ 32 = a3, n / 2 ^ 64 % 2 ^ 32 = a2 at *
  split_ifs
  · exact ⟨a2 + a3 * (2 ^ 32 + 1), by omega⟩
  · exact ⟨a2 + a3 * (2 ^ 32 + 1) - 1, by omega⟩
  · exact ⟨a2 + a3 * (2 ^ 32 + 1) + 1, by omega⟩
  · exact ⟨a2 + a3 * (2 ^ 32 + 1), by omega⟩

theorem fieldAdd_mod (x y : Word) : (fieldAdd x y).toNat % Config.p = (x.toNat + y.toNat) % Config.p := by
  obtain ⟨k, hk⟩ := addRule_add_multiple x.toNat y.toNat
  rw [fieldAdd_toNat, ← hk, Nat.add_mul_mod_self_right]

theorem fieldSub_mod (x y : Word) : ((fieldSub x y).toNat + y.toNat) % Config.p = x.toNat % Config.p := by
  obtain ⟨k, hk⟩ := subRule_add_eq_add_multiple x.toNat y.isLt
  rw [fieldSub_toNat, hk, Nat.add_mul_mod_self_right]

theorem fieldMul_mod (x y : Word) : (fieldMul x y).toNat % Config.p = x.toNat * y.toNat % Config.p := by
  obtain ⟨k, hk⟩ := mulRule_add_multiple x.isLt y.isLt
  rw [fieldMul_toNat, ← hk, Nat.add_mul_mod_self_right]

/-- The cross-check of R111: the high half of a product counts as its remainder times c. -/
theorem mul128_reference (x y : Word) :
    ((mul128 x y).1.toNat % Config.p * (2 ^ 32 - 1) + (mul128 x y).2.toNat % Config.p) % Config.p =
      x.toNat * y.toNat % Config.p := by
  obtain ⟨hhi, hlo⟩ := mul128_toNat x y
  have hsplit : (mul128 x y).1.toNat * (2 ^ 32 - 1) + (mul128 x y).2.toNat + (mul128 x y).1.toNat * Config.p =
      x.toNat * y.toNat := by
    simp only [Config.p]
    omega
  rw [← hsplit, Nat.add_mul_mod_self_right]
  exact ((Nat.mod_modEq ..).mul_right _).add (Nat.mod_modEq ..)

/-! ### Words as elements of ZMod p (R12) -/

/-- The element of ZMod p that a word stands for: words that differ by a multiple of p stand for the same one. -/
def element (v : Word) : ZMod Config.p := v.toNat

theorem element_eq_iff {v w : Word} : element v = element w ↔ v.toNat % Config.p = w.toNat % Config.p :=
  ZMod.natCast_eq_natCast_iff' ..

theorem element_eq_zero_iff {v : Word} : element v = 0 ↔ v.toNat % Config.p = 0 :=
  (ZMod.natCast_eq_zero_iff ..).trans Nat.dvd_iff_mod_eq_zero

theorem canon_eq_canon_iff {v w : Word} : canon v = canon w ↔ element v = element w := by
  rw [element_eq_iff, ← canon_toNat, ← canon_toNat, BitVec.toNat_inj]

theorem element_canon (v : Word) : element (canon v) = element v := by
  rw [element, canon_toNat, ZMod.natCast_mod, element]

theorem element_fieldAdd (x y : Word) : element (fieldAdd x y) = element x + element y := by
  rw [element, (ZMod.natCast_eq_natCast_iff' ..).mpr (fieldAdd_mod x y), Nat.cast_add, element, element]

theorem element_fieldMul (x y : Word) : element (fieldMul x y) = element x * element y := by
  rw [element, (ZMod.natCast_eq_natCast_iff' ..).mpr (fieldMul_mod x y), Nat.cast_mul, element, element]

theorem element_add_fieldNeg (x : Word) : element x + element (fieldNeg x) = 0 := by
  have hr := Nat.mod_lt x.toNat (show 0 < Config.p by decide)
  rw [← element_canon, element, element, canon_toNat, fieldNeg_toNat, ← Nat.cast_add]
  split <;> rename_i h0
  · rw [h0, Nat.cast_zero]
  · rw [Nat.add_sub_cancel' hr.le, CharP.cast_eq_zero]

/-! ### Powers (R112 b), and that p is prime (R7) -/

theorem powMod_lt {m : Nat} (hm : 0 < m) : ∀ bits b e, powMod m bits b e < m
  | 0, _, _ => Nat.mod_lt _ hm
  | bits + 1, b, e => by
    simp only [powMod]
    split
    · exact Nat.mod_lt _ hm
    · exact powMod_lt hm bits _ _

theorem powMod_natCast (m : Nat) {bits e : Nat} (b : Nat) (he : e < 2 ^ bits) :
    (powMod m bits b e : ZMod m) = (b : ZMod m) ^ e := by
  induction bits generalizing b e with
  | zero =>
    obtain rfl : e = 0 := by omega
    rw [powMod, ZMod.natCast_mod, Nat.cast_one, pow_zero]
  | succ bits ih =>
    have hrest : (powMod m bits (b * b % m) (e / 2) : ZMod m) = (b : ZMod m) ^ (2 * (e / 2)) := by
      rw [ih _ (by omega), ZMod.natCast_mod, Nat.cast_mul, ← pow_two, ← pow_mul]
    simp only [powMod]
    split <;> rename_i hodd
    · rw [ZMod.natCast_mod, Nat.cast_mul, hrest, ← pow_succ', show 2 * (e / 2) + 1 = e by omega]
    · rw [hrest, show 2 * (e / 2) = e by omega]

theorem natCast_pow_eq_one_iff {bits b e : Nat} (he : e < 2 ^ bits) :
    (b : ZMod Config.p) ^ e = 1 ↔ powMod Config.p bits b e = 1 := by
  rw [← powMod_natCast _ b he, ← Nat.cast_one, ZMod.natCast_eq_natCast_iff',
    Nat.mod_eq_of_lt (powMod_lt (by decide) ..), Nat.mod_eq_of_lt (by decide)]

/-- p − 1 = 2^32 · 3 · 5 · 17 · 257 · 65537. -/
theorem prime_dvd_p_sub_one {q : Nat} (hq : q.Prime) (h : q ∣ Config.p - 1) : q ∈ [2, 3, 5, 17, 257, 65537] := by
  have hfactors : Config.p - 1 = (List.replicate 32 2 ++ [3, 5, 17, 257, 65537]).prod := by decide
  have hprimes : ∀ r ∈ List.replicate 32 2 ++ [3, 5, 17, 257, 65537], Prime r := by
    simp only [List.mem_append, List.mem_replicate, List.mem_cons, List.not_mem_nil, ← Nat.prime_iff]
    rintro r (⟨-, rfl⟩ | rfl | rfl | rfl | rfl | rfl | ⟨⟨⟩⟩) <;> norm_num
  simpa using mem_list_primes_of_dvd_prod hq.prime hprimes (hfactors ▸ h)

/-- p is prime: 7 has order p − 1 modulo p, by Lucas's test. -/
theorem prime_p : Config.p.Prime := by
  refine lucas_primality _ ((7 : Nat) : ZMod Config.p) ((natCast_pow_eq_one_iff (bits := 64) (by decide)).mpr ?_) ?_
  · decide +kernel
  · intro q hq hdvd h
    have hne : ∀ r ∈ [2, 3, 5, 17, 257, 65537], powMod Config.p 64 7 ((Config.p - 1) / r) ≠ 1 := by decide +kernel
    have hlt : (Config.p - 1) / q < 2 ^ 64 := (Nat.div_le_self ..).trans_lt (by decide)
    exact hne q (prime_dvd_p_sub_one hq hdvd) ((natCast_pow_eq_one_iff hlt).mp h)

theorem fieldInv_lt (x : Word) : (fieldInv x).toNat < Config.p := by
  unfold fieldInv
  split
  · decide
  · exact (Nat.mod_le ..).trans_lt (powMod_lt (by decide) ..)

theorem element_fieldInv {x : Word} (hx : element x ≠ 0) : element (fieldInv x) = element x ^ (Config.p - 2) := by
  have hcanon : canon x ≠ 0 := fun h => hx (element_eq_zero_iff.mpr (canon_eq_zero_iff.mp h))
  have hlt := powMod_lt (show 0 < Config.p by decide) 64 (canon x).toNat (Config.p - 2)
  rw [fieldInv, if_neg hcanon, element, BitVec.toNat_ofNat, Nat.mod_eq_of_lt (hlt.trans (by decide)),
    powMod_natCast _ _ (by decide), ← element, element_canon]

/-- Fermat's little theorem: x^(p − 2) is the inverse of x. -/
theorem element_mul_fieldInv {x : Word} (hx : element x ≠ 0) : element x * element (fieldInv x) = 1 := by
  have : Fact Config.p.Prime := ⟨prime_p⟩
  rw [element_fieldInv hx, ← pow_succ', show Config.p - 2 + 1 = Config.p - 1 by decide]
  exact ZMod.pow_card_sub_one_eq_one hx

theorem mul_mod_p_eq_one_iff {a b : Nat} : a * b % Config.p = 1 ↔ (a : ZMod Config.p) * b = 1 := by
  have hone : 1 % Config.p = 1 := by decide
  rw [← Nat.cast_mul, ← Nat.cast_one (R := ZMod Config.p), ZMod.natCast_eq_natCast_iff', hone]

/-- What R108 asks of an inverse is met by no two numbers below p. -/
theorem inverse_unique {a b y : Nat} (hb : b < Config.p) (hy : y < Config.p) (hab : a * b % Config.p = 1)
    (hay : a * y % Config.p = 1) : y = b := by
  have hcast : (y : ZMod Config.p) = b :=
    left_inv_eq_right_inv ((mul_comm ..).trans (mul_mod_p_eq_one_iff.mp hay)) (mul_mod_p_eq_one_iff.mp hab)
  rwa [ZMod.natCast_eq_natCast_iff', Nat.mod_eq_of_lt hb, Nat.mod_eq_of_lt hy] at hcast

/-! ### The commands -/

/-- Settles O22: the sum of R102 is x + y less a multiple of p. -/
theorem faddResult : Obligations.FaddResult := fun rd ra rb s =>
  ⟨_, _, rfl, registerOnly_deliver s rd _, fieldAdd_toNat (s.reg ra) (s.reg rb), fieldAdd_mod ..⟩

/-- Settles O23: the difference of R103 with y added back is x and a multiple of p. -/
theorem fsubResult : Obligations.FsubResult := fun rd ra rb s =>
  ⟨_, _, rfl, registerOnly_deliver s rd _, fieldSub_toNat (s.reg ra) (s.reg rb), fieldSub_mod ..⟩

/-- Settles O24: FNEG gives the negative in ZMod p, and FADD adds there. -/
theorem fnegResult : Obligations.FnegResult := fun rd ra s =>
  ⟨_, _, rfl, registerOnly_deliver s rd _, fieldNeg_toNat (s.reg ra), by
    rw [← element_eq_zero_iff, element_fieldAdd, element_add_fieldNeg]⟩

/-- Settles O25: the reduced product of R105 is x·y less a multiple of p. -/
theorem fmulResult : Obligations.FmulResult := fun rd ra rb s =>
  ⟨_, _, rfl, registerOnly_deliver s rd _, fieldMul_toNat (s.reg ra) (s.reg rb), fieldMul_mod ..⟩

/-- Settles O26: one conditional correction suffices, as 2^64 < 2·p (D20, log entry 13). -/
theorem fpredResult : Obligations.FpredResult := fun rd ra s =>
  ⟨_, _, rfl, registerOnly_deliver s rd _, canon_toNat (s.reg ra)⟩

/-- Settles O27: the result stands for the same element of ZMod p as x, so it is its own canonical value. -/
theorem ffinResult : Obligations.FfinResult := fun rd ra s =>
  ⟨_, _, rfl, registerOnly_deliver s rd _, canon_toNat (s.reg ra), canon_eq_canon_iff.mpr (element_canon _)⟩

/-- Settles O28: the power is an inverse by Fermat's little theorem, p being prime, and inverses are unique. -/
theorem finvResult : Obligations.FinvResult := by
  intro rd ra s
  refine ⟨_, _, rfl, registerOnly_deliver s rd _, fun h => if_pos (canon_eq_zero_iff.mpr h), fun h => ?_⟩
  have hlt := fieldInv_lt (s.reg ra)
  have hinv := mul_mod_p_eq_one_iff.mpr (element_mul_fieldInv (mt element_eq_zero_iff.mp h))
  refine ⟨Nat.pos_of_ne_zero fun h0 => ?_, hlt, hinv, fun y hy hone => inverse_unique hlt hy hinv hone⟩
  rw [h0, Nat.mul_zero, Nat.zero_mod] at hinv
  exact Nat.zero_ne_one hinv

/-- Settles O29: both reductions are x·y modulo p. -/
theorem fmulReferenceCrossCheck : Obligations.FmulReferenceCrossCheck := by
  intro x y
  rw [mul128_reference, canon_toNat, fieldMul_mod]
  exact ⟨rfl, rfl⟩

/-- Settles O30: bit for bit as the rules are symmetric, through FFIN as ZMod p is a field, and the two pairs by running
the model. -/
theorem fieldLaws : Obligations.FieldLaws := by
  refine ⟨fun x y => ⟨BitVec.eq_of_toNat_eq ?_, BitVec.eq_of_toNat_eq ?_⟩, fun x y z => ?_,
    fun x => ⟨?_, fun hx => ?_⟩, ?_⟩
  · rw [fieldAdd_toNat, fieldAdd_toNat, addRule, addRule, Nat.add_comm]
  · rw [fieldMul_toNat, fieldMul_toNat, mulRule, mulRule, Nat.mul_comm]
  · simp only [canon_eq_canon_iff, element_fieldAdd, element_fieldMul]
    exact ⟨add_assoc .., mul_assoc .., mul_add ..⟩
  · rw [canon_eq_zero_iff, ← element_eq_zero_iff, element_fieldAdd, add_comm, element_add_fieldNeg]
  · have hne : element x ≠ 0 := fun h => hx (canon_eq_zero_iff.mpr (element_eq_zero_iff.mp h))
    have hone : element (fieldMul (fieldInv x) x) = element 1 := by
      rw [element_fieldMul, mul_comm, element_mul_fieldInv hne]
      exact Nat.cast_one.symm
    exact (canon_eq_canon_iff.mpr hone).trans (by decide)
  · decide

end Sys2Proof.Machine
end

section
/-! Register and byte I/O (spec/41_register_and_byte_io.md R130 to R138). Every load is `loadInto` and every store is
`storeFrom`, so each is settled once, for any address and any number of bytes up to 8. -/

namespace Sys2Proof.Machine

/-! ### The status register (R132) -/

/-- ST as its fields stand in it, from bit 63 down to bit 0 (R26). -/
theorem statusWord_eq_append (st : Status) :
    st.word = (((0#57 ++ st.fcause) ++ 0#2) ++ BitVec.ofBool st.halt) ++ BitVec.ofBool st.empty := by
  obtain ⟨empty, halt, fcause⟩ := st
  revert empty halt fcause
  decide

theorem statusWord_getLsbD (st : Status) (i : Nat) :
    st.word.getLsbD i =
      if i = 0 then st.empty else if i = 1 then st.halt
      else decide (4 ≤ i) && decide (i ≤ 6) && st.fcause.getLsbD (i - 4) := by
  rw [statusWord_eq_append]
  simp only [BitVec.getLsbD_append, BitVec.getLsbD_zero, BitVec.getLsbD_ofBool]
  match i with
  | 0 | 1 | 2 | 3 => simp
  | i + 4 =>
    by_cases hfield : i < 3
    · simp [hfield]; omega
    · simp [hfield]; omega

/-! ### Loads (R130) -/

/-- What a load of up to 8 bytes delivers, byte by byte: the bytes read, then zeros. -/
theorem toWord_readBytes_byte (m : Memory) (a : Nat) {n : Nat} (hn : n ≤ 8) (i : Nat) :
    (toWord (m.readBytes a n) >>> (8 * i)).setWidth 8 = if i < n then m.byte (a + i) else 0#8 := by
  have hlt : m.readBytes a n < 2 ^ (8 * n) := readBytes_lt m a n
  have hfits : m.readBytes a n < 2 ^ 64 := hlt.trans_le (Nat.pow_le_pow_right (by decide) (by omega))
  apply BitVec.eq_of_toNat_eq
  rw [BitVec.toNat_setWidth, BitVec.toNat_ushiftRight, Nat.shiftRight_eq_div_pow, toWord, BitVec.toNat_ofNat,
    Nat.mod_eq_of_lt hfits]
  split <;> rename_i hi
  · exact readBytes_div_mod m hi
  · have habove : 2 ^ (8 * n) ≤ 2 ^ (8 * i) := Nat.pow_le_pow_right (by decide) (by omega)
    rw [Nat.div_eq_of_lt (hlt.trans_le habove)]
    rfl

theorem loadInto_result {s : State} {a n : Nat} (rd : Reg) (hn : n ≤ 8) (ha : s.mem.accessible a n = true) :
    ∃ t v, loadInto rd a n s = .next t ∧ RegisterOnly s t rd v ∧
      ∀ i, (v >>> (8 * i)).setWidth 8 = if i < n then s.mem.byte (a + i) else 0#8 :=
  ⟨_, _, loadInto_eq_next.mpr ⟨ha, rfl⟩, registerOnly_deliver s rd _, toWord_readBytes_byte s.mem a hn⟩

/-! ### Stores (R130) -/

/-- Completing over another memory changes nothing but that memory. -/
theorem completed_withMemory (s : State) (m : Memory) : Completed s { s with mem := m }.complete where
  registers _ := ⟨rfl, rfl⟩
  response := rfl
  index := rfl
  input := rfl

theorem storeFrom_result {s : State} {a n : Nat} (v : Word) (hm : s.mem.wf = true)
    (ha : s.mem.accessible a n = true) :
    ∃ t, storeFrom a n v s = .next t ∧ Completed s t ∧ t.st = s.st ∧ SameContexts s t ∧ Stored s t a n v.toNat :=
  ⟨_, storeFrom_eq_next.mpr ⟨ha, rfl⟩, completed_withMemory s _, rfl, ⟨rfl, rfl, rfl, rfl, rfl⟩,
    stored_of_writeBytes hm ha rfl⟩

/-! ### Counts of LDB and STB (R135, R138) -/

theorem countSupported_eq_false {n : Nat} (h : n = 0 ∨ 8 < n) : countSupported n = false := by
  rw [countSupported, Bool.and_eq_false_iff, decide_eq_false_iff_not, decide_eq_false_iff_not]
  omega

theorem execLdb_of_supported {s : State} {rb : Reg} (rd ra : Reg) (hn : 0 < s.count rb) (hle : s.count rb ≤ 8) :
    execLdb rd ra rb s = loadInto rd (s.address ra) (s.count rb) s := if_pos (countSupported_of_le hn hle)

theorem execLdb_of_unsupported {s : State} {rb : Reg} (rd ra : Reg) (h : s.count rb = 0 ∨ 8 < s.count rb) :
    execLdb rd ra rb s = .next (s.deliver rd 0) := by
  rw [execLdb, countSupported_eq_false h, if_neg Bool.false_ne_true]

theorem execStb_of_supported {s : State} {rb : Reg} (ra rc : Reg) (hn : 0 < s.count rb) (hle : s.count rb ≤ 8) :
    execStb ra rb rc s = storeFrom (s.address ra) (s.count rb) (s.reg rc) s := if_pos (countSupported_of_le hn hle)

theorem execStb_of_unsupported {s : State} {rb : Reg} (ra rc : Reg) (h : s.count rb = 0 ∨ 8 < s.count rb) :
    execStb ra rb rc s = .next s.complete := by
  rw [execStb, countSupported_eq_false h, if_neg Bool.false_ne_true]

/-! ### The commands -/

/-- Settles O31: SETI only delivers. -/
theorem setiResult : Obligations.SetiResult := fun rd imm s => ⟨_, rfl, registerOnly_deliver s rd imm⟩

/-- Settles O32: RDST only delivers, and what it delivers is ST bit by bit. -/
theorem rdstResult : Obligations.RdstResult := fun rd s =>
  ⟨_, _, rfl, registerOnly_deliver s rd _, statusWord_getLsbD s.st⟩

/-- Settles O33: both are the load of R130, of 4 and of 8 bytes; of the 8 bytes of rd none is above the latter. -/
theorem fixedLoadResult : Obligations.FixedLoadResult := by
  intro rd ra s
  refine ⟨fun ha => ?_, fun ha => ?_⟩
  · obtain ⟨t, v, ht, hframe, hbytes⟩ := loadInto_result rd (by decide) ha
    exact ⟨t, v, ht, hframe, fun i _ => hbytes i⟩
  · obtain ⟨t, v, ht, hframe, hbytes⟩ := loadInto_result rd (by decide) ha
    exact ⟨t, v, ht, hframe, fun i hi => (hbytes i).trans (if_pos hi)⟩

/-- Settles O34: the load of R130 for a supported count, and no access for any other. -/
theorem ldbResult : Obligations.LdbResult := by
  intro rd ra rb s
  refine ⟨fun hn hle ha => ?_, fun h => ⟨_, execLdb_of_unsupported rd ra h, registerOnly_deliver s rd 0⟩⟩
  obtain ⟨t, v, ht, hframe, hbytes⟩ := loadInto_result rd hle ha
  exact ⟨t, v, (execLdb_of_supported rd ra hn hle).trans ht, hframe, fun i _ => hbytes i⟩

/-- Settles O35: both are the store of R130, of 4 and of 8 bytes. -/
theorem fixedStoreResult : Obligations.FixedStoreResult := fun _ rb s hm =>
  ⟨storeFrom_result (s.reg rb) hm, storeFrom_result (s.reg rb) hm⟩

/-- Settles O36: the store of R130 for a supported count, and the memory as it was for any other. -/
theorem stbResult : Obligations.StbResult := by
  intro ra rb rc s hm
  refine ⟨fun hn hle ha => ?_, fun h => ?_⟩
  · obtain ⟨t, ht, hresult⟩ := storeFrom_result (s.reg rc) hm ha
    exact ⟨t, (execStb_of_supported ra rc hn hle).trans ht, hresult⟩
  · exact ⟨_, execStb_of_unsupported ra rc h, completed_withMemory s s.mem, rfl, ⟨rfl, rfl, rfl, rfl, rfl⟩,
      ⟨fun _ => rfl, rfl⟩⟩

end Sys2Proof.Machine
end

section
/-! The 64-bit-with-overflow codec (spec/42_codec64_appdatareader.md R150 to R160), the sizing helpers and the begin
commands of all codecs. First what completing a command leaves unchanged, over any update of memory and contexts; then the
packer forwards, branch by branch; then its bits as integers. -/

namespace Sys2Proof.Machine

/-! ### Completion over a changed memory or context -/

/-- Completing leaves in place the registers, the index and the input that the command had not touched. -/
theorem completed_complete {s u : State} (hregs : u.regs = s.regs) (hwritten : u.written = s.written)
    (hindex : u.index = s.index) (hinput : u.input = s.input) : Completed s u.complete where
  registers _ := by simp [State.reg, State.holdsValue, hregs, hwritten]
  response := rfl
  index := congrArg (· + 1) hindex
  input := hinput

/-- Delivering writes its destination only, whatever the command did to memory and contexts before. -/
theorem delivered_deliver {s u : State} (rd : Reg) (v : Word) (hregs : u.regs = s.regs)
    (hwritten : u.written = s.written) (hindex : u.index = s.index) (hinput : u.input = s.input) :
    Delivered s (u.deliver rd v) rd v where
  value := State.reg_deliver u rd v
  held := State.holdsValue_deliver u rd v
  others r hr := by
    rw [State.reg_deliver_of_ne u v hr, State.holdsValue_deliver_of_ne u v hr]
    simp [State.reg, State.holdsValue, hregs, hwritten]
  response := rfl
  index := congrArg (· + 1) hindex
  input := hinput

theorem sameMemory_of_mem_eq {s t : State} (h : t.mem = s.mem) : SameMemory s t := ⟨fun _ => by rw [h], by rw [h]⟩

/-- Delivering over another memory and another ADR changes nothing beyond them and the destination. -/
theorem delivered_withPacker (s : State) (m : Memory) (c : AdrContext) (rd : Reg) (v : Word) :
    Delivered s ({ s with mem := m, adr := c }.deliver rd v) rd v := delivered_deliver rd v rfl rfl rfl rfl

/-! ### Sizes (R153, R154, R171, R175, R192, R196) -/

/-- The ceiling of R9 is unique. -/
theorem IsCeil.ceilDiv_eq {a b q : Nat} (hb : 0 < b) (h : IsCeil a b q) : ceilDiv a b = q :=
  Nat.le_antisymm ((ceilDiv_le_iff hb).mpr ((h q).mp le_rfl)) ((h _).mpr ((ceilDiv_le_iff hb).mp le_rfl))

theorem deliverSize_of_lt {rd : Reg} {v : Nat} {s : State} (h : v < 2 ^ 64) :
    ∃ t, deliverSize rd v s = .next t ∧ RegisterOnly s t rd (BitVec.ofNat 64 v) :=
  ⟨_, deliverSize_eq_next.mpr ⟨h, rfl⟩, registerOnly_deliver s rd _⟩

theorem deliverSize_of_ge {rd : Reg} {v : Nat} {s : State} (h : 2 ^ 64 ≤ v) :
    deliverSize rd v s = .refused .sizeOverflow := by
  rw [deliverSize, decide_eq_true (p := Config.addressSpace ≤ v) h, refuseIf_true, andThen_refused]

/-! ### Contexts in use (R238) -/

/-- A command on an idle context is refused before it does anything else (log entry 11). -/
theorem guarded_of_idle {α : Type} {active : Bool} (h : active = false) (f : Unit → Result α) :
    andThen (refuseIf (!active) .contextIdle) f = .refused .contextIdle := by
  rw [h, Bool.not_false, refuseIf_true, andThen_refused]

/-- A command on an active context does what follows the check. -/
theorem guarded_of_active {α : Type} {active : Bool} (h : active = true) (f : Unit → Result α) :
    andThen (refuseIf (!active) .contextIdle) f = f () := by
  rw [h, Bool.not_true, refuseIf_false, andThen_next]

/-! ### The packer, branch by branch (R156, R158, R159) -/

/-- Up to 61 pending bits, one more is only buffered. -/
theorem packerAppend_of_lt {c : AdrContext} (m : Memory) (bit : Bool) (hc : c.cnt.toNat < 62) :
    packerAppend m c bit = .next (m, { c with acc := c.accWith bit, cnt := BitVec.ofNat 6 (c.cnt.toNat + 1) }) :=
  if_neg (Nat.not_le.mpr (Nat.succ_lt_succ hc))

/-- The 63rd bit completes an auxiliary word, which is written if its bytes may be used. -/
theorem packerAppend_of_full {m : Memory} {c : AdrContext} (bit : Bool) (hc : c.cnt.toNat = 62)
    (ha : m.accessible c.auxAddress 8 = true) :
    packerAppend m c bit = .next (m.writeBytes c.auxAddress 8 (c.accWith bit).toNat,
      { c with auxWords := c.auxWords + 1, acc := 0, cnt := 0 }) :=
  (if_pos (Nat.succ_le_succ hc.ge)).trans (packerFlushWord_eq_next.mpr ⟨ha, rfl⟩)

theorem packerRead_of_plain {m : Memory} {c : AdrContext} {a : Nat} (ha : m.accessible a 8 = true)
    (hw : ambiguous (BitVec.ofNat 64 (m.readBytes a 8)) = false) :
    packerRead m c a = .next (m, c, BitVec.ofNat 64 (m.readBytes a 8)) := by
  rw [packerRead, load_eq_next.mpr ⟨ha, rfl⟩, andThen_next]
  exact if_neg (Bool.eq_false_iff.mp hw)

theorem packerRead_of_ambiguous {m : Memory} {c : AdrContext} {a : Nat} {q : Memory × AdrContext}
    (ha : m.accessible a 8 = true) (hw : ambiguous (BitVec.ofNat 64 (m.readBytes a 8)) = true)
    (hq : packerAppend m c (BitVec.ofNat 64 (m.readBytes a 8)).msb = .next q) :
    packerRead m c a = .next (q.1, q.2, packedWord (BitVec.ofNat 64 (m.readBytes a 8))) := by
  rw [packerRead, load_eq_next.mpr ⟨ha, rfl⟩, andThen_next, if_pos hw, hq, andThen_next]

theorem packerFlush_of_empty {c : AdrContext} (m : Memory) (hc : c.cnt = 0) : packerFlush m c = .next (m, c) := if_pos hc

theorem packerFlush_of_pending {m : Memory} {c : AdrContext} (hc : c.cnt ≠ 0) (ha : m.accessible c.auxAddress 8 = true) :
    packerFlush m c = .next (m.writeBytes c.auxAddress 8 c.acc.toNat,
      { c with auxWords := c.auxWords + 1, acc := 0, cnt := 0 }) :=
  (if_neg hc).trans (packerFlushWord_eq_next.mpr ⟨ha, rfl⟩)

/-- AUXWORDS does not wrap past a word whose bytes lie in the address space (R58). -/
theorem auxWords_next {m : Memory} {c : AdrContext} (ha : m.accessible c.auxAddress 8 = true) :
    (c.auxWords + 1).toNat = c.auxWords.toNat + 1 := by
  obtain ⟨hspace, -⟩ := accessible_iff.mp ha
  simp only [AdrContext.auxAddress, Config.addressSpace] at hspace
  rw [BitVec.toNat_add, show (1 : Word).toNat = 1 from rfl]
  omega

/-! ### Ambiguous words as integers (R151, R152) -/

/-- A number has the bits 32 to 62 of the mask exactly when its bits there are all ones: the mask is 0 below bit 32 and
2^31 − 1 above it. -/
theorem and_amb63_eq_iff (w : Nat) : w &&& Config.amb63.toNat = Config.amb63.toNat ↔ ambiguousNat w := by
  have hlow : (w &&& Config.amb63.toNat) % 2 ^ 32 = 0 := by
    rw [Nat.and_mod_two_pow, show Config.amb63.toNat % 2 ^ 32 = 0 by decide, Nat.and_zero]
  have hhigh : (w &&& Config.amb63.toNat) / 2 ^ 32 = w / 2 ^ 32 % 2 ^ 31 := by
    rw [Nat.and_div_two_pow, show Config.amb63.toNat / 2 ^ 32 = 2 ^ 31 - 1 by decide, Nat.and_two_pow_sub_one_eq_mod]
  have hmask : Config.amb63.toNat = 2 ^ 32 * (2 ^ 31 - 1) := by decide
  rw [ambiguousNat, ← hhigh]
  omega

theorem ambiguous_iff {w : Word} : ambiguous w = true ↔ ambiguousNat w.toNat := by
  rw [ambiguous, beq_iff_eq, ← BitVec.toNat_inj, BitVec.toNat_and, and_amb63_eq_iff]

/-- The packer emits an ambiguous word without its bit 63. -/
theorem packedWord_of_ambiguous {w : Word} (h : ambiguous w = true) :
    packedWord w = BitVec.ofNat 64 (w.toNat % 2 ^ 63) := by
  rw [packedWord, if_pos h]
  apply BitVec.eq_of_toNat_eq
  rw [BitVec.toNat_and, show (0x7FFFFFFFFFFFFFFF#64 : Word).toNat = 2 ^ 63 - 1 by decide,
    Nat.and_two_pow_sub_one_eq_mod, BitVec.toNat_ofNat]
  omega

theorem packedWord_of_plain {w : Word} (h : ambiguous w = false) : packedWord w = w := by
  rw [packedWord, h, if_neg Bool.false_ne_true]

/-- Bit 63 of a word as the integer that ADRD8 appends. -/
theorem msb_toNat (w : Word) : w.msb.toNat = w.toNat / 2 ^ 63 := by
  have hw := w.isLt
  rw [BitVec.msb_eq_decide]
  by_cases h : 2 ^ 63 ≤ w.toNat
  · rw [decide_eq_true h, Bool.toNat_true]; omega
  · rw [decide_eq_false h, Bool.toNat_false]; omega

/-- Every packed word is below p (R151): a word at or above p has bits 32 to 63 all ones, so it is ambiguous, and an
ambiguous one loses bit 63. -/
theorem packedWord_lt (w : Word) : (packedWord w).toNat < Config.p := by
  have hw := w.isLt
  cases h : ambiguous w with
  | true =>
    rw [packedWord_of_ambiguous h, BitVec.toNat_ofNat, Config.p]
    omega
  | false =>
    have hplain : ¬ambiguousNat w.toNat := fun hn => by simp [ambiguous_iff.mpr hn] at h
    rw [packedWord_of_plain h, Config.p]
    rw [ambiguousNat] at hplain
    omega

/-- Whatever the packer emits is the packed word of the 8 bytes it read. -/
theorem packerRead_word {m : Memory} {c : AdrContext} {a : Nat} {r : Memory × AdrContext × Word}
    (h : packerRead m c a = .next r) : r.2.2 = packedWord (BitVec.ofNat 64 (m.readBytes a 8)) := by
  obtain ⟨-, ⟨hw, rfl⟩ | ⟨-, q, -, rfl⟩⟩ := packerRead_cases h
  · exact (packedWord_of_plain hw).symm
  · rfl

/-! ### The commands -/

/-- Settles O37: each ceiling is bounded by its defining property, with n or L below 2^64. -/
theorem totalSizingHelpers : Obligations.TotalSizingHelpers := by
  intro rd ra s
  have hn := (s.reg ra).isLt
  refine ⟨⟨_, _, rfl, isCeil_ceilDiv _ (by decide), ?_, registerOnly_deliver s rd _⟩,
    ⟨_, _, rfl, Nat.mul_div_le _ _, Nat.lt_mul_div_succ _ (by decide), ?_, registerOnly_deliver s rd _⟩,
    ⟨_, _, rfl, isCeil_ceilDiv _ (by decide), ?_, registerOnly_deliver s rd _⟩⟩
  · have hle : ceilDiv ((s.reg ra).toNat / 8) 63 ≤ 2 ^ 60 := (ceilDiv_le_iff (by decide)).mpr (by omega)
    omega
  · omega
  · have hle : ceilDiv (8 * (s.reg ra).toNat) 60 ≤ 2 ^ 62 := (ceilDiv_le_iff (by decide)).mpr (by omega)
    omega

/-- Settles O38: all three are `deliverSize` of the spec's formula, whose ceilings are the given ones. -/
theorem partialSizingHelpers : Obligations.PartialSizingHelpers := by
  intro rd ra s a b q ha hb hq
  obtain rfl := ha.ceilDiv_eq (by decide)
  obtain rfl := hb.ceilDiv_eq (by decide)
  obtain rfl := hq.ceilDiv_eq (by decide)
  exact ⟨deliverSize_of_lt, deliverSize_of_ge, fun h => ⟨deliverSize_of_lt h, deliverSize_of_lt h⟩,
    fun h => ⟨deliverSize_of_ge h, deliverSize_of_ge h⟩⟩

/-- Settles O39: each begin command sets its context, BRBEGIN clears EMPTY too, and then it only responds. -/
theorem beginResults : Obligations.BeginResults := by
  refine fun ra rb s => ⟨?_, ?_, ?_, ?_, ?_⟩ <;>
    exact ⟨_, rfl, completed_complete rfl rfl rfl rfl, sameMemory_of_mem_eq rfl, rfl, ⟨rfl, rfl, rfl, rfl, rfl⟩⟩

/-- ADRD8 on an active context, when the packer answers. -/
theorem exec_adrd8_of_read {rd ra : Reg} {s : State} {r : Memory × AdrContext × Word} (hactive : s.adr.active = true)
    (hr : packerRead s.mem s.adr (s.reg ra).toNat = .next r) :
    exec (.adrd8 rd ra) s = .next ({ s with mem := r.1, adr := r.2.1 }.deliver rd r.2.2) :=
  (guarded_of_active hactive _).trans (by rw [State.address, hr, andThen_next])

/-- ADFLUSH on an active context, when the packer answers. -/
theorem exec_adflush_of_flush {rd : Reg} {s : State} {r : Memory × AdrContext} (hactive : s.adr.active = true)
    (hr : packerFlush s.mem s.adr = .next r) :
    exec (.adflush rd) s =
      .next ({ s with mem := r.1, adr := { r.2 with active := false } }.deliver rd r.2.auxWords) :=
  (guarded_of_active hactive _).trans (by rw [hr, andThen_next])

/-- Settles O41: a word that is not ambiguous leaves the packer alone; for an ambiguous one the two branches of the append
are those of the statement, with bit 63 and ACC as integers. -/
theorem adrd8Result : Obligations.Adrd8Result := by
  refine ⟨fun _ _ _ hidle => guarded_of_idle hidle _, ?_⟩
  intro rd ra s w hm ⟨hcnt, hacc, _⟩ hactive ha hw
  have hword : (BitVec.ofNat 64 w).toNat = w := by
    rw [BitVec.toNat_ofNat, Nat.mod_eq_of_lt (hw ▸ readBytes_lt s.mem _ 8)]
  have hambiguous : ambiguous (BitVec.ofNat 64 w) = true ↔ ambiguousNat w := by rw [ambiguous_iff, hword]
  have hbit : (s.adr.accWith (BitVec.ofNat 64 w).msb).toNat =
      s.adr.acc.toNat + w / 2 ^ 63 * 2 ^ s.adr.cnt.toNat := by
    rw [packerAccWith_toNat hacc hcnt, msb_toNat, hword]
  have hpacked (h : ambiguousNat w) : packedWord (BitVec.ofNat 64 w) = BitVec.ofNat 64 (w % 2 ^ 63) := by
    rw [packedWord_of_ambiguous (hambiguous.mpr h), hword]
  subst hw
  refine ⟨fun h => ?plain, fun h hlt => ?buffered, fun h hfull haux => ?written⟩
  case plain =>
    have hread := packerRead_of_plain (c := s.adr) ha (Bool.eq_false_iff.mpr (mt hambiguous.mp h))
    exact ⟨_, exec_adrd8_of_read hactive hread, registerOnly_deliver s rd _⟩
  case buffered =>
    have hread := packerRead_of_ambiguous ha (hambiguous.mpr h) (packerAppend_of_lt s.mem _ hlt)
    rw [hpacked h] at hread
    exact ⟨_, exec_adrd8_of_read hactive hread, delivered_withPacker .., rfl, sameMemory_of_mem_eq rfl,
      ⟨rfl, rfl, rfl, rfl, rfl⟩, hactive, rfl, rfl, hbit, cnt_ofNat_toNat (by omega)⟩
  case written =>
    have hread := packerRead_of_ambiguous ha (hambiguous.mpr h) (packerAppend_of_full _ hfull haux)
    rw [hpacked h, hbit, hfull] at hread
    exact ⟨_, exec_adrd8_of_read hactive hread, delivered_withPacker .., rfl, stored_of_writeBytes hm haux rfl,
      ⟨rfl, rfl, rfl, rfl, rfl⟩, hactive, rfl, auxWords_next haux, rfl, rfl⟩

/-- Settles O42: what ADRD8 delivers is a packed word. -/
theorem packedWordsAreCanonical : Obligations.PackedWordsAreCanonical := by
  intro rd ra s t h
  obtain ⟨-, -, h⟩ := andThen_eq_next.mp h
  obtain ⟨r, hr, h⟩ := andThen_eq_next.mp h
  cases h
  rw [State.reg_deliver, packerRead_word hr]
  exact packedWord_lt _

/-- Settles O43: the tail of up to 7 bytes is read as a load of R130 reads. -/
theorem adrdfResult : Obligations.AdrdfResult := by
  intro rd ra rb s
  refine ⟨fun hidle => guarded_of_idle hidle _, fun hactive hlong => ?_, fun hactive hle ha => ?_⟩
  · refine (guarded_of_active hactive _).trans ?_
    rw [State.count, decide_eq_true hlong, refuseIf_true, andThen_refused]
  · refine ⟨_, _, (guarded_of_active hactive _).trans ?_, registerOnly_deliver s rd _, fun i _ =>
      toWord_readBytes_byte s.mem _ (Nat.le_succ_of_le hle) i⟩
    rw [State.count, State.address, decide_eq_false (Nat.not_lt.mpr hle), refuseIf_false, andThen_next,
      packerTail_eq_next.mpr ⟨ha, rfl⟩, andThen_next]
    rfl

/-- Settles O44: the two branches of the flush. -/
theorem adflushResult : Obligations.AdflushResult := by
  refine ⟨fun _ _ hidle => guarded_of_idle hidle _, fun rd s hm hactive => ⟨fun hc => ?_, fun hc haux => ?_⟩⟩
  · exact ⟨_, exec_adflush_of_flush hactive (packerFlush_of_empty s.mem hc), delivered_withPacker .., rfl,
      sameMemory_of_mem_eq rfl, ⟨rfl, rfl, rfl, rfl, rfl⟩⟩
  · have hwords := auxWords_next haux
    have hdelivered : BitVec.ofNat 64 (s.adr.auxWords.toNat + 1) = s.adr.auxWords + 1 := by
      rw [← hwords, BitVec.ofNat_toNat, BitVec.setWidth_eq]
    rw [hdelivered]
    exact ⟨_, exec_adflush_of_flush hactive (packerFlush_of_pending hc haux), delivered_withPacker .., rfl,
      stored_of_writeBytes hm haux rfl, ⟨rfl, rfl, rfl, rfl, rfl⟩, rfl, rfl, hwords, rfl, rfl⟩

end Sys2Proof.Machine
end

section
/-! The 61-bit streams (spec/20_memory.md R52, spec/43_codec61_word.md R170, spec/44_codec61_byte.md R191), over the
operations the word codec and the byte codec share: the bits a window delivers, the two branches of an append and the
flush, and what a writer's buffer holds as one number. -/

namespace Sys2Proof.Machine

/-! ### Reads joined, split, and bit by bit -/

/-- The bytes of two reads that follow each other are those of one. -/
theorem readBytes_add (m : Memory) (a n k : Nat) :
    m.readBytes a (n + k) = m.readBytes a n + m.readBytes (a + n) k * 2 ^ (8 * n) := by
  induction n generalizing a with
  | zero => simp [Memory.readBytes]
  | succ n ih =>
    rw [Nat.add_right_comm, Memory.readBytes, Memory.readBytes, ih, Nat.add_assoc a 1 n, Nat.add_comm 1 n,
      Nat.mul_add 8, Nat.pow_add]
    ring

/-- What is written right after n bytes stands above them in a read of both. -/
theorem readBytes_writeBytes_after {m : Memory} (hm : m.wf = true) {a n k : Nat} (v : Nat)
    (ha : a + n + k ≤ Config.addressSpace) :
    (m.writeBytes (a + n) k v).readBytes a (n + k) = m.readBytes a n + v % 2 ^ (8 * k) * 2 ^ (8 * n) := by
  have hbefore : (m.writeBytes (a + n) k v).readBytes a n = m.readBytes a n :=
    readBytes_congr fun i hi => byte_writeBytes_outside m v (.inl (by omega))
  have hafter := readBytes_writeBytes hm (a := a + n) (i := 0) v (Nat.zero_add k).le ha
  rw [Nat.add_zero, Nat.mul_zero, Nat.pow_zero, Nat.div_one] at hafter
  rw [readBytes_add, hbefore, hafter]

/-- Bit j of what is read is bit j of the stream that begins at the first byte (R50, R52). -/
theorem readBytes_testBit (m : Memory) (a n j : Nat) :
    (m.readBytes a n).testBit j = (decide (j < 8 * n) && streamBit m a j) := by
  by_cases hj : j < 8 * n
  · have hbyte := readBytes_div_mod m (a := a) (Nat.div_lt_of_lt_mul hj)
    have hbit : (m.readBytes a n / 2 ^ (8 * (j / 8)) % 2 ^ 8).testBit (j % 8) = (m.readBytes a n).testBit j := by
      rw [Nat.testBit_mod_two_pow, Nat.testBit_div_two_pow, Nat.mod_add_div, decide_eq_true (Nat.mod_lt j (by decide)),
        Bool.true_and]
    rw [decide_eq_true hj, Bool.true_and, ← hbit, hbyte, BitVec.testBit_toNat, streamBit]
  · rw [decide_eq_false hj, Bool.false_and]
    exact Nat.testBit_lt_two_pow
      ((readBytes_lt m a n).trans_le (Nat.pow_le_pow_right (by decide) (Nat.not_lt.mp hj)))

/-- Two ranges of usable bytes that follow each other are one. -/
theorem accessible_add {m : Memory} {a n k : Nat} (h : m.accessible a n = true) (h' : m.accessible (a + n) k = true) :
    m.accessible a (n + k) = true := by
  obtain ⟨-, hlow⟩ := accessible_iff.mp h
  obtain ⟨hspace, hhigh⟩ := accessible_iff.mp h'
  refine accessible_iff.mpr ⟨by omega, backedRange_eq_true.mpr fun i hi => ?_⟩
  by_cases hin : i < n
  · exact backedRange_eq_true.mp hlow i hin
  · have hb := backedRange_eq_true.mp hhigh (i - n) (by omega)
    rwa [Nat.add_assoc, Nat.add_sub_cancel' (Nat.not_lt.mp hin)] at hb

/-- Bytes among usable ones are usable. -/
theorem accessible_within {m : Memory} {a n i k : Nat} (h : m.accessible a n = true) (hk : i + k ≤ n) :
    m.accessible (a + i) k = true := by
  obtain ⟨hspace, hbacked⟩ := accessible_iff.mp h
  refine accessible_iff.mpr ⟨by omega, backedRange_eq_true.mpr fun j hj => ?_⟩
  rw [Nat.add_assoc]
  exact backedRange_eq_true.mp hbacked (i + j) (by omega)

/-! ### Windows of a stream (R52, R177, R198) -/

/-- The bits counted from a whole byte of the stream on. -/
theorem streamBit_of_byte (m : Memory) (b pos i : Nat) :
    streamBit m (b + pos / 8) (pos % 8 + i) = streamBit m b (pos + i) := by
  rw [streamBit, streamBit, Nat.add_assoc, show pos / 8 + (pos % 8 + i) / 8 = (pos + i) / 8 by omega,
    show (pos % 8 + i) % 8 = (pos + i) % 8 by omega]

/-- A window that answers delivers the bits of the stream: the bytes it reads hold all of them that the buffer has. -/
theorem isStreamBits_of_streamBits {m : Memory} {b l pos n v : Nat} (h : streamBits m b l pos n = .next v) :
    IsStreamBits m b l pos n v := by
  obtain ⟨-, rfl⟩ := streamBits_eq_next.mp h
  intro i
  rw [Nat.testBit_mod_two_pow, Nat.testBit_div_two_pow, readBytes_testBit, Nat.add_comm i, streamBit_of_byte,
    ← Bool.and_assoc]
  congr 1
  rw [← Bool.decide_and, ← Bool.decide_and, decide_eq_decide, ceilDiv]
  omega

/-- The bits of a window are those of the number the whole buffer holds. -/
theorem IsStreamBits.eq_of_readBytes {m : Memory} {b l pos n v : Nat} (h : IsStreamBits m b l pos n v) :
    v = m.readBytes b l / 2 ^ pos % 2 ^ n := by
  refine Nat.eq_of_testBit_eq fun i => ?_
  rw [h i, Nat.testBit_mod_two_pow, Nat.testBit_div_two_pow, readBytes_testBit, Nat.add_comm i, Bool.and_assoc]

/-- A chunk that does not reach past the buffer lies in the bytes from its first bit's to its last bit's. -/
theorem chunkBytes_of_le {l pos : Nat} (h : pos + 61 ≤ 8 * l) :
    min l (ceilDiv (pos + 61) 8) - pos / 8 = (pos + 60) / 8 + 1 - pos / 8 := by
  rw [ceilDiv]
  omega

/-- In a buffer of usable bytes every window that lies in it answers. -/
theorem streamBits_of_accessible {m : Memory} {b l pos n : Nat} (ha : m.accessible b l = true)
    (h : pos + n ≤ 8 * l) : streamBits m b l pos n = .next (m.readBytes b l / 2 ^ pos % 2 ^ n) := by
  have hwindow : m.accessible (b + pos / 8) (min l (ceilDiv (pos + n) 8) - pos / 8) = true :=
    accessible_within ha (by omega)
  have hanswer := streamBits_eq_next.mpr ⟨hwindow, rfl⟩
  rw [hanswer, (isStreamBits_of_streamBits hanswer).eq_of_readBytes]

/-! ### The append, branch by branch (R173, R194) -/

/-- The word that is written or stays buffered: the low 64 bits of the temporary A. -/
theorem writerAccWith_low {c : WriterContext} {v : Word} (hc : c.acc.toNat < 2 ^ c.cnt.toNat) (hv : v.toNat < 2 ^ 61) :
    ((c.accWith v).setWidth 64).toNat = (c.acc.toNat + v.toNat * 2 ^ c.cnt.toNat) % 2 ^ 64 := by
  rw [BitVec.toNat_setWidth, writerAccWith_toNat hc hv]

/-- What stays buffered after a word is written: the bits of the temporary A above the low 64. -/
theorem writerAccWith_high {c : WriterContext} {v : Word} (hc : c.acc.toNat < 2 ^ c.cnt.toNat) (hv : v.toNat < 2 ^ 61) :
    ((c.accWith v >>> 64).setWidth 64).toNat = (c.acc.toNat + v.toNat * 2 ^ c.cnt.toNat) / 2 ^ 64 := by
  have hlt := (c.accWith v).isLt
  rw [← writerAccWith_toNat hc hv, BitVec.toNat_setWidth, BitVec.toNat_ushiftRight, Nat.shiftRight_eq_div_pow]
  omega

/-- Below 64 bits the temporary A is no wider than the word that buffers it. -/
theorem writerAccWith_low_of_lt {c : WriterContext} {v : Word} {width : Nat} (hc : c.acc.toNat < 2 ^ c.cnt.toNat)
    (hv : v.toNat < 2 ^ width) (hw : width ≤ 61) (hlt : c.cnt.toNat + width < 64) :
    ((c.accWith v).setWidth 64).toNat = c.acc.toNat + v.toNat * 2 ^ c.cnt.toNat := by
  rw [writerAccWith_low hc (hv.trans_le (Nat.pow_le_pow_right (by decide) hw)), Nat.mod_eq_of_lt]
  exact (add_mul_two_pow_lt hc hv).trans_le (Nat.pow_le_pow_right (by decide) hlt.le)

theorem writerAppend_of_lt {c : WriterContext} {width : Nat} (m : Memory) (v : Word)
    (hlt : c.cnt.toNat + width < 64) :
    writerAppend m c v width = .next (m,
      { c with acc := (c.accWith v).setWidth 64, cnt := BitVec.ofNat 6 (c.cnt.toNat + width) }) :=
  if_neg (Nat.not_le.mpr hlt)

theorem writerAppend_of_full {m : Memory} {c : WriterContext} {width : Nat} (v : Word)
    (hfull : 64 ≤ c.cnt.toNat + width) (ha : m.accessible c.address 8 = true) :
    writerAppend m c v width = .next (m.writeBytes c.address 8 ((c.accWith v).setWidth 64).toNat,
      { c with ptr := c.ptr + 8, past := decide (Config.addressSpace ≤ c.address + 8),
               acc := (c.accWith v >>> 64).setWidth 64, cnt := BitVec.ofNat 6 (c.cnt.toNat + width - 64) }) := by
  rw [writerAppend, if_pos hfull, store_eq_next.mpr ⟨ha, rfl⟩, andThen_next]

/-- No byte lies at the next address of a stream that has reached 2^64 (R58, log entry 8). -/
theorem checkAccess_of_past {c : WriterContext} {n : Nat} (m : Memory) (hpast : c.past = true) (hn : 0 < n) :
    m.checkAccess c.address n = .fault .addressWrap :=
  checkAccess_of_wrap ((writerAddress_of_past hpast).trans_lt (Nat.lt_add_of_pos_right hn))

theorem writerAppend_of_past {c : WriterContext} {width : Nat} (m : Memory) (v : Word)
    (hfull : 64 ≤ c.cnt.toNat + width) (hpast : c.past = true) :
    writerAppend m c v width = .fault .addressWrap := by
  rw [writerAppend, if_pos hfull, store_of_checkAccess_fault _ (checkAccess_of_past m hpast (by decide)), andThen_fault]

/-! ### The checks of a write (R173, R194) -/

theorem writerCheck_of_idle {c : WriterContext} (v : Word) (hidle : c.active = false) :
    writerCheck c v = .refused .contextIdle := guarded_of_idle hidle _

theorem writerCheck_of_wide {c : WriterContext} {v : Word} (hactive : c.active = true) (hv : 2 ^ 61 ≤ v.toNat) :
    writerCheck c v = .refused .wordTooWide :=
  (guarded_of_active hactive _).trans (by rw [decide_eq_true hv, refuseIf_true])

/-! ### The flush (R174, R195) -/

/-- A stream within the address space writes its trailing bytes at PTR. -/
theorem writerFlush_of_accessible {m : Memory} {c : WriterContext}
    (h : c.trailing = 0 ∨ c.past = false ∧ m.accessible c.ptr.toNat c.trailing = true) :
    writerFlush m c = .next (m.writeBytes c.address c.trailing c.acc.toNat) := by
  refine writerFlush_eq_next.mpr ⟨h.imp_right fun ⟨hpast, ha⟩ => ?_, rfl⟩
  rwa [writerAddress_of_not_past hpast]

theorem writerFlush_of_past {c : WriterContext} (m : Memory) (htrailing : c.trailing ≠ 0) (hpast : c.past = true) :
    writerFlush m c = .fault .addressWrap := by
  rw [writerFlush, if_neg htrailing,
    store_of_checkAccess_fault _ (checkAccess_of_past m hpast (Nat.pos_of_ne_zero htrailing))]

/-- A flush that answers is a store of the trailing bytes at PTR, also where there are none. -/
theorem stored_of_writerFlush {s t : State} {c : WriterContext} (hm : s.mem.wf = true)
    (h : writerFlush s.mem c = .next t.mem) : Stored s t c.ptr.toNat c.trailing c.acc.toNat := by
  obtain ⟨hbytes, ht⟩ := writerFlush_eq_next.mp h
  by_cases hnone : c.trailing = 0
  · rw [hnone] at ht ⊢
    exact ⟨fun i hi => absurd hi (Nat.not_lt_zero i), fun x _ => by rw [ht, Memory.writeBytes],
      by rw [ht, writeBytes_map]⟩
  · have ha := hbytes.resolve_left hnone
    have hpast : c.past = false := Bool.eq_false_iff.mpr fun hp => by
      have hwrap := (checkAccess_eq_next (u := ())).mpr ha
      rw [checkAccess_of_past s.mem hp (Nat.pos_of_ne_zero hnone)] at hwrap
      cases hwrap
    rw [writerAddress_of_not_past hpast] at ha ht
    exact stored_of_writeBytes hm ha ht

/-- The total of a stream that does not fill the address space (log entry 8). -/
theorem writerTotal_of_not_full {c : WriterContext} (h : ¬(c.base = 0 ∧ c.address + c.trailing = 2 ^ 64))
    (index : Nat) :
    c.total index = c.ptr - c.base + BitVec.ofNat 64 c.trailing := if_neg h

/-! ### What a writer's buffer holds -/

/-- Bytes a writer has written to its buffer. -/
def WriterContext.stored (c : WriterContext) : Nat := c.address - c.base.toNat

/-- A stream is the bytes already written and the trailing ones. -/
theorem streamLength_eq (c : WriterContext) : streamLength c = c.stored + c.trailing := rfl

/-- A stored word is 8 more bytes of the stream. -/
theorem writerStored_next {c : WriterContext} (hbase : c.base.toNat ≤ c.address)
    (h : c.address + 8 ≤ Config.addressSpace) (acc : Word) (cnt : BitVec 6) :
    ({ c with ptr := c.ptr + 8, past := decide (Config.addressSpace ≤ c.address + 8), acc := acc, cnt := cnt } :
      WriterContext).stored = c.stored + 8 :=
  (congrArg (· - c.base.toNat) (writerAddress_next h acc cnt)).trans (Nat.sub_add_comm hbase)

/-- The writer set up on `base` holds a stream of `bits` bits, the number W: its whole words in memory, the rest in ACC
(R28, R30, R170). -/
structure WriterHolds (m : Memory) (base : Word) (c : WriterContext) (bits W : Nat) : Prop where
  memory : m.wf = true
  legal : writerLegal c
  start : c.base = base
  length : 8 * c.stored + c.cnt.toNat = bits
  usable : m.accessible base.toNat c.stored = true
  value : m.readBytes base.toNat c.stored + c.acc.toNat * 2 ^ (8 * c.stored) = W

theorem WriterHolds.address_eq {m : Memory} {base : Word} {c : WriterContext} {bits W : Nat}
    (h : WriterHolds m base c bits W) : c.address = base.toNat + c.stored := by
  obtain ⟨hbase, -⟩ := h.legal
  rw [← h.start, WriterContext.stored, Nat.add_sub_cancel' hbase]

/-- A fresh writer holds nothing (R172, R193). -/
theorem writerHolds_begin {m : Memory} (hm : m.wf = true) (base : Word) : WriterHolds m base (writerBegin base) 0 0 := by
  have hstored : (writerBegin base).stored = 0 := Nat.sub_self base.toNat
  exact {
    memory := hm
    legal := WriterStep.keeps_legal (m := m) reset_inv.ww (.begin base)
    start := rfl
    length := by rw [hstored]; rfl
    usable := by rw [hstored]; exact accessible_iff.mpr ⟨base.isLt.le, rfl⟩
    value := by rw [hstored]; rfl }

/-- A number with its low 64 bits cut off and put back. -/
theorem low_add_high (A k : Nat) : A % 2 ^ 64 * 2 ^ k + A / 2 ^ 64 * 2 ^ (k + 64) = A * 2 ^ k := by
  rw [Nat.pow_add, Nat.mul_comm (2 ^ k), ← Nat.mul_assoc, ← Nat.add_mul, Nat.mul_comm (A / 2 ^ 64), Nat.mod_add_div]

/-- An append that answers puts its value above the bits the stream held (R173, R194). -/
theorem WriterHolds.append {m : Memory} {base : Word} {c : WriterContext} {bits W width : Nat} {v : Word}
    {r : Memory × WriterContext} (h : WriterHolds m base c bits W) (hv : v.toNat < 2 ^ width) (hw : width ≤ 61)
    (hr : writerAppend m c v width = .next r) :
    WriterHolds r.1 base r.2 (bits + width) (W + v.toNat * 2 ^ bits) := by
  have hlegal : writerLegal r.2 := writerAppend_keeps_legal h.legal hv hw hr
  have haddr := h.address_eq
  obtain ⟨hm, ⟨hbase, -, -, hacc⟩, rfl, rfl, husable, rfl⟩ := h
  have hv61 : v.toNat < 2 ^ 61 := hv.trans_le (Nat.pow_le_pow_right (by decide) hw)
  have hput : v.toNat * 2 ^ (8 * c.stored + c.cnt.toNat) = v.toNat * 2 ^ c.cnt.toNat * 2 ^ (8 * c.stored) := by
    rw [Nat.pow_add, Nat.mul_comm (2 ^ _), Nat.mul_assoc]
  rw [hput, Nat.add_assoc (m.readBytes _ _), ← Nat.add_mul]
  obtain ⟨hlt, rfl⟩ | ⟨hfull, ha, rfl⟩ := writerAppend_cases hr
  case inl =>
    refine ⟨hm, hlegal, rfl, ?_, husable, ?_⟩
    · show 8 * c.stored + (BitVec.ofNat 6 (c.cnt.toNat + width)).toNat = _
      rw [cnt_ofNat_toNat hlt, Nat.add_assoc]
    · show m.readBytes c.base.toNat c.stored + ((c.accWith v).setWidth 64).toNat * 2 ^ (8 * c.stored) = _
      rw [writerAccWith_low_of_lt hacc hv hw hlt]
  case inr =>
    obtain ⟨hspace, -⟩ := accessible_iff.mp ha
    have hstored := writerStored_next hbase hspace ((c.accWith v >>> 64).setWidth 64)
      (BitVec.ofNat 6 (c.cnt.toNat + width - 64))
    have hcnt : c.cnt.toNat + width - 64 < 64 := by have := c.cnt.isLt; omega
    refine ⟨writeBytes_keeps_wf hm hspace _, hlegal, rfl, ?_, ?_, ?_⟩
    · rw [hstored, cnt_ofNat_toNat hcnt]
      omega
    · rw [hstored, accessible_congr_map (writeBytes_map ..)]
      exact accessible_add husable (haddr ▸ ha)
    · rw [hstored, writerAccWith_high hacc hv61, writerAccWith_low hacc hv61, haddr,
        readBytes_writeBytes_after hm _ (haddr ▸ hspace), Nat.mod_mod, Nat.add_assoc, Nat.mul_add, low_add_high]

/-- The trailing bytes hold all the buffered bits. -/
theorem cnt_le_trailing (c : WriterContext) : c.cnt.toNat ≤ 8 * c.trailing := by
  rw [WriterContext.trailing, ceilDiv]
  omega

/-- A flush that answers leaves the whole stream in memory, in usable bytes (R174, R195). -/
theorem WriterHolds.flush {m m' : Memory} {base : Word} {c : WriterContext} {bits W : Nat}
    (h : WriterHolds m base c bits W) (hf : writerFlush m c = .next m') :
    m'.accessible base.toNat (streamLength c) = true ∧ m'.readBytes base.toNat (streamLength c) = W := by
  obtain ⟨hbytes, rfl⟩ := writerFlush_eq_next.mp hf
  have haddr := h.address_eq
  obtain ⟨hm, ⟨-, -, hend, hacc⟩, rfl, -, husable, rfl⟩ := h
  have htrailing : m.accessible (c.base.toNat + c.stored) c.trailing = true := by
    rw [← haddr]
    refine hbytes.elim (fun hnone => ?_) id
    rw [hnone]
    exact accessible_iff.mpr ⟨hend, rfl⟩
  have hfits : c.acc.toNat < 2 ^ (8 * c.trailing) :=
    hacc.trans_le (Nat.pow_le_pow_right (by decide) (cnt_le_trailing c))
  rw [streamLength_eq, haddr]
  refine ⟨?_, ?_⟩
  · rw [accessible_congr_map (writeBytes_map ..)]
    exact accessible_add husable htrailing
  · obtain ⟨hspace, -⟩ := accessible_iff.mp htrailing
    rw [readBytes_writeBytes_after hm _ hspace, Nat.mod_eq_of_lt hfits]

/-- The stream's length is its bits in whole bytes. -/
theorem WriterHolds.isCeil_streamLength {m : Memory} {base : Word} {c : WriterContext} {bits W : Nat}
    (h : WriterHolds m base c bits W) : IsCeil bits 8 (streamLength c) := by
  intro k
  rw [← h.length, streamLength_eq, WriterContext.trailing, ceilDiv]
  omega

end Sys2Proof.Machine
end

section
/-! The word codec (spec/43_codec61_word.md R170 to R178): WWWRITE, WWFLUSH and WRREAD over the streams, and the round
trip, in which the k words written are the k digits of one number in base 2^61. -/

namespace Sys2Proof.Machine

/-! ### The commands -/

/-- WWWRITE stops as its checks stop. -/
theorem exec_wwwrite_of_refused {ra : Reg} {s : State} {e : Refusal} (h : writerCheck s.ww (s.reg ra) = .refused e) :
    exec (.wwwrite ra) s = .refused e := by
  rw [exec, execWwwrite, h, andThen_refused]

/-- WWWRITE of a value that passes the checks does the append. -/
theorem exec_wwwrite_of_checked {ra : Reg} {s : State} (hactive : s.ww.active = true)
    (hv : (s.reg ra).toNat < 2 ^ 61) :
    exec (.wwwrite ra) s = andThen (writerAppend s.mem s.ww (s.reg ra) 61) fun r =>
      .next { s with mem := r.1, ww := r.2 }.complete := by
  have hcheck : writerCheck s.ww (s.reg ra) = .next () := writerCheck_eq_next.mpr ⟨hactive, hv⟩
  rw [exec, execWwwrite, hcheck, andThen_next]

/-- WWWRITE of a value that passes the checks, when the append answers. -/
theorem exec_wwwrite_of_append {ra : Reg} {s : State} {r : Memory × WriterContext} (hactive : s.ww.active = true)
    (hv : (s.reg ra).toNat < 2 ^ 61) (hr : writerAppend s.mem s.ww (s.reg ra) 61 = .next r) :
    exec (.wwwrite ra) s = .next { s with mem := r.1, ww := r.2 }.complete := by
  rw [exec_wwwrite_of_checked hactive hv, hr, andThen_next]

/-- Completing over another memory and another WW changes nothing beyond them. -/
theorem completed_withWordWriter (s : State) (m : Memory) (c : WriterContext) :
    Completed s { s with mem := m, ww := c }.complete := completed_complete rfl rfl rfl rfl

/-- Settles O45: the two checks, then the branches of the append, with A as an integer. -/
theorem wwwriteResult : Obligations.WwwriteResult := by
  refine ⟨fun _ _ => ⟨fun hidle => exec_wwwrite_of_refused (writerCheck_of_idle _ hidle),
    fun hactive hwide => exec_wwwrite_of_refused (writerCheck_of_wide hactive hwide)⟩, ?_⟩
  rintro ra s A hm ⟨-, -, -, hacc⟩ hactive hv rfl
  have hcnt := s.ww.cnt.isLt
  refine ⟨fun hlt => ?buffered, fun hfull hpast ha => ?written, fun hfull hpast => ?wrapped⟩
  case buffered =>
    exact ⟨_, exec_wwwrite_of_append hactive hv (writerAppend_of_lt s.mem _ hlt), completed_withWordWriter s _ _, rfl,
      sameMemory_of_mem_eq rfl, ⟨rfl, rfl, rfl, rfl, rfl⟩, hactive, rfl, rfl, rfl,
      writerAccWith_low_of_lt hacc hv le_rfl hlt, cnt_ofNat_toNat hlt⟩
  case written =>
    rw [← writerAddress_of_not_past hpast] at ha
    obtain ⟨hspace, -⟩ := accessible_iff.mp ha
    have hend : decide (Config.addressSpace ≤ s.ww.address + 8) = true ↔ s.ww.address + 8 = 2 ^ 64 := by
      rw [decide_eq_true_iff]
      exact ⟨hspace.antisymm, Eq.ge⟩
    rw [← writerAccWith_low hacc hv, ← writerAddress_of_not_past hpast]
    exact ⟨_, exec_wwwrite_of_append hactive hv (writerAppend_of_full _ hfull ha), completed_withWordWriter s _ _,
      rfl, stored_of_writeBytes hm ha rfl, ⟨rfl, rfl, rfl, rfl, rfl⟩, hactive, rfl, rfl, hend,
      writerAccWith_high hacc hv, cnt_ofNat_toNat (by omega)⟩
  case wrapped =>
    rw [exec_wwwrite_of_checked hactive hv, writerAppend_of_past s.mem _ hfull hpast, andThen_fault]

/-- WWFLUSH on an active context, when the flush answers. -/
theorem exec_wwflush_of_flush {rd : Reg} {s : State} {m : Memory} (hactive : s.ww.active = true)
    (hf : writerFlush s.mem s.ww = .next m) :
    exec (.wwflush rd) s =
      .next ({ s with mem := m, ww := { s.ww with active := false } }.deliver rd (s.ww.total s.index)) :=
  (guarded_of_active hactive _).trans (by rw [hf, andThen_next])

/-- Settles O47: nb is the number of trailing bytes, and a flush that answers is a store of them. -/
theorem wwflushResult : Obligations.WwflushResult := by
  refine ⟨fun _ _ hidle => guarded_of_idle hidle _, fun rd s nb hm hactive hnb => ?_⟩
  obtain rfl : s.ww.trailing = nb := hnb.ceilDiv_eq (by decide)
  refine ⟨fun h => ?_, fun hsome hpast => ?_⟩
  · have hf := writerFlush_of_accessible h
    exact ⟨_, _, exec_wwflush_of_flush hactive hf, delivered_deliver rd _ rfl rfl rfl rfl,
      fun hfree => writerTotal_of_not_full hfree _, rfl, stored_of_writerFlush hm hf, ⟨rfl, rfl, rfl, rfl, rfl⟩⟩
  · exact (guarded_of_active hactive _).trans (by rw [writerFlush_of_past s.mem hsome hpast, andThen_fault])

theorem toNat_toWord {n : Nat} (h : n < 2 ^ 64) : (toWord n).toNat = n := by
  rw [toWord, BitVec.toNat_ofNat, Nat.mod_eq_of_lt h]

/-- WRREAD with 61 more bits, when the window answers. -/
theorem exec_wrread_of_chunk {rd : Reg} {s : State} {v : Nat} (hactive : s.wr.active = true)
    (hleft : s.wr.position + 61 ≤ 8 * s.wr.len.toNat) (hv : readerChunk s.mem s.wr = .next v) :
    exec (.wrread rd) s = .next ({ s with wr := s.wr.advance 61 }.deliver rd (toWord v)) := by
  refine (guarded_of_active hactive _).trans ?_
  rw [decide_eq_false (Nat.not_lt.mpr hleft), refuseIf_false, andThen_next, hv, andThen_next]

/-- A reader with 61 more bits moves on within its buffer, so the bit `past` stays clear (log entry 9). -/
theorem readerAdvance_within {c : ReaderContext} (hleft : c.position + 61 ≤ 8 * c.len.toNat) :
    c.advance 61 = { c with pos := c.pos + 61, past := false } := by
  have hlen := c.len.isLt
  have hpast : decide (Config.streamPositions ≤ c.position + 61) = false := decide_eq_false (by
    rw [Config.streamPositions]
    omega)
  rw [ReaderContext.advance, hpast]
  rfl

/-- Settles O49: with 61 more bits the window's bytes are those of the statement, and its bits are the stream's. -/
theorem wrreadResult : Obligations.WrreadResult := by
  refine fun rd s => ⟨fun hidle => guarded_of_idle hidle _, fun hactive hshort => ?_, fun hactive hleft ha => ?_⟩
  · refine (guarded_of_active hactive _).trans ?_
    rw [decide_eq_true hshort, refuseIf_true, andThen_refused]
  · rw [← chunkBytes_of_le hleft] at ha
    have hchunk : readerChunk s.mem s.wr = .next _ := streamBits_eq_next.mpr ⟨ha, rfl⟩
    have hbits := isStreamBits_of_streamBits hchunk
    rw [← toNat_toWord ((readerChunk_lt hchunk).trans (by decide))] at hbits
    rw [← readerAdvance_within hleft]
    exact ⟨_, _, exec_wrread_of_chunk hactive hleft hchunk, delivered_deliver rd _ rfl rfl rfl rfl, hbits, rfl,
      sameMemory_of_mem_eq rfl, ⟨rfl, rfl, rfl, rfl, rfl⟩⟩

/-! ### The round trip (R178) -/

/-- The stream of words of 61 bits as one number: word i is digit i in base 2^61 (R170). -/
def wordStream (vs : List Word) : Nat := Nat.ofDigits (2 ^ 61) (vs.map BitVec.toNat)

theorem wordStream_cons (v : Word) (vs : List Word) : wordStream (v :: vs) = v.toNat + 2 ^ 61 * wordStream vs := rfl

/-- Bits 61·i to 61·i + 60 of the stream are word i. -/
theorem wordStream_word {vs : List Word} (hvs : ∀ v, v ∈ vs → v.toNat < 2 ^ 61) {i : Nat} (hi : i < vs.length) :
    wordStream vs / 2 ^ (61 * i) % 2 ^ 61 = vs[i].toNat := by
  have hdigits : ∀ d ∈ vs.map BitVec.toNat, d < 2 ^ 61 := by simpa using hvs
  have hword : vs[i].toNat < 2 ^ 61 := hvs _ (List.getElem_mem hi)
  rw [wordStream, Nat.pow_mul, Nat.ofDigits_div_pow_eq_ofDigits_drop i (by decide) _ hdigits, ← List.map_drop,
    List.drop_eq_getElem_cons hi, List.map_cons, Nat.ofDigits_cons, Nat.add_mul_mod_self_left, Nat.mod_eq_of_lt hword]

/-- Writing words one after another puts their stream above the bits the writer held. -/
theorem WriterHolds.writeWords {m : Memory} {base : Word} {c : WriterContext} {bits W : Nat} {vs : List Word}
    {r : Memory × WriterContext} (h : WriterHolds m base c bits W) (hvs : ∀ v, v ∈ vs → v.toNat < 2 ^ 61)
    (hr : writeWords m c vs = .next r) :
    WriterHolds r.1 base r.2 (bits + 61 * vs.length) (W + wordStream vs * 2 ^ bits) := by
  induction vs generalizing m c bits W with
  | nil =>
    cases hr
    simpa [wordStream] using h
  | cons v vs ih =>
    rw [List.forall_mem_cons] at hvs
    obtain ⟨hv, hvs⟩ := hvs
    obtain ⟨q, hq, hr⟩ := andThen_eq_next.mp hr
    have hall := ih (h.append hv le_rfl hq) hvs hr
    have hbits : bits + 61 + 61 * vs.length = bits + 61 * (v :: vs).length := by
      rw [List.length_cons]
      omega
    have hvalue : W + v.toNat * 2 ^ bits + wordStream vs * 2 ^ (bits + 61) = W + wordStream (v :: vs) * 2 ^ bits := by
      rw [wordStream_cons, Nat.pow_add]
      ring
    rwa [hbits, hvalue] at hall

/-- Settles O55: after the flush the buffer holds the words' stream as one number, whose digits the windows are. -/
theorem wordCodecRoundTrip : Obligations.WordCodecRoundTrip := by
  intro m m1 m2 base vs c hm hvs hwrite hflush
  have hholds : WriterHolds m1 base c (61 * vs.length) (wordStream vs) := by
    simpa using (writerHolds_begin hm base).writeWords hvs hwrite
  obtain ⟨husable, hvalue⟩ := hholds.flush hflush
  have hceil := hholds.isCeil_streamLength
  refine ⟨hceil, writerTotal_toNat hholds.legal, fun i hi => ?_⟩
  have hwhole : 61 * vs.length ≤ streamLength c * 8 := (hceil _).mp le_rfl
  rw [streamBits_of_accessible husable (by omega), hvalue, wordStream_word hvs hi]

end Sys2Proof.Machine
end

section
/-! The byte codec (spec/44_codec61_byte.md R190 to R199): BWWRITE, BWFLUSH and BRREAD over the streams, and the round
trip. The words a reader delivers are the digits, of 60 or 61 bits each, of the number its bytes hold; the writer puts
each back with the width it was read with. -/

namespace Sys2Proof.Machine

/-! ### The escape (R191) -/

/-- The escape code M60 of R191 as an integer. -/
theorem m60_toNat : Config.m60.toNat = 2 ^ 60 - 1 := rfl

theorem escapedWidth_eq (v : Word) : escapedWidth v = if v.toNat = 2 ^ 60 - 1 then 60 else 61 := by
  simp only [escapedWidth, ← BitVec.toNat_inj, m60_toNat]

theorem chunkEscaped_iff {c : Nat} : chunkEscaped c = true ↔ c % 2 ^ 60 = 2 ^ 60 - 1 := beq_iff_eq

theorem chunkWidth_eq (c : Nat) : chunkWidth c = if c % 2 ^ 60 = 2 ^ 60 - 1 then 60 else 61 := by
  simp only [chunkWidth, chunkEscaped_iff]

theorem chunkWord_eq (c : Nat) :
    chunkWord c = if c % 2 ^ 60 = 2 ^ 60 - 1 then BitVec.ofNat 64 (2 ^ 60 - 1) else BitVec.ofNat 64 c := by
  simp only [chunkWord, chunkEscaped_iff]
  rfl

theorem le_chunkWidth (c : Nat) : 60 ≤ chunkWidth c := by
  rw [chunkWidth_eq]
  split <;> decide

/-- The word delivered for a chunk is the bits consumed for it (R198). -/
theorem chunkWord_toNat {c : Nat} (hc : c < 2 ^ 61) : (chunkWord c).toNat = c % 2 ^ chunkWidth c := by
  rw [chunkWord_eq, chunkWidth_eq]
  split <;> rename_i hescaped
  · rw [hescaped]
    rfl
  · rw [BitVec.toNat_ofNat, Nat.mod_eq_of_lt hc, Nat.mod_eq_of_lt (hc.trans (by decide))]

/-- The writer gives a delivered word the width it was read with, since no other chunk delivers M60 (R191). -/
theorem escapedWidth_chunkWord {c : Nat} (hc : c < 2 ^ 61) : escapedWidth (chunkWord c) = chunkWidth c := by
  have hword := chunkWord_toNat hc
  rw [chunkWidth_eq] at hword
  rw [escapedWidth_eq, hword, chunkWidth_eq]
  by_cases hescaped : c % 2 ^ 60 = 2 ^ 60 - 1
  · rw [if_pos hescaped, if_pos hescaped]
  · rw [if_neg hescaped, Nat.mod_eq_of_lt hc, if_neg]
    rintro rfl
    exact hescaped rfl

/-! ### The commands -/

/-- BWWRITE stops as its checks stop. -/
theorem exec_bwwrite_of_refused {ra : Reg} {s : State} {e : Refusal} (h : writerCheck s.bw (s.reg ra) = .refused e) :
    exec (.bwwrite ra) s = .refused e := by
  rw [exec, execBwwrite, h, andThen_refused]

/-- BWWRITE of a value that passes the checks appends it with its width. -/
theorem exec_bwwrite_of_checked {ra : Reg} {s : State} (hactive : s.bw.active = true)
    (hv : (s.reg ra).toNat < 2 ^ 61) :
    exec (.bwwrite ra) s = andThen (writerAppend s.mem s.bw (s.reg ra) (escapedWidth (s.reg ra))) fun r =>
      .next { s with mem := r.1, bw := r.2 }.complete := by
  have hcheck : writerCheck s.bw (s.reg ra) = .next () := writerCheck_eq_next.mpr ⟨hactive, hv⟩
  rw [exec, execBwwrite, hcheck, andThen_next]

/-- Completing over another memory and another BW changes nothing beyond them. -/
theorem completed_withByteWriter (s : State) (m : Memory) (c : WriterContext) :
    Completed s { s with mem := m, bw := c }.complete := completed_complete rfl rfl rfl rfl

/-- Settles O46: the two checks, then the branches of the append with the width of the escape. -/
theorem bwwriteResult : Obligations.BwwriteResult := by
  refine ⟨fun _ _ => ⟨fun hidle => exec_bwwrite_of_refused (writerCheck_of_idle _ hidle),
    fun hactive hwide => exec_bwwrite_of_refused (writerCheck_of_wide hactive hwide)⟩, ?_⟩
  rintro ra s A w hm ⟨-, -, -, hacc⟩ hactive hv rfl hw
  obtain rfl : w = escapedWidth (s.reg ra) := hw.trans (escapedWidth_eq _).symm
  have hwidth := escapedWidth_le (s.reg ra)
  have hcnt := s.bw.cnt.isLt
  rw [exec_bwwrite_of_checked hactive hv]
  refine ⟨fun hlt => ?buffered, fun hfull hpast ha => ?written, fun hfull hpast => ?wrapped⟩
  case buffered =>
    rw [writerAppend_of_lt s.mem _ hlt]
    exact ⟨_, rfl, completed_withByteWriter s _ _, rfl, sameMemory_of_mem_eq rfl, ⟨rfl, rfl, rfl, rfl, rfl⟩, hactive,
      rfl, rfl, rfl, writerAccWith_low_of_lt hacc (lt_two_pow_escapedWidth hv) hwidth hlt, cnt_ofNat_toNat hlt⟩
  case written =>
    rw [← writerAddress_of_not_past hpast] at ha ⊢
    obtain ⟨hspace, -⟩ := accessible_iff.mp ha
    have hend : decide (Config.addressSpace ≤ s.bw.address + 8) = true ↔ s.bw.address + 8 = 2 ^ 64 := by
      rw [decide_eq_true_iff]
      exact ⟨hspace.antisymm, Eq.ge⟩
    rw [writerAppend_of_full _ hfull ha, ← writerAccWith_low hacc hv]
    exact ⟨_, rfl, completed_withByteWriter s _ _, rfl, stored_of_writeBytes hm ha rfl, ⟨rfl, rfl, rfl, rfl, rfl⟩,
      hactive, rfl, rfl, hend, writerAccWith_high hacc hv, cnt_ofNat_toNat (by omega)⟩
  case wrapped => rw [writerAppend_of_past s.mem _ hfull hpast, andThen_fault]

/-- BWFLUSH on an active context writes the trailing bytes and delivers the total. -/
theorem exec_bwflush_of_active {rd : Reg} {s : State} (hactive : s.bw.active = true) :
    exec (.bwflush rd) s = andThen (writerFlush s.mem s.bw) fun m =>
      .next ({ s with mem := m, bw := { s.bw with active := false } }.deliver rd (s.bw.total s.index)) :=
  guarded_of_active hactive _

/-- Settles O48: nb is the number of trailing bytes, and a flush that answers is a store of them. -/
theorem bwflushResult : Obligations.BwflushResult := by
  refine ⟨fun _ _ hidle => guarded_of_idle hidle _, fun rd s nb hm hactive hnb => ?_⟩
  obtain rfl : s.bw.trailing = nb := hnb.ceilDiv_eq (by decide)
  rw [exec_bwflush_of_active hactive]
  refine ⟨fun h => ?_, fun hsome hpast => ?_⟩
  · have hf := writerFlush_of_accessible h
    rw [hf]
    exact ⟨_, _, rfl, delivered_deliver rd _ rfl rfl rfl rfl, fun hfree => writerTotal_of_not_full hfree _, rfl,
      stored_of_writerFlush hm hf, ⟨rfl, rfl, rfl, rfl, rfl⟩⟩
  · rw [writerFlush_of_past s.mem hsome hpast, andThen_fault]

/-- BRREAD on an active context with no data bit left. -/
theorem exec_brread_of_exhausted {rd : Reg} {s : State} (hactive : s.br.active = true)
    (hend : 8 * s.br.len.toNat ≤ s.br.position) :
    exec (.brread rd) s = .next ((s.setEmpty true).deliver rd 0) :=
  (guarded_of_active hactive _).trans (if_pos (decide_eq_true hend))

/-- BRREAD on an active context with a data bit left, when the chunk's bytes may be used. -/
theorem exec_brread_of_chunk {rd : Reg} {s : State} {c : Nat} (hactive : s.br.active = true)
    (hleft : s.br.position < 8 * s.br.len.toNat) (hc : readerChunk s.mem s.br = .next c) :
    exec (.brread rd) s =
      .next (({ s with br := s.br.advance (chunkWidth c) }.setEmpty false).deliver rd (chunkWord c)) := by
  have hdata : ¬s.br.exhausted = true := Bool.eq_false_iff.mp (not_exhausted_iff.mpr hleft)
  refine (guarded_of_active hactive _).trans ((if_neg hdata).trans ?_)
  rw [hc, andThen_next]

/-- The last byte of a chunk that begins inside the buffer is its last bit's or the buffer's last. -/
theorem chunkBytes_of_lt {l pos : Nat} (h : pos < 8 * l) :
    min l (ceilDiv (pos + 61) 8) - pos / 8 = min (l - 1) ((pos + 60) / 8) + 1 - pos / 8 := by
  rw [ceilDiv]
  omega

/-- Settles O50: idle, Empty, and a chunk whose escape decides the word and how far the position moves. -/
theorem brreadResult : Obligations.BrreadResult := by
  refine fun rd s => ⟨fun hidle => guarded_of_idle hidle _, fun hactive hend => ?empty,
    fun hactive hleft ha => ?success⟩
  case empty =>
    exact ⟨_, exec_brread_of_exhausted hactive hend, delivered_deliver rd _ rfl rfl rfl rfl, rfl,
      sameMemory_of_mem_eq rfl, ⟨rfl, rfl, rfl, rfl, rfl⟩⟩
  case success =>
    rw [← chunkBytes_of_lt hleft] at ha
    have hchunk : readerChunk s.mem s.br = .next _ := streamBits_eq_next.mpr ⟨ha, rfl⟩
    obtain ⟨hposition, -⟩ := readerAdvance hleft (chunkWidth_le _)
    refine ⟨_, _, exec_brread_of_chunk hactive hleft hchunk, isStreamBits_of_streamBits hchunk, ?_, rfl,
      sameMemory_of_mem_eq rfl, ⟨rfl, rfl, rfl, rfl, rfl⟩, hposition.trans (by rw [chunkWidth_eq])⟩
    rw [← chunkWord_eq]
    exact delivered_deliver rd _ rfl rfl rfl rfl

/-! ### The words as a stream (R191) -/

/-- The bits BWWRITE appends for words. -/
def escapedBits (vs : List Word) : Nat := (vs.map escapedWidth).sum

/-- The stream BWWRITE makes of words as one number: each word above the bits of those before it. -/
def escapedStream : List Word → Nat
  | [] => 0
  | v :: vs => v.toNat + escapedStream vs * 2 ^ escapedWidth v

theorem escapedBits_cons (v : Word) (vs : List Word) : escapedBits (v :: vs) = escapedWidth v + escapedBits vs :=
  List.sum_cons

theorem escapedBits_le (vs : List Word) : escapedBits vs ≤ 61 * vs.length := by
  induction vs with
  | nil => exact le_rfl
  | cons v vs ih =>
    have hv := escapedWidth_le v
    rw [escapedBits_cons, List.length_cons]
    omega

/-- Writing words one after another puts their stream above the bits the writer held (R194). -/
theorem WriterHolds.writeEscaped {m : Memory} {base : Word} {c : WriterContext} {bits W : Nat} {vs : List Word}
    {r : Memory × WriterContext} (h : WriterHolds m base c bits W) (hvs : ∀ v, v ∈ vs → v.toNat < 2 ^ 61)
    (hr : writeEscaped m c vs = .next r) :
    WriterHolds r.1 base r.2 (bits + escapedBits vs) (W + escapedStream vs * 2 ^ bits) := by
  induction vs generalizing m c bits W with
  | nil =>
    cases hr
    simpa [escapedBits, escapedStream] using h
  | cons v vs ih =>
    rw [List.forall_mem_cons] at hvs
    obtain ⟨hv, hvs⟩ := hvs
    obtain ⟨q, hq, hr⟩ := andThen_eq_next.mp hr
    have hall := ih (h.append (lt_two_pow_escapedWidth hv) (escapedWidth_le v) hq) hvs hr
    have hvalue : W + v.toNat * 2 ^ bits + escapedStream vs * 2 ^ (bits + escapedWidth v) =
        W + escapedStream (v :: vs) * 2 ^ bits := by
      rw [escapedStream, Nat.pow_add]
      ring
    rwa [Nat.add_assoc bits, ← escapedBits_cons, hvalue] at hall

/-! ### What a reader delivers (R198) -/

theorem streamBits_lt {m : Memory} {b l pos n v : Nat} (h : streamBits m b l pos n = .next v) : v < 2 ^ n := by
  obtain ⟨-, rfl⟩ := streamBits_eq_next.mp h
  exact Nat.mod_lt _ (Nat.two_pow_pos n)

theorem ByteWords.word_lt {m : Memory} {b l pos : Nat} {vs : List Word} (h : ByteWords m b l pos vs) :
    ∀ v, v ∈ vs → v.toNat < 2 ^ 61 := by
  induction h with
  | empty => exact fun v hv => absurd hv List.not_mem_nil
  | word _ hc _ ih =>
    refine List.forall_mem_cons.mpr ⟨?_, ih⟩
    rw [chunkWord_toNat (streamBits_lt hc)]
    exact (Nat.mod_le _ _).trans_lt (streamBits_lt hc)

/-- The words delivered from bit `pos` on cover the rest of the buffer. -/
theorem ByteWords.covers {m : Memory} {b l pos : Nat} {vs : List Word} (h : ByteWords m b l pos vs) :
    8 * l ≤ pos + escapedBits vs := by
  induction h with
  | empty hend => exact Nat.le_add_right_of_le hend
  | word _ hc _ ih => rwa [escapedBits_cons, escapedWidth_chunkWord (streamBits_lt hc), ← Nat.add_assoc]

/-- Every word but the last takes at least 60 of the data bits, and the last at least one (R196). -/
theorem ByteWords.length_le {m : Memory} {b l pos : Nat} {vs : List Word} (h : ByteWords m b l pos vs) :
    60 * vs.length ≤ 8 * l - pos + 59 := by
  induction h with
  | empty => exact Nat.zero_le _
  | @word pos c vs hleft _ _ ih =>
    have hwidth := le_chunkWidth c
    rw [List.length_cons]
    omega

/-- The words delivered from bit `pos` on are a stream of all the bits of the buffer from there on. -/
theorem ByteWords.stream_eq {m : Memory} {b l pos : Nat} {vs : List Word} (h : ByteWords m b l pos vs) :
    escapedStream vs = m.readBytes b l / 2 ^ pos := by
  induction h with
  | empty hend =>
    exact (Nat.div_eq_of_lt ((readBytes_lt m b l).trans_le (Nat.pow_le_pow_right (by decide) hend))).symm
  | @word pos c vs _ hc _ ih =>
    have hlow : c % 2 ^ chunkWidth c = m.readBytes b l / 2 ^ pos % 2 ^ chunkWidth c := by
      have hchunk := (isStreamBits_of_streamBits hc).eq_of_readBytes
      exact (congrArg (· % 2 ^ chunkWidth c) hchunk).trans
        (Nat.mod_mod_of_dvd _ (Nat.pow_dvd_pow 2 (chunkWidth_le c)))
    rw [escapedStream, escapedWidth_chunkWord (streamBits_lt hc), chunkWord_toNat (streamBits_lt hc), hlow, ih,
      Nat.pow_add, ← Nat.div_div_eq_div_mul, Nat.mod_add_div']

/-! ### The round trip (R199) -/

/-- A number that n bytes hold stands in a longer run of bytes as those n bytes and then zeros. -/
theorem bytes_of_readBytes_eq {m m' : Memory} {a a' n k : Nat} (hk : n ≤ k)
    (h : m'.readBytes a' k = m.readBytes a n) :
    (∀ i, i < n → m'.byte (a' + i) = m.byte (a + i)) ∧ ∀ i, n ≤ i → i < k → m'.byte (a' + i) = 0#8 := by
  refine ⟨fun i hi => BitVec.eq_of_toNat_eq ?_, fun i hn hi => BitVec.eq_of_toNat_eq ?_⟩
  · rw [← readBytes_div_mod m' (hi.trans_le hk), h, readBytes_div_mod m hi]
  · have hlt : m.readBytes a n < 2 ^ (8 * i) :=
      (readBytes_lt m a n).trans_le (Nat.pow_le_pow_right (by decide) (Nat.mul_le_mul_left 8 hn))
    rw [← readBytes_div_mod m' hi, h, Nat.div_eq_of_lt hlt]
    rfl

/-- BRMAX and BWMAX bound what is written for the words of n bytes (R192, R196). -/
theorem ByteWords.streamBytes_bound {m : Memory} {b n len : Nat} {vs : List Word} (h : ByteWords m b n 0 vs)
    (hlen : IsCeil (escapedBits vs) 8 len) : len ≤ streamBytes (ceilDiv (8 * n) 60) := by
  have hwords : vs.length ≤ ceilDiv (8 * n) 60 := by
    have hdata := h.length_le
    rw [ceilDiv]
    omega
  rw [hlen]
  calc escapedBits vs ≤ 61 * vs.length := escapedBits_le vs
    _ ≤ 61 * ceilDiv (8 * n) 60 := Nat.mul_le_mul_left 61 hwords
    _ ≤ streamBytes (ceilDiv (8 * n) 60) * 8 := (ceilDiv_le_iff (by decide)).mp le_rfl

/-- Settles O56: the words are the n bytes as a stream, the buffer holds that stream, and a number has one byte each. -/
theorem byteCodecRoundTrip : Obligations.ByteCodecRoundTrip := by
  intro m0 m m1 m2 b n base vs c hm hread hwrite hflush
  have hstream : escapedStream vs = m0.readBytes b n := by simpa using hread.stream_eq
  have hholds : WriterHolds m1 base c (escapedBits vs) (m0.readBytes b n) := by
    simpa [hstream] using (writerHolds_begin hm base).writeEscaped hread.word_lt hwrite
  obtain ⟨-, hvalue⟩ := hholds.flush hflush
  have hceil := hholds.isCeil_streamLength
  have hbytes : n ≤ streamLength c := by
    have hwhole := (hceil _).mp le_rfl
    have hcovers := hread.covers
    omega
  exact ⟨hbytes, hread.streamBytes_bound hceil, writerTotal_toNat hholds.legal, bytes_of_readBytes_eq hbytes hvalue⟩

end Sys2Proof.Machine
end

section
/-! The region engine (spec/45_region_engine.md R212 to R215): its preconditions, what a completed region command leaves
alone, and the shortcuts, whose byte loops fill a range of bytes. -/

namespace Sys2Proof.Machine

/-! ### The preconditions (R212, R213) -/

/-- Footprints apart as intervals, for arithmetic; an empty one is apart from any. -/
theorem disjointFootprints_iff {a m b n : Nat} :
    disjointFootprints a m b n = true ↔ m = 0 ∨ n = 0 ∨ a + m ≤ b ∨ b + n ≤ a := by
  simp only [disjointFootprints, Bool.or_eq_true, beq_iff_eq, decide_eq_true_eq, or_assoc]

/-- Footprints that share an address are not apart. -/
theorem disjointFootprints_of_shared {a m b n x : Nat} (h : a ≤ x ∧ x < a + m ∧ b ≤ x ∧ x < b + n) :
    disjointFootprints a m b n = false := by
  rw [← Bool.not_eq_true, disjointFootprints_iff]
  omega

/-- Parts of footprints that are apart are apart. -/
theorem disjointFootprints_within {a m b n i k j l : Nat} (h : disjointFootprints a m b n = true) (hk : i + k ≤ m)
    (hl : j + l ≤ n) : disjointFootprints (a + i) k (b + j) l = true := by
  rw [disjointFootprints_iff] at h ⊢
  omega

theorem RegionOperands.disjoint_iff {o : RegionOperands} :
    o.disjoint = true ↔ disjointFootprints o.data o.size o.work.toNat (workspaceBytes o.size) = true ∧
      disjointFootprints o.data o.size o.out (maxOutputBytes o.size) = true ∧
      disjointFootprints o.work.toNat (workspaceBytes o.size) o.out (maxOutputBytes o.size) = true := by
  simp only [RegionOperands.disjoint, Bool.and_eq_true, and_assoc]

theorem regionCheck_of_coeff {o : RegionOperands} (h : Config.p ≤ o.coeff.toNat) :
    regionCheck o = .refused .coeffOutOfRange := by
  rw [regionCheck, decide_eq_true h, refuseIf_true, andThen_refused]

theorem regionCheck_of_size {o : RegionOperands} (hk : o.coeff.toNat < Config.p)
    (h : 2 ^ 64 ≤ maxOutputBytes o.size) : regionCheck o = .refused .sizeOverflow := by
  rw [regionCheck, decide_eq_false (Nat.not_le.mpr hk), refuseIf_false, andThen_next,
    decide_eq_true (p := Config.addressSpace ≤ maxOutputBytes o.size) h, refuseIf_true, andThen_refused]

theorem regionCheck_of_overlap {o : RegionOperands} (hk : o.coeff.toNat < Config.p)
    (hn : maxOutputBytes o.size < 2 ^ 64) (h : o.disjoint = false) : regionCheck o = .refused .regionOverlap := by
  rw [regionCheck, decide_eq_false (Nat.not_le.mpr hk), refuseIf_false, andThen_next,
    decide_eq_false (p := Config.addressSpace ≤ maxOutputBytes o.size) (Nat.not_le.mpr hn), refuseIf_false,
    andThen_next, h, Bool.not_false, refuseIf_true]

/-- Both commands begin with the check, so its refusal is theirs. -/
theorem exec_region_of_refused {rd ra rb rc re rf : Reg} {s : State} {e : Refusal}
    (h : regionCheck (regionOperands s ra rb rc re rf) = .refused e) :
    exec (.mulrgn rd ra rb rc re rf) s = .refused e ∧ exec (.madrgn rd ra rb rc re rf) s = .refused e := by
  constructor
  · rw [exec, execMulrgn, multiplyRegion, h, andThen_refused, andThen_refused]
  · rw [exec, execMadrgn, multiplyAddRegion, h, andThen_refused, andThen_refused]

/-- Settles O51: the three tests of the check in their order; an address in two footprints keeps those two from being
apart. -/
theorem regionRefusals : Obligations.RegionRefusals := by
  rintro rd ra rb rc re rf s o rfl
  refine ⟨fun hk => exec_region_of_refused (regionCheck_of_coeff hk),
    fun hk hn => exec_region_of_refused (regionCheck_of_size hk hn),
    fun hk hn ⟨x, hx⟩ => exec_region_of_refused (regionCheck_of_overlap hk hn (Bool.eq_false_iff.mpr fun hd => ?_))⟩
  obtain ⟨hdw, hdo, hwo⟩ := RegionOperands.disjoint_iff.mp hd
  obtain h | h | h := hx
  · exact Bool.false_ne_true ((disjointFootprints_of_shared h).symm.trans hdw)
  · exact Bool.false_ne_true ((disjointFootprints_of_shared h).symm.trans hdo)
  · exact Bool.false_ne_true ((disjointFootprints_of_shared h).symm.trans hwo)

/-! ### Completion -/

/-- A region command that leaves memory m and delivers v changes nothing beyond memory and its destination (R211). -/
theorem region_completes (s : State) (m : Memory) (rd : Reg) (v : Nat) :
    ∃ t, (.next ({ s with mem := m }.deliver rd (toWord v)) : Result State) = .next t ∧
      Delivered s t rd (BitVec.ofNat 64 v) ∧ t.st = s.st ∧ SameContexts s t ∧ t.mem = m :=
  ⟨_, rfl, delivered_deliver rd _ rfl rfl rfl rfl, rfl, ⟨rfl, rfl, rfl, rfl, rfl⟩, rfl⟩

theorem mulrgn_completes {rd ra rb rc re rf : Reg} {s : State} {m : Memory} {v : Nat}
    (h : multiplyRegion (regionOperands s ra rb rc re rf) s.mem = .next (m, v)) :
    ∃ t, exec (.mulrgn rd ra rb rc re rf) s = .next t ∧ Delivered s t rd (BitVec.ofNat 64 v) ∧ t.st = s.st ∧
      SameContexts s t ∧ t.mem = m := by
  rw [exec, execMulrgn, h, andThen_next]
  exact region_completes s m rd v

theorem madrgn_completes {rd ra rb rc re rf : Reg} {s : State} {m : Memory} {v : Nat}
    (h : multiplyAddRegion (regionOperands s ra rb rc re rf) s.mem = .next (m, v)) :
    ∃ t, exec (.madrgn rd ra rb rc re rf) s = .next t ∧ Delivered s t rd (BitVec.ofNat 64 v) ∧ t.st = s.st ∧
      SameContexts s t ∧ t.mem = m := by
  rw [exec, execMadrgn, h, andThen_next]
  exact region_completes s m rd v

/-! ### Bytes stored one at a time (R214) -/

/-- Memory m' is m with byte a + i replaced by `g i` for the n bytes from a on. -/
structure Filled (m m' : Memory) (a n : Nat) (g : Nat → Byte) : Prop where
  wf : m'.wf = true
  map : m'.map = m.map
  inside : ∀ i, i < n → m'.byte (a + i) = g i
  outside : ∀ x, x < a ∨ a + n ≤ x → m'.byte x = m.byte x

theorem filled_none {m : Memory} (hm : m.wf = true) (a : Nat) (g : Nat → Byte) : Filled m m a 0 g where
  wf := hm
  map := rfl
  inside i hi := absurd hi (Nat.not_lt_zero i)
  outside _ _ := rfl

/-- The first byte stored, then the others. -/
theorem Filled.cons {m m' : Memory} {a n v : Nat} {g : Nat → Byte} (hm : m.wf = true)
    (ha : m.accessible a 1 = true) (hv : BitVec.ofNat 8 v = g 0)
    (h : Filled (m.writeBytes a 1 v) m' (a + 1) n fun i => g (i + 1)) : Filled m m' a (n + 1) g where
  wf := h.wf
  map := h.map.trans (writeBytes_map ..)
  inside i hi := by
    cases i with
    | zero =>
      obtain ⟨hspace, -⟩ := accessible_iff.mp ha
      rw [h.outside _ (by omega), byte_writeBytes_inside hm v Nat.one_pos hspace, ← hv]
      simp
    | succ i =>
      rw [← h.inside i (by omega)]
      congr 1
      omega
  outside x hx := by rw [h.outside x (by omega), byte_writeBytes_outside m v (by omega)]

/-- Two ranges filled one after the other, the second right behind the first. -/
theorem Filled.append {m m1 m2 : Memory} {a n k : Nat} {g g' : Nat → Byte} (h : Filled m m1 a n g)
    (h' : Filled m1 m2 (a + n) k g') : Filled m m2 a (n + k) fun i => if i < n then g i else g' (i - n) where
  wf := h'.wf
  map := h'.map.trans h.map
  inside i hi := by
    split <;> rename_i hin
    · rw [h'.outside _ (by omega), h.inside i hin]
    · rw [← h'.inside (i - n) (by omega)]
      congr 1
      omega
  outside x hx := by rw [h'.outside x (by omega), h.outside x (by omega)]

/-- What `g` is beyond the n bytes does not matter. -/
theorem Filled.congr {m m' : Memory} {a n : Nat} {g g' : Nat → Byte} (h : Filled m m' a n g)
    (hg : ∀ i, i < n → g i = g' i) : Filled m m' a n g' :=
  { h with inside := fun i hi => (h.inside i hi).trans (hg i hi) }

theorem Filled.accessible {m m' : Memory} {a n : Nat} {g : Nat → Byte} (h : Filled m m' a n g) (b k : Nat) :
    m'.accessible b k = m.accessible b k := accessible_congr_map h.map b k

theorem zeroBytes_filled {m : Memory} {a n : Nat} (hm : m.wf = true) (ha : m.accessible a n = true) :
    ∃ m', zeroBytes m a n = .next m' ∧ Filled m m' a n fun _ => 0#8 := by
  induction n generalizing m a with
  | zero => exact ⟨m, rfl, filled_none hm a _⟩
  | succ n ih =>
    have hfirst : m.accessible a 1 = true := accessible_within (i := 0) ha (by omega)
    have hstore : m.store a 1 0 = .next (m.writeBytes a 1 0) := store_eq_next.mpr ⟨hfirst, rfl⟩
    have hrest : (m.writeBytes a 1 0).accessible (a + 1) n = true := by
      rw [accessible_congr_map (writeBytes_map ..)]
      exact accessible_within ha (by omega)
    obtain ⟨m', hzero, hfilled⟩ := ih (store_keeps_wf hm hstore) hrest
    exact ⟨m', by rw [zeroBytes, hstore, andThen_next, hzero], hfilled.cons hm hfirst rfl⟩

/-- A copy between ranges that are apart reads what stood at its source before it began. -/
theorem copyBytes_filled {m : Memory} {src dst n : Nat} (hm : m.wf = true) (hs : m.accessible src n = true)
    (hd : m.accessible dst n = true) (hapart : disjointFootprints src n dst n = true) :
    ∃ m', copyBytes m src dst n = .next m' ∧ Filled m m' dst n fun i => m.byte (src + i) := by
  induction n generalizing m src dst with
  | zero => exact ⟨m, rfl, filled_none hm dst _⟩
  | succ n ih =>
    have hload : m.load src 1 = .next (m.readBytes src 1) :=
      load_eq_next.mpr ⟨accessible_within (i := 0) hs (by omega), rfl⟩
    have hfirst : m.accessible dst 1 = true := accessible_within (i := 0) hd (by omega)
    have hstore : m.store dst 1 (m.readBytes src 1) = .next (m.writeBytes dst 1 (m.readBytes src 1)) :=
      store_eq_next.mpr ⟨hfirst, rfl⟩
    have hsource : (m.writeBytes dst 1 (m.readBytes src 1)).accessible (src + 1) n = true := by
      rw [accessible_congr_map (writeBytes_map ..)]
      exact accessible_within hs (by omega)
    have hrest : (m.writeBytes dst 1 (m.readBytes src 1)).accessible (dst + 1) n = true := by
      rw [accessible_congr_map (writeBytes_map ..)]
      exact accessible_within hd (by omega)
    obtain ⟨m', hcopy, hfilled⟩ := ih (store_keeps_wf hm hstore) hsource hrest
      (disjointFootprints_within hapart (by omega) (by omega))
    have hbyte : BitVec.ofNat 8 (m.readBytes src 1) = m.byte src := by simp [Memory.readBytes]
    have hunread : ∀ i, i < n →
        (m.writeBytes dst 1 (m.readBytes src 1)).byte (src + 1 + i) = m.byte (src + (i + 1)) := fun i hi => by
      rw [disjointFootprints_iff] at hapart
      rw [byte_writeBytes_outside m _ (by omega), Nat.add_assoc, Nat.add_comm 1]
    exact ⟨m', by rw [copyBytes, hload, andThen_next, hstore, andThen_next, hcopy],
      .cons hm hfirst hbyte (hfilled.congr hunread)⟩

/-! ### The shortcuts (R214, R215) -/

theorem le_roundedLength (n : Nat) : n ≤ roundedLength n := by
  rw [roundedLength, ceilDiv]
  omega

theorem multiplyRegion_of_zero {o : RegionOperands} {m : Memory} (hm : m.wf = true)
    (hcheck : regionCheck o = .next ()) (hk : o.coeff = 0) (ha : m.accessible o.out (roundedLength o.size) = true) :
    ∃ m', multiplyRegion o m = .next (m', roundedLength o.size) ∧
      Filled m m' o.out (roundedLength o.size) fun _ => 0#8 := by
  obtain ⟨m', hzero, hfilled⟩ := zeroBytes_filled hm ha
  exact ⟨m', by rw [multiplyRegion, hcheck, andThen_next, if_pos hk, hzero, andThen_next], hfilled⟩

theorem multiplyRegion_of_one {o : RegionOperands} {m : Memory} (hm : m.wf = true)
    (hcheck : regionCheck o = .next ()) (hk : o.coeff = 1) (hd : m.accessible o.data o.size = true)
    (ha : m.accessible o.out (roundedLength o.size) = true) :
    ∃ m', multiplyRegion o m = .next (m', roundedLength o.size) ∧
      Filled m m' o.out (roundedLength o.size) fun i => if i < o.size then m.byte (o.data + i) else 0#8 := by
  obtain ⟨-, -, hdisjoint⟩ := regionCheck_eq_next.mp hcheck
  obtain ⟨-, hdo, -⟩ := RegionOperands.disjoint_iff.mp hdisjoint
  have hle := le_roundedLength o.size
  have hout : o.size ≤ maxOutputBytes o.size := Nat.le_add_right_of_le hle
  obtain ⟨m1, hcopy, hcopied⟩ := copyBytes_filled (dst := o.out) hm hd
    (accessible_within (i := 0) ha (by omega))
    (disjointFootprints_within (i := 0) (j := 0) hdo (by omega) (by omega))
  obtain ⟨m2, hzero, hpadded⟩ := zeroBytes_filled (a := o.out + o.size) (n := roundedLength o.size - o.size)
    hcopied.wf (by rw [hcopied.accessible]; exact accessible_within ha (by omega))
  have hfilled := hcopied.append hpadded
  rw [Nat.add_sub_cancel' hle] at hfilled
  have hk0 : o.coeff ≠ 0 := by rw [hk]; decide
  exact ⟨m2, by rw [multiplyRegion, hcheck, andThen_next, if_neg hk0, if_pos hk, hcopy, andThen_next, hzero,
    andThen_next], hfilled⟩

/-- Settles O52: R is the rounded length; the two shortcuts fill that many bytes of the output. -/
theorem mulrgnShortcuts : Obligations.MulrgnShortcuts := by
  rintro rd ra rb rc re rf s o R hm rfl ⟨q, hq, rfl⟩ hn hdisjoint ha
  have hrounded : roundedLength (regionOperands s ra rb rc re rf).size = 8 * q :=
    congrArg (8 * ·) (hq.ceilDiv_eq (by decide))
  rw [← hrounded] at ha ⊢
  have hcheck (hk : (regionOperands s ra rb rc re rf).coeff.toNat < Config.p) :
      regionCheck (regionOperands s ra rb rc re rf) = .next () := regionCheck_eq_next.mpr ⟨hk, hn, hdisjoint⟩
  refine ⟨fun hk => ?zero, fun hk hd => ?one⟩
  case zero =>
    obtain ⟨m', hrun, hfilled⟩ := multiplyRegion_of_zero hm (hcheck (by rw [hk]; decide)) hk ha
    obtain ⟨t, ht, hdelivered, hst, hcontexts, rfl⟩ := mulrgn_completes (rd := rd) hrun
    exact ⟨t, ht, hdelivered, hst, hcontexts, fun i hi => by rw [hfilled.inside i hi, Nat.zero_div],
      hfilled.outside, hfilled.map⟩
  case one =>
    obtain ⟨m', hrun, hfilled⟩ := multiplyRegion_of_one hm (hcheck (by rw [hk]; decide)) hk hd ha
    obtain ⟨t, ht, hdelivered, hst, hcontexts, rfl⟩ := mulrgn_completes (rd := rd) hrun
    exact ⟨t, ht, hdelivered, hst, hcontexts, hfilled.map, hfilled.inside, hfilled.outside⟩

/-- Settles O53: with coefficient 0 MADRGN passes the check and only delivers. -/
theorem madrgnZeroResult : Obligations.MadrgnZeroResult := by
  rintro rd ra rb rc re rf s o q rfl hq hn hdisjoint hk
  have hcheck : regionCheck (regionOperands s ra rb rc re rf) = .next () :=
    regionCheck_eq_next.mpr ⟨by rw [hk]; decide, hn, hdisjoint⟩
  have hrun : multiplyAddRegion (regionOperands s ra rb rc re rf) s.mem = .next (s.mem, 8 * q) := by
    rw [multiplyAddRegion, hcheck, andThen_next, if_pos hk, roundedLength, hq.ceilDiv_eq (by decide)]
  obtain ⟨t, ht, hdelivered, hst, hcontexts, hmem⟩ := madrgn_completes (rd := rd) hrun
  exact ⟨t, ht, hdelivered, hst, hcontexts, sameMemory_of_mem_eq hmem⟩

end Sys2Proof.Machine
end

section
/-! The general path of the region engine (spec/45_region_engine.md R216, R217). The invariant `RegionState` says what
memory holds after N output words and W auxiliary words: each operation of R216 then takes it one word further, and with
all words produced it is the statement. -/

namespace Sys2Proof.Machine

/-! ### Overflow bits and auxiliary words (R159) -/

/-- Auxiliary word j of a string of overflow bits, as a word. -/
def auxWord (bits : List Bool) (j : Nat) : Word := BitVec.ofFnLE fun b : Fin 64 => auxBit bits j b

/-- The auxiliary word has the bits that the claims give it; bit 63 and what is above are 0. -/
theorem auxWord_getLsbD (bits : List Bool) (j b : Nat) : (auxWord bits j).getLsbD b = auxBit bits j b := by
  by_cases hb : b < 64
  · simp [auxWord, hb]
  · have h63 : ¬b < 63 := by omega
    rw [BitVec.getLsbD_of_ge _ _ (by omega), auxBit, decide_eq_false h63, Bool.false_and]

/-- A word that is complete does not depend on the bits that follow. -/
theorem auxWord_append {bits : List Bool} {j : Nat} (h : 63 * (j + 1) ≤ bits.length) (more : List Bool) :
    auxWord (bits ++ more) j = auxWord bits j := by
  refine BitVec.eq_of_getLsbD_eq fun b _ => ?_
  rw [auxWord_getLsbD, auxWord_getLsbD, auxBit, auxBit]
  by_cases hb : b < 63
  · rw [List.getElem?_append_left (by omega)]
  · rw [decide_eq_false hb, Bool.false_and, Bool.false_and]

/-- Past the last bit there is nothing. -/
theorem auxWord_of_length_le {bits : List Bool} {j : Nat} (h : bits.length ≤ 63 * j) : auxWord bits j = 0 := by
  refine BitVec.eq_of_getLsbD_eq fun b _ => ?_
  rw [auxWord_getLsbD, auxBit, List.getElem?_eq_none (by omega)]
  simp

/-- The overflow bits of the first i data words. -/
def overflowPrefix (m : Memory) (o : RegionOperands) (i : Nat) : List Bool :=
  (((List.range i).map (dataWord m o)).filter ambiguous).map BitVec.msb

theorem overflowPrefix_full (m : Memory) (o : RegionOperands) :
    overflowPrefix m o (o.size / 8) = overflowBitsOf m o := rfl

/-- An ambiguous word brings its bit 63, another word none. -/
theorem overflowPrefix_succ (m : Memory) (o : RegionOperands) (i : Nat) :
    overflowPrefix m o (i + 1) =
      overflowPrefix m o i ++ if ambiguous (dataWord m o i) then [(dataWord m o i).msb] else [] := by
  rw [overflowPrefix, List.range_succ, List.map_append, List.filter_append, List.map_append, ← overflowPrefix]
  congr 1
  cases h : ambiguous (dataWord m o i) <;> simp [h]

theorem overflowPrefix_length_le (m : Memory) (o : RegionOperands) {i : Nat} (h : i ≤ o.size / 8) :
    (overflowPrefix m o i).length ≤ (overflowBitsOf m o).length :=
  ((((List.range_sublist.mpr h).map _).filter _).map _).length_le

/-! ### The packer (R156 to R159) -/

/-- The packer set up on `base` has taken `bits`: whole words of 63 are counted, the rest is in ACC. -/
structure PackerHolds (base : Word) (bits : List Bool) (c : AdrContext) : Prop where
  base_eq : c.auxBase = base
  length : 63 * c.auxWords.toNat + c.cnt.toNat = bits.length
  pending : c.cnt.toNat ≤ 62
  acc : c.acc = auxWord bits c.auxWords.toNat

theorem packerHolds_setup (base : Word) : PackerHolds base [] (packerSetup base) where
  base_eq := rfl
  length := rfl
  pending := Nat.zero_le 62
  acc := (auxWord_of_length_le (Nat.zero_le _)).symm

theorem PackerHolds.auxAddress_eq {base : Word} {bits : List Bool} {c : AdrContext} (h : PackerHolds base bits c) :
    c.auxAddress = base.toNat + 8 * c.auxWords.toNat := by
  rw [AdrContext.auxAddress, h.base_eq]

/-- ACC with one more bit is the auxiliary word of the bits with that bit behind them. -/
theorem PackerHolds.accWith_eq {base : Word} {bits : List Bool} {c : AdrContext} (h : PackerHolds base bits c)
    (bit : Bool) : c.accWith bit = auxWord (bits ++ [bit]) c.auxWords.toNat := by
  have hlength := h.length
  have hpending := h.pending
  refine BitVec.eq_of_getLsbD_eq fun b hb => ?_
  rw [AdrContext.accWith, h.acc, BitVec.getLsbD_or, auxWord_getLsbD, auxWord_getLsbD, BitVec.getLsbD_shiftLeft,
    BitVec.getLsbD_setWidth, BitVec.getLsbD_ofBool, auxBit, auxBit]
  obtain hlt | heq | hgt := Nat.lt_trichotomy b c.cnt.toNat
  · rw [List.getElem?_append_left (by omega)]
    simp [hlt]
  · subst heq
    have hin : c.cnt.toNat < 63 := by omega
    simp [hlength, hin, hb]
  · have hlast : (bits ++ [bit]).length = bits.length + 1 := List.length_append
    rw [List.getElem?_eq_none (by omega), List.getElem?_eq_none (by omega)]
    have hne : b - c.cnt.toNat ≠ 0 := by omega
    simp [hne]

/-- With up to 61 pending bits one more is only buffered. -/
theorem PackerHolds.buffered {base : Word} {bits : List Bool} {c : AdrContext} (h : PackerHolds base bits c)
    (hc : c.cnt.toNat < 62) (bit : Bool) :
    PackerHolds base (bits ++ [bit]) { c with acc := c.accWith bit, cnt := BitVec.ofNat 6 (c.cnt.toNat + 1) } where
  base_eq := h.base_eq
  length := by
    rw [cnt_ofNat_toNat (by omega), List.length_append, ← h.length]
    rfl
  pending := by
    rw [cnt_ofNat_toNat (by omega)]
    exact hc
  acc := h.accWith_eq bit

/-- The 63rd bit completes a word. -/
theorem PackerHolds.completed {base : Word} {bits : List Bool} {c : AdrContext} (h : PackerHolds base bits c)
    (hc : c.cnt.toNat = 62) (hnext : (c.auxWords + 1).toNat = c.auxWords.toNat + 1) (bit : Bool) :
    PackerHolds base (bits ++ [bit]) { c with auxWords := c.auxWords + 1, acc := 0, cnt := 0 } where
  base_eq := h.base_eq
  length := by
    rw [hnext, List.length_append, ← h.length, hc]
    rfl
  pending := Nat.zero_le 62
  acc := by
    rw [hnext, auxWord_of_length_le]
    rw [List.length_append, ← h.length, hc, Nat.mul_succ]
    rfl

/-! ### Words in memory -/

/-- A write leaves what is read apart from it. -/
theorem readBytes_writeBytes_apart (m : Memory) {a n b k : Nat} (v : Nat) (h : disjointFootprints a n b k = true) :
    (m.writeBytes b k v).readBytes a n = m.readBytes a n := by
  rw [disjointFootprints_iff] at h
  exact readBytes_congr fun i hi => byte_writeBytes_outside m v (by omega)

/-- Different words from one address on are apart. -/
theorem disjointFootprints_words (a : Nat) {i j : Nat} (h : i ≠ j) :
    disjointFootprints (a + 8 * i) 8 (a + 8 * j) 8 = true := by
  rw [disjointFootprints_iff]
  omega

/-- A word written reads back. -/
theorem readBytes_writeBytes_word {m : Memory} (hm : m.wf = true) {a : Nat} (ha : a + 8 ≤ Config.addressSpace)
    (w : Word) : (m.writeBytes a 8 w.toNat).readBytes a 8 = w.toNat := by
  have h := readBytes_writeBytes hm (i := 0) w.toNat (Nat.zero_add 8).le ha
  rwa [Nat.add_zero, Nat.mul_zero, Nat.pow_zero, Nat.div_one, Nat.mod_eq_of_lt w.isLt] at h

/-! ### What the general path needs, and how far it has come -/

/-- The bytes the general path uses may be used, and its three footprints are apart: the data, A auxiliary words,
and the primary and auxiliary words of the output. -/
structure RegionUsable (o : RegionOperands) (m : Memory) (A : Nat) : Prop where
  wf : m.wf = true
  ceil : IsCeil (overflowBitsOf m o).length 63 A
  data : m.accessible o.data o.size = true
  work : m.accessible o.work.toNat (8 * A) = true
  out : m.accessible o.out (8 * (ceilDiv o.size 8 + A)) = true
  dataWork : disjointFootprints o.data o.size o.work.toNat (8 * A) = true
  dataOut : disjointFootprints o.data o.size o.out (8 * (ceilDiv o.size 8 + A)) = true
  workOut : disjointFootprints o.work.toNat (8 * A) o.out (8 * (ceilDiv o.size 8 + A)) = true

/-- There is at most one overflow bit for each full word. -/
theorem overflowBitsOf_length_le (m : Memory) (o : RegionOperands) : (overflowBitsOf m o).length ≤ o.size / 8 := by
  rw [overflowBitsOf, List.length_map]
  exact (List.length_filter_le _ _).trans_eq (by rw [List.length_map, List.length_range])

/-- The preconditions of R212 keep the bytes that are used apart, since ADWSB and ADMOB allow for every word to be
ambiguous. -/
theorem regionUsable_of_disjoint {o : RegionOperands} {m : Memory} {A : Nat} (hm : m.wf = true)
    (hdisjoint : o.disjoint = true) (hA : IsCeil (overflowBitsOf m o).length 63 A)
    (hdata : m.accessible o.data o.size = true) (hwork : m.accessible o.work.toNat (8 * A) = true)
    (hout : m.accessible o.out (roundedLength o.size + 8 * A) = true) : RegionUsable o m A := by
  have haux : 8 * A ≤ workspaceBytes o.size :=
    Nat.mul_le_mul_left 8 ((hA _).mpr ((overflowBitsOf_length_le m o).trans ((ceilDiv_le_iff (by decide)).mp le_rfl)))
  have hlength : 8 * (ceilDiv o.size 8 + A) = roundedLength o.size + 8 * A := Nat.mul_add ..
  have hmax : 8 * (ceilDiv o.size 8 + A) ≤ maxOutputBytes o.size := hlength.trans_le (Nat.add_le_add_left haux _)
  obtain ⟨hdw, hdo, hwo⟩ := RegionOperands.disjoint_iff.mp hdisjoint
  rw [← hlength] at hout
  exact ⟨hm, hA, hdata, hwork, hout,
    disjointFootprints_within (i := 0) (j := 0) hdw (by omega) (by omega),
    disjointFootprints_within (i := 0) (j := 0) hdo (by omega) (by omega),
    disjointFootprints_within (i := 0) (j := 0) hwo (by omega) (by omega)⟩

/-- Every full word makes an output word. -/
theorem fullWords_le (n : Nat) : n / 8 ≤ ceilDiv n 8 := by
  rw [ceilDiv]
  omega

/-- Without a tail the full words are all primary words. -/
theorem ceilDiv_of_whole {n : Nat} (h : n % 8 = 0) : ceilDiv n 8 = n / 8 := by
  rw [ceilDiv]
  omega

/-- A tail is one more primary word. -/
theorem ceilDiv_of_tail {n : Nat} (h : n % 8 ≠ 0) : ceilDiv n 8 = n / 8 + 1 := by
  rw [ceilDiv]
  omega

/-- The packed word that output word i is made from: a full word, then the tail if there is one, then the auxiliary
words (R216). -/
def inputWord (m : Memory) (o : RegionOperands) (i : Nat) : Word :=
  if i < o.size / 8 then packedWord (dataWord m o i)
  else if i < ceilDiv o.size 8 then BitVec.ofNat 64 (m.readBytes (o.data + 8 * (o.size / 8)) (o.size % 8))
  else auxWord (overflowBitsOf m o) (i - ceilDiv o.size 8)

theorem inputWord_of_full (m : Memory) {o : RegionOperands} {i : Nat} (h : i < o.size / 8) :
    inputWord m o i = packedWord (dataWord m o i) := if_pos h

theorem inputWord_of_tail (m : Memory) {o : RegionOperands} (h : o.size % 8 ≠ 0) :
    inputWord m o (o.size / 8) = BitVec.ofNat 64 (m.readBytes (o.data + 8 * (o.size / 8)) (o.size % 8)) :=
  (if_neg (lt_irrefl _)).trans (if_pos (ceilDiv_of_tail h ▸ Nat.lt_succ_self _))

theorem inputWord_of_aux (m : Memory) (o : RegionOperands) (j : Nat) :
    inputWord m o (ceilDiv o.size 8 + j) = auxWord (overflowBitsOf m o) j := by
  have hfull := fullWords_le o.size
  rw [inputWord, if_neg (by omega), if_neg (by omega), Nat.add_sub_cancel_left]

/-- Memory m when, from memory m0, N output words have been produced and W auxiliary words of `bits` written. -/
structure RegionState (accumulate : Bool) (o : RegionOperands) (m0 : Memory) (A N W : Nat) (bits : List Bool)
    (m : Memory) : Prop where
  wf : m.wf = true
  map : m.map = m0.map
  outBound : N ≤ ceilDiv o.size 8 + A
  auxBound : W ≤ A
  output : ∀ i, i < N → m.readBytes (o.out + 8 * i) 8 =
    (outputWord accumulate o.coeff (inputWord m0 o i) (BitVec.ofNat 64 (m0.readBytes (o.out + 8 * i) 8))).toNat
  aux : ∀ j, j < W → m.readBytes (o.work.toNat + 8 * j) 8 = (auxWord bits j).toNat
  outside : ∀ x, ¬(o.out ≤ x ∧ x < o.out + 8 * N) → ¬(o.work.toNat ≤ x ∧ x < o.work.toNat + 8 * W) →
    m.byte x = m0.byte x

section Progress

variable {accumulate : Bool} {o : RegionOperands} {m0 m : Memory} {A N W : Nat} {bits : List Bool}

theorem RegionState.accessible_eq (h : RegionState accumulate o m0 A N W bits m) (a n : Nat) :
    m.accessible a n = m0.accessible a n := accessible_congr_map h.map a n

/-- The data stays as it was. -/
theorem RegionState.data_eq (h : RegionState accumulate o m0 A N W bits m) (hu : RegionUsable o m0 A) {i k : Nat}
    (hk : i + k ≤ o.size) : m.readBytes (o.data + i) k = m0.readBytes (o.data + i) k := by
  have hwork := disjointFootprints_iff.mp hu.dataWork
  have hout := disjointFootprints_iff.mp hu.dataOut
  have hN := h.outBound
  have hW := h.auxBound
  exact readBytes_congr fun t ht => h.outside _ (by omega) (by omega)

/-- An output word not produced yet stays as it was. -/
theorem RegionState.old_eq (h : RegionState accumulate o m0 A N W bits m) (hu : RegionUsable o m0 A)
    (hN : N < ceilDiv o.size 8 + A) : m.readBytes (o.out + 8 * N) 8 = m0.readBytes (o.out + 8 * N) 8 := by
  have hwork := disjointFootprints_iff.mp hu.workOut
  have hW := h.auxBound
  exact readBytes_congr fun t ht => h.outside _ (by omega) (by omega)

/-- Producing the next output word (R216's `put`). -/
theorem RegionState.put (h : RegionState accumulate o m0 A N W bits m) (hu : RegionUsable o m0 A)
    (hN : N < ceilDiv o.size 8 + A) :
    ∃ m', putProduct accumulate o.coeff o.out m N (inputWord m0 o N) = .next m' ∧
      RegionState accumulate o m0 A (N + 1) W bits m' := by
  have haccess : m.accessible (o.out + 8 * N) 8 = true := by
    rw [h.accessible_eq]
    exact accessible_within hu.out (by omega)
  obtain ⟨hspace, -⟩ := accessible_iff.mp haccess
  refine ⟨_, putProduct_eq_next.mpr ⟨haccess, rfl⟩, ?_⟩
  rw [h.old_eq hu hN]
  have hW := h.auxBound
  exact {
    wf := writeBytes_keeps_wf h.wf hspace _
    map := (writeBytes_map ..).trans h.map
    outBound := hN
    auxBound := hW
    output := fun i hi => by
      by_cases hlast : i = N
      · rw [hlast]
        exact readBytes_writeBytes_word h.wf hspace _
      · rw [readBytes_writeBytes_apart m _ (disjointFootprints_words o.out hlast), h.output i (by omega)]
    aux := fun j hj => by
      rw [readBytes_writeBytes_apart m _ (disjointFootprints_within hu.workOut (by omega) (by omega)), h.aux j hj]
    outside := fun x hx hx' => by
      rw [byte_writeBytes_outside m _ (by omega), h.outside x (by omega) hx'] }

/-- Writing the next auxiliary word (R158, R159). -/
theorem RegionState.storeAux (h : RegionState accumulate o m0 A N W bits m) (hu : RegionUsable o m0 A) (hW : W < A) :
    m.accessible (o.work.toNat + 8 * W) 8 = true ∧
      RegionState accumulate o m0 A N (W + 1) bits
        (m.writeBytes (o.work.toNat + 8 * W) 8 (auxWord bits W).toNat) := by
  have haccess : m.accessible (o.work.toNat + 8 * W) 8 = true := by
    rw [h.accessible_eq]
    exact accessible_within hu.work (by omega)
  obtain ⟨hspace, -⟩ := accessible_iff.mp haccess
  have hN := h.outBound
  have happart := disjointFootprints_iff.mp hu.workOut
  refine ⟨haccess, ?_⟩
  exact {
    wf := writeBytes_keeps_wf h.wf hspace _
    map := (writeBytes_map ..).trans h.map
    outBound := hN
    auxBound := hW
    output := fun i hi => by
      rw [readBytes_writeBytes_apart m _ (disjointFootprints_iff.mpr (by omega)), h.output i hi]
    aux := fun j hj => by
      by_cases hlast : j = W
      · rw [hlast]
        exact readBytes_writeBytes_word h.wf hspace _
      · rw [readBytes_writeBytes_apart m _ (disjointFootprints_words _ hlast), h.aux j (by omega)]
    outside := fun x hx hx' => by
      rw [byte_writeBytes_outside m _ (by omega), h.outside x hx (by omega)] }

/-- More overflow bits leave the words already written as they are. -/
theorem RegionState.extend (h : RegionState accumulate o m0 A N W bits m) (hW : 63 * W ≤ bits.length)
    (more : List Bool) : RegionState accumulate o m0 A N W (bits ++ more) m :=
  { h with aux := fun j hj => by rw [h.aux j hj, auxWord_append (by omega)] }

/-- The state of the general path while it packs: memory, and the packer of R211. -/
structure RegionPacked (accumulate : Bool) (o : RegionOperands) (m0 : Memory) (A N : Nat) (bits : List Bool)
    (m : Memory) (c : AdrContext) : Prop where
  state : RegionState accumulate o m0 A N c.auxWords.toNat bits m
  packer : PackerHolds o.work bits c

theorem regionPacked_setup (accumulate : Bool) (hu : RegionUsable o m A) :
    RegionPacked accumulate o m A 0 [] m (packerSetup o.work) where
  state :=
    { wf := hu.wf
      map := rfl
      outBound := Nat.zero_le _
      auxBound := Nat.zero_le _
      output := nofun
      aux := nofun
      outside := fun _ _ _ => rfl }
  packer := packerHolds_setup o.work

variable {c : AdrContext}

/-- Appending an overflow bit, one of those that A auxiliary words hold. -/
theorem RegionPacked.append (h : RegionPacked accumulate o m0 A N bits m c) (hu : RegionUsable o m0 A)
    (hbits : bits.length < 63 * A) (bit : Bool) :
    ∃ q, packerAppend m c bit = .next q ∧ RegionPacked accumulate o m0 A N (bits ++ [bit]) q.1 q.2 := by
  have hlength := h.packer.length
  have hextended := h.state.extend (by omega) [bit]
  obtain hlt | hfull := Nat.lt_or_eq_of_le h.packer.pending
  · exact ⟨_, packerAppend_of_lt m bit hlt, hextended, h.packer.buffered hlt bit⟩
  · obtain ⟨haccess, hstored⟩ := hextended.storeAux hu (by omega)
    rw [← h.packer.auxAddress_eq] at haccess hstored
    rw [← h.packer.accWith_eq] at hstored
    have hnext := auxWords_next haccess
    refine ⟨_, packerAppend_of_full bit hfull haccess, ?_, h.packer.completed hfull hnext bit⟩
    rw [← hnext] at hstored
    exact hstored

/-- Reading and packing data word i (R156). -/
theorem RegionPacked.read {i : Nat} (h : RegionPacked accumulate o m0 A N (overflowPrefix m0 o i) m c)
    (hu : RegionUsable o m0 A) (hi : i < o.size / 8) :
    ∃ r, packerRead m c (o.data + 8 * i) = .next r ∧ r.2.2 = packedWord (dataWord m0 o i) ∧
      RegionPacked accumulate o m0 A N (overflowPrefix m0 o (i + 1)) r.1 r.2.1 := by
  have haccess : m.accessible (o.data + 8 * i) 8 = true := by
    rw [h.state.accessible_eq]
    exact accessible_within hu.data (by omega)
  have hword : BitVec.ofNat 64 (m.readBytes (o.data + 8 * i) 8) = dataWord m0 o i := by
    rw [dataWord, h.state.data_eq hu (by omega)]
  have hlength := overflowPrefix_length_le m0 o (i := i + 1) hi
  have hA := (hu.ceil A).mp le_rfl
  rw [overflowPrefix_succ] at hlength ⊢
  cases hambiguous : ambiguous (dataWord m0 o i) with
  | false =>
    refine ⟨_, packerRead_of_plain haccess (hword ▸ hambiguous), ?_, ?_⟩
    · exact hword.trans (packedWord_of_plain hambiguous).symm
    · simpa using h
  | true =>
    rw [hambiguous, if_pos rfl, List.length_append, List.length_singleton] at hlength
    obtain ⟨q, hq, hpacked⟩ := h.append hu (by omega) (dataWord m0 o i).msb
    rw [← hword] at hq
    exact ⟨_, packerRead_of_ambiguous haccess (hword ▸ hambiguous) hq, congrArg packedWord hword, hpacked⟩

/-- The loop over the full words. -/
theorem RegionPacked.words {count i : Nat} (h : RegionPacked accumulate o m0 A i (overflowPrefix m0 o i) m c)
    (hu : RegionUsable o m0 A) (hi : i + count = o.size / 8) :
    ∃ r, regionWords accumulate o count i m c = .next r ∧
      RegionPacked accumulate o m0 A (o.size / 8) (overflowBitsOf m0 o) r.1 r.2 := by
  induction count generalizing i m c with
  | zero =>
    obtain rfl : i = o.size / 8 := hi
    exact ⟨_, rfl, overflowPrefix_full m0 o ▸ h⟩
  | succ count ih =>
    have hfull : i < o.size / 8 := by omega
    obtain ⟨r, hread, hword, hpacked⟩ := h.read hu hfull
    obtain ⟨m', hput, hstate⟩ := hpacked.state.put hu (Nat.lt_add_right A (hfull.trans_le (fullWords_le _)))
    rw [inputWord_of_full m0 hfull, ← hword] at hput
    obtain ⟨r', hrest, hend⟩ := ih ⟨hstate, hpacked.packer⟩ (by omega)
    exact ⟨r', by rw [regionWords, hread, andThen_next, hput, andThen_next, hrest], hend⟩

/-- The tail, when there is one, makes the last primary word. -/
theorem RegionState.tail (h : RegionState accumulate o m0 A (o.size / 8) W bits m) (hu : RegionUsable o m0 A) :
    ∃ m', regionTail accumulate o m = .next m' ∧ RegionState accumulate o m0 A (ceilDiv o.size 8) W bits m' := by
  by_cases hnone : o.size % 8 = 0
  · exact ⟨m, if_pos hnone, ceilDiv_of_whole hnone ▸ h⟩
  · have hprimary := ceilDiv_of_tail hnone
    have haccess : m.accessible (o.data + 8 * (o.size / 8)) (o.size % 8) = true := by
      rw [h.accessible_eq]
      exact accessible_within hu.data (by omega)
    have htail : packerTail m (o.data + 8 * (o.size / 8)) (o.size % 8) = .next (inputWord m0 o (o.size / 8)) := by
      refine packerTail_eq_next.mpr ⟨.inr haccess, ?_⟩
      rw [inputWord_of_tail m0 hnone, h.data_eq hu (by omega)]
    obtain ⟨m', hput, hstate⟩ := h.put hu (by omega)
    exact ⟨m', by rw [regionTail, if_neg hnone, htail, andThen_next, hput], hprimary ▸ hstate⟩

/-- After the flush there are A auxiliary words, A the ceiling of R158 and R217. -/
theorem RegionPacked.flush (h : RegionPacked accumulate o m0 A N (overflowBitsOf m0 o) m c)
    (hu : RegionUsable o m0 A) :
    ∃ r, packerFlush m c = .next r ∧ r.2.auxWords.toNat = A ∧
      RegionState accumulate o m0 A N A (overflowBitsOf m0 o) r.1 := by
  have hlength := h.packer.length
  have hpending := h.packer.pending
  have henough := (hu.ceil A).mp le_rfl
  by_cases hc : c.cnt = 0
  · have hzero : c.cnt.toNat = 0 := by rw [hc]; rfl
    have hA : c.auxWords.toNat = A :=
      Nat.le_antisymm h.state.auxBound ((hu.ceil _).mpr (by omega))
    exact ⟨_, packerFlush_of_empty m hc, hA, hA ▸ h.state⟩
  · have hpos : c.cnt.toNat ≠ 0 := fun hz => hc (BitVec.eq_of_toNat_eq hz)
    have hA : c.auxWords.toNat + 1 = A := Nat.le_antisymm (by omega) ((hu.ceil _).mpr (by omega))
    obtain ⟨haccess, hstored⟩ := h.state.storeAux hu (by omega)
    rw [← h.packer.auxAddress_eq] at haccess hstored
    rw [← h.packer.acc, hA] at hstored
    exact ⟨_, packerFlush_of_pending hc haccess, (auxWords_next haccess).trans hA, hstored⟩

/-- The loop over the auxiliary words. -/
theorem RegionState.appendAux {count j : Nat}
    (h : RegionState accumulate o m0 A (ceilDiv o.size 8 + j) A (overflowBitsOf m0 o) m) (hu : RegionUsable o m0 A)
    (hj : j + count = A) :
    ∃ m', regionAux accumulate o count j m = .next m' ∧
      RegionState accumulate o m0 A (ceilDiv o.size 8 + A) A (overflowBitsOf m0 o) m' := by
  induction count generalizing j m with
  | zero =>
    obtain rfl : j = A := hj
    exact ⟨m, rfl, h⟩
  | succ count ih =>
    have haccess : m.accessible (o.work.toNat + 8 * j) 8 = true := by
      rw [h.accessible_eq]
      exact accessible_within hu.work (by omega)
    have hinput : inputWord m0 o (ceilDiv o.size 8 + j) =
        BitVec.ofNat 64 (m.readBytes (o.work.toNat + 8 * j) 8) := by
      rw [inputWord_of_aux, h.aux j (by omega), BitVec.ofNat_toNat, BitVec.setWidth_eq]
    obtain ⟨m1, hput, hstate⟩ := h.put hu (by omega)
    rw [hinput] at hput
    obtain ⟨m', hrest, hend⟩ := ih (j := j + 1) hstate (by omega)
    exact ⟨m', by rw [regionAux, load_eq_next.mpr ⟨haccess, rfl⟩, andThen_next, hput, andThen_next, hrest], hend⟩

/-- With every word produced, memory is as R216 and R217 say. -/
theorem RegionState.result
    (h : RegionState accumulate o m0 A (ceilDiv o.size 8 + A) A (overflowBitsOf m0 o) m) :
    RegionResult accumulate o m0 m A where
  words i hi := by
    rw [h.output i (Nat.lt_add_right A (hi.trans_le (fullWords_le _))), inputWord_of_full m0 hi]
  tail hsome := by
    have hprimary := ceilDiv_of_tail hsome
    rw [h.output _ (by omega), inputWord_of_tail m0 hsome]
  work j hj b := by rw [h.aux j hj, BitVec.testBit_toNat, auxWord_getLsbD]
  appended j hj := by
    rw [roundedLength, Nat.add_assoc, ← Nat.mul_add, h.output _ (Nat.add_lt_add_left hj _), inputWord_of_aux,
      h.aux j hj, BitVec.ofNat_toNat, BitVec.setWidth_eq]
  outside x hx := h.outside x (by rwa [Nat.mul_add, ← Nat.add_assoc])
  map := h.map

/-- The general path completes, with the memory and the length of R216 and R217. -/
theorem regionGeneral_result (accumulate : Bool) (hu : RegionUsable o m A) :
    ∃ m', regionGeneral accumulate o m = .next (m', roundedLength o.size + 8 * A) ∧
      RegionResult accumulate o m m' A := by
  obtain ⟨r, hwords, hpacked⟩ := (regionPacked_setup accumulate hu).words hu (Nat.zero_add _)
  obtain ⟨m1, htail, hstate⟩ := hpacked.state.tail hu
  obtain ⟨f, hflush, hA, hflushed⟩ := RegionPacked.flush ⟨hstate, hpacked.packer⟩ hu
  obtain ⟨m2, haux, hend⟩ := hflushed.appendAux (j := 0) hu (Nat.zero_add A)
  exact ⟨m2, by rw [regionGeneral, hwords, andThen_next, htail, andThen_next, hflush, andThen_next, hA, haux,
    andThen_next], hend.result⟩

end Progress

theorem multiplyRegion_of_general {o : RegionOperands} (m : Memory) (hcheck : regionCheck o = .next ())
    (h0 : o.coeff ≠ 0) (h1 : o.coeff ≠ 1) : multiplyRegion o m = regionGeneral false o m := by
  rw [multiplyRegion, hcheck, andThen_next, if_neg h0, if_neg h1]

theorem multiplyAddRegion_of_general {o : RegionOperands} (m : Memory) (hcheck : regionCheck o = .next ())
    (h0 : o.coeff ≠ 0) : multiplyAddRegion o m = regionGeneral true o m := by
  rw [multiplyAddRegion, hcheck, andThen_next, if_neg h0]

/-- Settles O54: the preconditions pass, neither shortcut applies, and both commands are the general path. -/
theorem regionGeneralResult : Obligations.RegionGeneralResult := by
  rintro rd ra rb rc re rf s o A hm rfl hk hn hdisjoint hA hdata hwork hout
  have hu := regionUsable_of_disjoint hm hdisjoint hA hdata hwork hout
  have hcheck : regionCheck (regionOperands s ra rb rc re rf) = .next () :=
    regionCheck_eq_next.mpr ⟨hk, hn, hdisjoint⟩
  refine ⟨fun h0 h1 => ?overwrite, fun h0 => ?accumulate⟩
  case overwrite =>
    obtain ⟨m', hgeneral, hresult⟩ := regionGeneral_result false hu
    obtain ⟨t, ht, hdelivered, hst, hcontexts, rfl⟩ :=
      mulrgn_completes (rd := rd) ((multiplyRegion_of_general s.mem hcheck h0 h1).trans hgeneral)
    exact ⟨t, ht, hdelivered, hst, hcontexts, hresult⟩
  case accumulate =>
    obtain ⟨m', hgeneral, hresult⟩ := regionGeneral_result true hu
    obtain ⟨t, ht, hdelivered, hst, hcontexts, rfl⟩ :=
      madrgn_completes (rd := rd) ((multiplyAddRegion_of_general s.mem hcheck h0).trans hgeneral)
    exact ⟨t, ht, hdelivered, hst, hcontexts, hresult⟩

end Sys2Proof.Machine
end

section
/-! Exceptions (spec/60_exceptions.md R231 to R238): the fault entry, the halted core, what a completed command answers,
and the refusal of an idle context. -/

namespace Sys2Proof.Machine

/-! ### Complete commands and resets at the head of the input -/

/-- As many words as the first one's opcode asks for are taken as one command, whether or not they decode (R70). -/
theorem nextIssue_of_complete {w : CommandWord} {ws : List CommandWord} (h : (w :: ws).length = commandLength w)
    (rest : List HostInput) : nextIssue (asInput (w :: ws) ++ rest) = .command (w :: ws) rest := by
  have hws : commandLength w - 1 = ws.length := by rw [← h, List.length_cons, Nat.add_sub_cancel]
  rw [asInput_cons, List.cons_append, nextIssue, hws]
  exact takeWords_words [w] ws rest

/-- Once a command's first word is presented, what the core takes next is no reset (R250, log entry 6). -/
theorem takeWords_ne_reset (ws : List CommandWord) (more : Nat) (input rest : List HostInput) :
    takeWords ws more input ≠ .reset rest := by
  induction more generalizing ws input with
  | zero => exact nofun
  | succ more ih =>
    match input with
    | [] | .reset :: _ | .hostStore _ _ :: _ => exact nofun
    | .word w :: input => exact ih (ws ++ [w]) input

/-- A reset is taken only from the head of the input. -/
theorem input_of_nextIssue_reset {input rest : List HostInput} (h : nextIssue input = .reset rest) :
    input = .reset :: rest := by
  match input with
  | [] | .hostStore _ _ :: _ => cases h
  | .reset :: _ => cases h; rfl
  | .word w :: input => exact absurd h (takeWords_ne_reset [w] _ input rest)

/-! ### The fault and the halted core (R233 to R235) -/

/-- Settles O7: a complete command is taken whole; what the core then does with it is the fault entry, or the halted
core's answer, and either changes only the fields it names. -/
theorem illegalCommandHalts : Obligations.IllegalCommandHalts := by
  intro s w ws rest hin hlen
  have hn : nextIssue s.input = .command (w :: ws) rest := hin ▸ nextIssue_of_complete hlen rest
  refine ⟨fun hrun hillegal => ?illegal, fun hhalt => ?halted⟩
  case illegal =>
    obtain ⟨e, he⟩ : ∃ e, decode (w :: ws) = .error e := by
      cases hd : decode (w :: ws) with
      | ok i => exact absurd hd (hillegal i)
      | error e => exact ⟨e, rfl⟩
    exact ⟨_, step_of_illegal hn hrun he, rfl, rfl, rfl, rfl, fun _ => ⟨rfl, rfl⟩, ⟨rfl, rfl, rfl, rfl, rfl⟩,
      ⟨fun _ => rfl, rfl⟩, rfl, rfl⟩
  case halted =>
    exact ⟨_, step_of_halted hn hhalt, rfl, rfl, fun _ => ⟨rfl, rfl⟩, ⟨rfl, rfl, rfl, rfl, rfl⟩,
      ⟨fun _ => rfl, rfl⟩, rfl, rfl⟩

/-- Settles O8: of all that a step can do, a halted core runs no command and takes no fault; and a reset is excluded. -/
theorem haltedUntilReset : Obligations.HaltedUntilReset := by
  intro s t hhalt hnoreset hstep
  cases stepsTo_of_step hstep with
  | waiting | hostStore | halted => exact ⟨rfl, fun _ => ⟨rfl, rfl⟩, ⟨rfl, rfl, rfl, rfl, rfl⟩, rfl⟩
  | reset hn => exact absurd (input_of_nextIssue_reset hn) (hnoreset _)
  | illegal _ hrun | command _ hrun => exact absurd (hhalt.symm.trans hrun) (by decide)

/-! ### What a completed command answers (R21, R24, R237) -/

@[simp] theorem State.finish_index (u : State) (d : Option Reg) (v : Word) : (u.finish d v).index = u.index + 1 := by
  cases d <;> rfl

@[simp] theorem State.finish_input (u : State) (d : Option Reg) (v : Word) : (u.finish d v).input = u.input := by
  cases d <;> rfl

/-- Before it responds a command changes neither HALT nor FCAUSE, and neither the index nor the input. -/
theorem CommandEffect.control {i : Instr} {s u : State} (h : CommandEffect s i u) :
    u.st.halt = s.st.halt ∧ u.st.fcause = s.st.fcause ∧ u.index = s.index ∧ u.input = s.input := by
  cases h <;> exact ⟨rfl, rfl, rfl, rfl⟩

/-- The result that a command with destination d returns when it delivers v. -/
def resultOf (d : Option Reg) (v : Word) : Word :=
  match d with
  | some _ => v
  | none => 0

/-- Completing returns no fault (R237), and as result what it delivers, 0 without a destination (R21). -/
theorem State.finish_response (u : State) (d : Option Reg) (v : Word) :
    (u.finish d v).response = some { fault := 0, empty := u.st.empty, result := resultOf d v } := by
  cases d <;> rfl

/-- Settles O11: a command changes nothing of the control state before it responds, and its response is that of
`State.finish` over its destination. -/
theorem completedCommandNeverFaults : Obligations.CompletedCommandNeverFaults := by
  intro i s t h
  obtain ⟨u, v, hu, rfl⟩ := completes_of_exec h
  obtain ⟨hhalt, hfcause, hindex, hinput⟩ := hu.control
  have hresponse := u.finish_response (destination i) v
  rw [State.finish_st, State.finish_index, State.finish_input]
  refine ⟨hhalt, hfcause, ⟨_, hresponse⟩, fun rd hd => ?_, fun hd => ?_, congrArg (· + 1) hindex, hinput⟩
  · rw [hresponse, hd, State.finish_some, State.reg_deliver, resultOf]
  · rw [hresponse, hd, resultOf]

/-! ### Idle contexts (R238) -/

/-- Settles O40: each of the nine commands checks its context first (log entry 11), WWWRITE and BWWRITE in
`writerCheck`. -/
theorem idleContextRefused : Obligations.IdleContextRefused := by
  intro i s h
  cases i with
  | adrd8 | adrdf | adflush | wwflush | wrread | bwflush | brread =>
    exact guarded_of_idle (Option.some.inj h) _
  | wwwrite ra => exact exec_wwwrite_of_refused (writerCheck_of_idle _ (Option.some.inj h))
  | bwwrite ra => exact exec_bwwrite_of_refused (writerCheck_of_idle _ (Option.some.inj h))
  | _ => cases h

end Sys2Proof.Machine
end
